-- ==== Sys2Proof/Word.lean ====
section
/-! DEFINITION. The widths of the Orkway 9640 and the bank: a fixed number of like things (slots, lines, points). -/

namespace Sys2Proof

/-- One byte on the wire or in the Definition Store (R160, R191). -/
abbrev Byte := BitVec 8

/-- Two bytes: a revision (R12), a window address (R165), a CRC-16 (R191). -/
abbrev Half := BitVec 16

/-- Four bytes: a Second Counter value (R118); arithmetic wraps modulo 2 to the power 32. -/
abbrev Word := BitVec 32

/-- `n` things of one kind, indexed from 0: the 252 points, the 96 entries, the 64 slots, the 16 lines, the 7 groups. -/
structure Bank (α : Type) (n : Nat) where
  items : List α
  size : items.length = n
  deriving DecidableEq, Repr

variable {α β : Type} {n : Nat}

def Bank.get (b : Bank α n) (i : Fin n) : α :=
  b.items.get (i.cast b.size.symm)

def Bank.set (b : Bank α n) (i : Fin n) (x : α) : Bank α n :=
  ⟨b.items.set i.val x, by simp [b.size]⟩

def Bank.fill (n : Nat) (x : α) : Bank α n :=
  ⟨List.replicate n x, by simp⟩

/-- The bank whose thing at index `i` is `f i`. -/
def Bank.build (n : Nat) (f : Nat → α) : Bank α n :=
  ⟨(List.range n).map f, by simp⟩

def Bank.map (f : α → β) (b : Bank α n) : Bank β n :=
  ⟨b.items.map f, by simp [b.size]⟩

/-- Each thing changed by a function of its index. -/
def Bank.mapIdx (f : Nat → α → β) (b : Bank α n) : Bank β n :=
  ⟨b.items.mapIdx f, by simp [b.size]⟩

/-- The lowest index whose thing satisfies `q`. -/
def Bank.find? (q : α → Bool) (b : Bank α n) : Option (Fin n) :=
  match b.items.findIdx? q with
  | none => none
  | some i => if h : i < n then some ⟨i, h⟩ else none

end Sys2Proof
end

