-- ==== Sys2Proof/Syntax.lean ====
section
/-! DEFINITION. The commands of the Orkway 9640: one constructor for each row of spec/opcode_table.json. -/

namespace Sys2Proof

/-- The two controller ports (chapter 9). -/
inductive PortId where
  | a
  | b
  deriving DecidableEq, Repr

/-- The four kinds of frame that R161 gives. -/
inductive FrameKind where
  | windowRead
  | windowWrite
  | request
  | responseRead
  deriving DecidableEq, Repr

/-- The parts of a frame, in the order in which they happen (R160, R161). Other steps of the part may fall between
them; a byte is one moment (assumption 7). -/
inductive FramePart where
  /-- Chip-select falls. -/
  | select
  /-- The kind byte is received. -/
  | kind
  /-- Further bytes are received one after the other, each while one byte is shifted out. -/
  | bytes (bs : List Byte)
  /-- Chip-select rises. -/
  | finish
  /-- The whole frame, with `bs` after its kind byte and no other step inside it. -/
  | whole (bs : List Byte)
  deriving DecidableEq, Repr

/-- One command: a step of the part, whole and indivisible, in the order of spec/opcode_table.json.
A request's code and operands stand in the mailbox of its port, where a request frame put them (R63). -/
inductive Instr where
  /-- Application of supply; `levels` is the first sample of the sixteen pins (R99). -/
  | powerReset (levels : BitVec 16)
  | pinReset
  /-- Release of the reset input; `levels` is the first sample of the sixteen pins (R99). -/
  | pinResetRelease (levels : BitVec 16)
  /-- End of STARTING; `levels` is the sample of the pins with the configured pulls in force (R98, R99). -/
  | endOfStarting (levels : BitVec 16)
  | requestFrame (p : PortId) (part : FramePart)
  | windowRead (p : PortId) (part : FramePart)
  | secondCounterLatch (p : PortId)
  | windowWrite (p : PortId) (part : FramePart)
  | windowWritePair (p : PortId) (mask data : Byte)
  | eventStatusClear (p : PortId) (mask data : Byte)
  | eventEnableWrite (p : PortId) (mask data : Byte)
  | resetCauseClear (p : PortId) (mask data : Byte)
  | supervisionPeriodWrite (p : PortId) (mask data : Byte)
  | interruptLineConfigWrite (p : PortId) (mask data : Byte)
  | lineConfigurationWrite (p : PortId) (mask data : Byte)
  | slotMapWrite (p : PortId) (mask data : Byte)
  | pointDefinitionWrite (p : PortId) (mask data : Byte)
  | brightnessConfigurationWrite (p : PortId) (mask data : Byte)
  | responseRead (p : PortId) (part : FramePart)
  /-- A frame whose kind byte is `kind`, none of the four kinds. -/
  | statusOnlyFrame (p : PortId) (kind : Byte) (part : FramePart)
  /-- The end of a frame of kind `kind` that is not complete: `bs` are the last bytes it received, all those after its
  kind byte where no frame was open before. -/
  | frameCutShort (p : PortId) (kind : FrameKind) (bs : List Byte)
  | supervisionExpiry (p : PortId)
  | raise (p : PortId)
  | returnPoint (p : PortId)
  | pulse (p : PortId)
  | ack (p : PortId)
  | ackVisible (p : PortId)
  | ackAll (p : PortId)
  | silence (p : PortId)
  | reset (p : PortId)
  | resetAll (p : PortId)
  | forceRetire (p : PortId)
  | shelve (p : PortId)
  | unshelve (p : PortId)
  | inhibit (p : PortId)
  | enable (p : PortId)
  | firstOutReset (p : PortId)
  | lookup (p : PortId)
  | findNext (p : PortId)
  | clearWatch (p : PortId)
  | lampTest (p : PortId)
  | enterConfigure (p : PortId)
  | releaseConfig (p : PortId)
  | leaveConfigure (p : PortId)
  | saveStore (p : PortId)
  | loadStore (p : PortId)
  | restart (p : PortId)
  | unknownRequest (p : PortId)
  | senseLineItem (line : Fin 16)
  | buttonAckItem (line : Fin 16)
  | buttonSilenceItem (line : Fin 16)
  | buttonResetItem (line : Fin 16)
  | shelfDueItem
  | lapseItem (p : PortId)
  | sensorItem
  | storeItem
  /-- Erasure ends; `defects` are the bytes that the memory failed to erase, with what they hold. -/
  | erasingDone (defects : List (Nat × Byte))
  /-- Programming ends; `defects` are the bytes that the memory failed to program, with what they hold. -/
  | programmingDone (defects : List (Nat × Byte))
  | verifyingDone
  | storeReadDone
  | rawLevelChange (line : Fin 16) (level : Bool)
  | qualificationTimerExpiry (line : Fin 16)
  | secondCounterIncrement
  | lampTestTimerExpiry
  | flashPhaseChange
  | scanFrameStart
  | readingStart
  /-- A reading ends; the lamp is discharged from the look `t` on, or never (R156). -/
  | readingComplete (t : Option Nat)
  deriving DecidableEq, Repr

end Sys2Proof
end

