-- ==== Sys2Proof/Config.lean ====
section
/-! DEFINITION. What the spec leaves open of this part: free values, which have no body. -/

namespace Sys2Proof

/-- What byte `address` of the Definition Store holds after a reset ended the `k`-th interrupted erasing or
programming: R195 says only 'whatever the pages then hold'. Free value (assumption 5). -/
opaque Config.interruptedByte (k : Nat) (address : Nat) : Byte

/-- What a port shifts out on a byte after the first of a status-only frame, the `k`-th free value drawn: R161 says
what the port shifts out after the first byte of the four kinds of frame and is silent on this one. Free value
(assumption 6). -/
opaque Config.statusOnlyByte (k : Nat) : Byte

end Sys2Proof
end

