-- ==== Sys2Proof/Machine/State.lean ====
section
/-! DEFINITION. The state of the Orkway 9640 as plain data, the reasons to stop, and the state after reset. -/

namespace Sys2Proof.Machine

/-- Point numbers 0 to 251 (R1). -/
abbrev Point := Fin 252

/-- One value for each port. -/
structure PerPort (α : Type) where
  a : α
  b : α
  deriving DecidableEq, Repr

/-! Configuration memory (R190). -/

/-- Where a point's condition comes from (R4). -/
inductive PointSource where
  | none
  | line (n : Fin 16)
  | port
  | system
  deriving DecidableEq, Repr

/-- A point's definition (R2, Table 1-2). -/
structure PointDef where
  source : PointSource
  cls : Fin 8
  latch : Bool
  ringback : Bool
  sound : Bool
  pool : Bool
  /-- First-out group; 0 is none. -/
  group : Fin 8
  shelvable : Bool
  enabled : Bool
  deriving DecidableEq, Repr

/-- Line roles, in the order of Table 5-1 (R96). -/
inductive LineRole where
  | off | sense | buttonAck | buttonSilence | buttonReset | buttonTest | buttonBright
  | driveAlert | driveReturn | driveRelay | driveFault | driveHealth
  deriving DecidableEq, Repr

inductive Pull where
  | none | up | down
  deriving DecidableEq, Repr

inductive SenseMode where
  | levelHigh | levelLow | rise | fall | both
  deriving DecidableEq, Repr

/-- A line's configuration (R96, Table 5-1). Delays are in units of 10 ms. -/
structure LineConfig where
  role : LineRole
  pull : Pull
  senseMode : SenseMode
  /-- Active level of a button: on is high. -/
  activeHigh : Bool
  onDelay : Byte
  offDelay : Byte
  pushPull : Bool
  /-- Drive polarity: on is active high. -/
  driveHigh : Bool
  pulsed : Bool
  threshold : Fin 8
  deriving DecidableEq, Repr

inductive SlotRole where
  | unused | dedicated | pool | overflow | health | sensor
  deriving DecidableEq, Repr

/-- A Slot Map entry (R129): the operand is kept as written whatever the role. -/
structure SlotEntry where
  role : SlotRole
  operand : Byte
  deriving DecidableEq, Repr

inductive BrightMode where
  | fixed | ambient | step
  deriving DecidableEq, Repr

/-- The brightness configuration (R152). -/
structure Brightness where
  mode : BrightMode
  fixed : Fin 16
  minimum : Fin 16
  maximum : Fin 16
  /-- 0 to 3 for 250, 500, 1000, 2000 ms. -/
  sensePeriod : Fin 4
  /-- Discharge window W in row periods, 1 to 63. -/
  window : Fin 64
  deriving DecidableEq, Repr

/-- Interrupt line configuration (R173). -/
structure InterruptConfig where
  activeHigh : Bool
  pushPull : Bool
  deriving DecidableEq, Repr

/-- Configuration memory (R190, Table 10-1). -/
structure ConfigMem where
  autoRun : Bool
  points : Bank PointDef 252
  lines : Bank LineConfig 16
  slots : Bank SlotEntry 64
  brightness : Brightness
  /-- Supervision period codes (R174): 0 off, 1 to 7 for 0.25 s to 16 s. -/
  period : PerPort (Fin 8)
  interrupt : PerPort InterruptConfig
  deriving DecidableEq, Repr

/-! Records and the tables of the Record Engine. -/

inductive RecState where
  | new | acked | returned | ringback | held
  deriving DecidableEq, Repr

/-- Source of an acknowledgement (R16). -/
inductive AckSource where
  | port (p : PortId)
  | panel
  deriving DecidableEq, Repr

/-- The shelf part of a record (R15). -/
structure ShelfPart where
  deadline : Word
  source : PortId
  deriving DecidableEq, Repr

/-- A record of the Indication Table (R14, Table 1-4). -/
structure Record where
  point : Point
  state : RecState
  count : Byte
  saturated : Bool
  sounding : Bool
  firstOut : Bool
  shelf : Option ShelfPart
  ackedBy : Option AckSource
  createdAt : Word
  changedAt : Word
  deriving DecidableEq, Repr

/-- The live fields of a point (R6 to R12, Table 1-3). -/
structure PointLive where
  inhibited : Bool
  condition : Bool
  revision : Half
  link : Option (Fin 96)
  waiting : Bool
  deriving DecidableEq, Repr

/-- Display patterns (R146). -/
inductive Pattern where
  | fast | first | slow | steady | dim
  deriving DecidableEq, Repr

/-- An entry of the Slot Contents that holds a record shown (R136). -/
structure Shown where
  point : Point
  pattern : Pattern
  deriving DecidableEq, Repr

/-- A group of the First-Out Table (R41). -/
structure FirstOutGroup where
  mark : Option Point
  armed : Bool
  live : Nat
  deriving DecidableEq, Repr

/-- An entry of the Shelf List (R122). -/
structure ShelfEntry where
  deadline : Word
  point : Point
  deriving DecidableEq, Repr

/-- The Summary Counts (R58 to R61). -/
structure Counts where
  liveUser : Nat
  liveSystem : Nat
  waitingLength : Nat
  new : Nat
  acked : Nat
  returned : Nat
  ringback : Nat
  held : Nat
  shelved : Nat
  alertSounding : Nat
  returnSounding : Nat
  /-- Present-by-class counts (R60), one for each class. -/
  presentByClass : Bank Nat 8
  poolEligible : Nat
  poolHidden : Nat
  hiddenUnacked : Bool
  /-- The engine's copy of the Display Unit's flag. -/
  sensorFault : Bool
  deriving DecidableEq, Repr

/-- What the Record Engine owns (Table 0-1). -/
structure Table where
  points : Bank PointLive 252
  entries : Bank (Option Record) 96
  /-- The Rank List by point number, head first (R45). -/
  rank : List Point
  /-- The Waiting Queue, head first (R50). -/
  waiting : List Point
  /-- The Shelf List, head first (R122). -/
  shelf : List ShelfEntry
  /-- Groups 1 to 7 at indexes 0 to 6 (R41). -/
  groups : Bank FirstOutGroup 7
  slots : Bank (Option Shown) 64
  counts : Counts
  deriving DecidableEq, Repr

/-! The engine's arbitration. -/

/-- R62. -/
inductive EngineState where
  | free | serving
  deriving DecidableEq, Repr

/-- A claimant, and what the grant pointer names (R64). -/
inductive Claimant where
  | mailbox (p : PortId)
  | workQueue
  deriving DecidableEq, Repr

/-- A source of the Work Queue (R107). -/
inductive WorkSource where
  | line (n : Fin 16)
  | shelfDue
  | lapse (p : PortId)
  | sensor
  | store
  deriving DecidableEq, Repr

/-! The ports. -/

/-- A submitted request (R169): the code, the length byte as sent, the operand bytes received. -/
structure Request where
  code : Byte
  len : Byte
  operands : List Byte
  deriving DecidableEq, Repr

/-- The states of a mailbox (R63). -/
inductive Mailbox where
  | empty
  | waiting (r : Request)
  | taken (r : Request)
  | storeWait
  | held
  deriving DecidableEq, Repr

/-- What a port holds of a frame in progress (R160 to R171): what the bytes received so far leave to be remembered. -/
inductive OpenFrame where
  /-- Chip-select has fallen and no byte is received yet. -/
  | selected
  /-- A frame whose kind byte is none of the four kinds. -/
  | statusOnly
  /-- A window frame within its address: whether it writes, and the first address byte once it is received. -/
  | address (writes : Bool) (high : Option Byte)
  /-- A window read past its address, with the address of the next data byte (R165). -/
  | read (next : Half)
  /-- A window write past its address, between two pairs: the address of the next pair and whether a pair was refused
  (R166, R167). -/
  | write (next : Half) (refused : Bool)
  /-- The same within a pair, with its mask byte. -/
  | writeMask (next : Half) (refused : Bool) (mask : Byte)
  /-- A request frame past its kind byte, with the decision of R163, on when its request will be taken, and the bytes
  read since: code, length and operands (R169). -/
  | request (take : Bool) (bytes : List Byte)
  /-- A response read past its kind byte (R171): the copy once the first data byte began, how many bytes were
  shifted, and whether its end clears RESP_READY. -/
  | response (copy : Option (Bank Byte 24)) (shifted : Nat) (clears : Bool)
  deriving DecidableEq, Repr

/-- A controller port (chapter 9, Table 9-5). -/
structure Port where
  mailbox : Mailbox
  buffer : Bank Byte 24
  respReady : Bool
  refused : Bool
  /-- Event status and event enable: bits 0 to 7 as at 0x0010, bits 8 and 9 as at 0x0011 (R172). -/
  status : BitVec 10
  enable : BitVec 10
  watch : Option Point
  /-- The supervision timer: none is STOPPED; RUNNING keeps the period it was started with (R174). -/
  timer : Option (Fin 8)
  lapse : Bool
  frame : Option OpenFrame
  /-- The data-out pin: the bytes shifted out in the latest frame, first byte first. -/
  out : List Byte
  deriving DecidableEq, Repr

/-! The other blocks. -/

/-- What the Field Line Unit keeps for a line (R99 to R104); levels: on is high. -/
structure LineState where
  raw : Bool
  qualified : Bool
  /-- none is STABLE; PENDING keeps the delay the timer was started with (R100). -/
  timer : Option Byte
  assertSeen : Bool
  pressSeen : Bool
  deriving DecidableEq, Repr

/-- The outcome of the latest completed reading (R158). -/
inductive Latest where
  | none
  | discharged (t : Fin 64)
  | noDischarge
  deriving DecidableEq, Repr

/-- How far a reading has come in the scan (R156): its lamp is still to be charged, is charged in reverse during this
row period of its row, or was charged and is looked at. -/
inductive ReadingStage where
  | toCharge | charging | looking
  deriving DecidableEq, Repr

/-- A reading in progress, with the W in force when it began (R155). -/
structure Reading where
  window : Fin 64
  stage : ReadingStage
  deriving DecidableEq, Repr

/-- The Display Unit (chapter 8, R159). -/
structure Display where
  phase : Fin 8
  /-- The scan position: the row whose row period runs (R149). -/
  row : Fin 8
  /-- The port-started test timer: none is STOPPED; RUNNING keeps the seconds requested (R150). -/
  lampTimer : Option Nat
  /-- Step position: on is LOW (R154). -/
  stepLow : Bool
  sensed : Fin 16
  latest : Latest
  failed : Fin 5
  sensorFault : Bool
  reading : Option Reading
  /-- The current level taken at the start of the latest frame (R153). -/
  level : Fin 16
  /-- What each slot shows during the current frame; none is dark (R148). -/
  frame : Bank (Option Pattern) 64
  deriving DecidableEq, Repr

inductive Mode where
  | starting | configure | operate
  deriving DecidableEq, Repr

/-- The Reset Cause (R197). -/
structure ResetCause where
  power : Bool
  pin : Bool
  restart : Bool
  deriving DecidableEq, Repr

/-- The class of a store image (R191). -/
inductive ImageClass where
  | blank | valid | corrupt
  deriving DecidableEq, Repr

/-- What a store operation that has ENDED leaves for its STORE item (R193, R194). -/
inductive StoreResult where
  | saved (agrees : Bool)
  | loaded (cls : ImageClass)
  deriving DecidableEq, Repr

/-- The store operation state (R192), with the submitting port and the image taken (R193). -/
inductive StoreOp where
  | idle
  | reading (p : PortId)
  | erasing (p : PortId) (image : List Byte)
  | programming (p : PortId) (image : List Byte)
  | verifying (p : PortId) (image : List Byte)
  | ended (p : PortId) (r : StoreResult)
  deriving DecidableEq, Repr

/-- The Definition Store (R191): the bytes that are not erased, in canonical form (see `Memory.wf`). -/
abbrev Memory := List Host.Cell

/-- The whole part. -/
structure State where
  /-- The commands that wait, first in, first out: the model's own field (assumption 3). -/
  pending : List Instr
  resetHeld : Bool
  mode : Mode
  owner : Option PortId
  resetCause : ResetCause
  storeFault : Bool
  /-- The decision of the start-up work (R196 step 4): on when STARTING ends in OPERATE. -/
  startOperate : Bool
  config : ConfigMem
  store : Memory
  saveMark : Bool
  storeOp : StoreOp
  engine : EngineState
  pointer : Claimant
  /-- The Work Queue, head first (R107). -/
  queue : List WorkSource
  table : Table
  ports : PerPort Port
  lines : Bank LineState 16
  /-- The Second Counter (R118). -/
  counter : Word
  /-- The window's latch of the Second Counter (R119). -/
  latch : Word
  display : Display
  /-- How often a free value was drawn: the model's own field (assumptions 5 and 6). -/
  freeCount : Nat
  deriving DecidableEq, Repr

/-- The spec gives the part no fault that stops it: nothing raises one. -/
inductive Fault
  deriving DecidableEq, Repr

/-- Reasons to give a command no meaning. -/
inductive Refusal where
  /-- Raised by a command whose meaning is not written yet; safe. No arm of `exec` raises it. -/
  | notModelled (mnemonic : String)
  deriving DecidableEq, Repr

/-! Reset values. -/

def PerPort.both {α : Type} (x : α) : PerPort α := ⟨x, x⟩

/-- Default definition of a user point (Table 1-2). -/
def PointDef.user : PointDef where
  source := .none
  cls := 0
  latch := false
  ringback := false
  sound := false
  pool := false
  group := 0
  shelvable := false
  enabled := true

/-- Default definition of a system point (R3). -/
def PointDef.systemDefault : PointDef where
  source := .system
  cls := 7
  latch := false
  ringback := false
  sound := true
  pool := true
  group := 0
  shelvable := false
  enabled := true

/-- Default definition of point number `i`. -/
def PointDef.default (i : Nat) : PointDef :=
  if i < 248 then PointDef.user else PointDef.systemDefault

/-- Default line configuration (Table 5-1). -/
def LineConfig.default : LineConfig where
  role := .off
  pull := .none
  senseMode := .levelHigh
  activeHigh := false
  onDelay := 0
  offDelay := 0
  pushPull := false
  driveHigh := false
  pulsed := false
  threshold := 0

/-- Default Slot Map entry (R129); the operand is assumption 11. -/
def SlotEntry.default : SlotEntry := ⟨.unused, 0⟩

/-- Default brightness configuration (R152). -/
def Brightness.default : Brightness where
  mode := .fixed
  fixed := 15
  minimum := 1
  maximum := 15
  sensePeriod := 2
  window := 32

/-- Default interrupt line configuration (R173): active low, open-drain. -/
def InterruptConfig.default : InterruptConfig := ⟨false, false⟩

/-- The defaults of Table 10-1. -/
def ConfigMem.default : ConfigMem where
  autoRun := false
  points := Bank.build 252 PointDef.default
  lines := Bank.fill 16 LineConfig.default
  slots := Bank.fill 64 SlotEntry.default
  brightness := Brightness.default
  period := .both 0
  interrupt := .both InterruptConfig.default

/-- Live fields after reset (Table 1-3). -/
def PointLive.reset : PointLive := ⟨false, false, 0, none, false⟩

/-- An ARMED group with live count 0 (R41). -/
def FirstOutGroup.reset : FirstOutGroup := ⟨none, true, 0⟩

/-- Every count 0 and every flag cleared (R57). -/
def Counts.reset : Counts where
  liveUser := 0
  liveSystem := 0
  waitingLength := 0
  new := 0
  acked := 0
  returned := 0
  ringback := 0
  held := 0
  shelved := 0
  alertSounding := 0
  returnSounding := 0
  presentByClass := Bank.fill 8 0
  poolEligible := 0
  poolHidden := 0
  hiddenUnacked := false
  sensorFault := false

/-- The engine's tables after power reset, pin reset and RESTART (R9, R13, R40, R45, R50, R128, R136). -/
def Table.reset : Table where
  points := Bank.fill 252 PointLive.reset
  entries := Bank.fill 96 none
  rank := []
  waiting := []
  shelf := []
  groups := Bank.fill 7 FirstOutGroup.reset
  slots := Bank.fill 64 none
  counts := Counts.reset

/-- A port after power or pin reset (R178). -/
def Port.reset : Port where
  mailbox := .empty
  buffer := Bank.fill 24 0
  respReady := false
  refused := false
  status := 0
  enable := 0
  watch := none
  timer := none
  lapse := false
  frame := none
  out := []

/-- A line whose first sample is `level` (R99, R115). -/
def LineState.reset (level : Bool) : LineState := ⟨level, level, none, false, false⟩

/-- The Display Unit after power or pin reset (R159). -/
def Display.reset : Display where
  phase := 0
  row := 0
  lampTimer := none
  stepLow := false
  sensed := 15
  latest := .none
  failed := 0
  sensorFault := false
  reading := none
  level := 0
  frame := Bank.fill 64 none

/-- The machine right after a power reset of a part as delivered (R191: BLANK store, cleared save mark): STARTING,
with the start-up work done (R196). Raw levels are assumption 10. -/
def State.reset : State where
  pending := []
  resetHeld := false
  mode := .starting
  owner := none
  resetCause := ⟨true, false, false⟩
  storeFault := false
  startOperate := false
  config := ConfigMem.default
  store := []
  saveMark := false
  storeOp := .idle
  engine := .free
  pointer := .mailbox .a
  queue := []
  table := Table.reset
  ports := .both Port.reset
  lines := Bank.fill 16 (LineState.reset false)
  counter := 0
  latch := 0
  display := Display.reset
  freeCount := 0

end Sys2Proof.Machine
end

