-- ==== Sys2Proof/Machine/Ops.lean ====
section
/-! DEFINITION. Named operations over ports, the Definition Store, the Work Queue and the tables; the meanings are
written over these. -/

namespace Sys2Proof.Machine

/-! Ports. -/

def other : PortId → PortId
  | .a => .b
  | .b => .a

def PerPort.get {α : Type} (x : PerPort α) : PortId → α
  | .a => x.a
  | .b => x.b

def PerPort.set {α : Type} (x : PerPort α) (p : PortId) (v : α) : PerPort α :=
  match p with
  | .a => { x with a := v }
  | .b => { x with b := v }

def PerPort.map {α β : Type} (f : α → β) (x : PerPort α) : PerPort β := ⟨f x.a, f x.b⟩

def State.port (s : State) (p : PortId) : Port := s.ports.get p

def State.setPort (s : State) (p : PortId) (x : Port) : State :=
  { s with ports := s.ports.set p x }

/-- Port `p` changed by `f`. -/
def State.onPort (s : State) (p : PortId) (f : Port → Port) : State :=
  s.setPort p (f (s.port p))

/-- Both ports changed by `f`. -/
def State.onPorts (s : State) (f : Port → Port) : State :=
  { s with ports := s.ports.map f }

/-- Bytes shifted out at port `p` (R160). -/
def State.shiftOut (s : State) (p : PortId) (bs : List Byte) : State :=
  s.onPort p fun x => { x with out := x.out ++ bs }

/-! Points. -/

/-- Points 248 to 251 (R1). -/
def isSystem (p : Point) : Bool := 248 ≤ p.val

def tableFullPoint : Point := 248

/-- The system point of a port's lapse (R19). -/
def lapsePoint : PortId → Point
  | .a => 249
  | .b => 250

def storeFaultPoint : Point := 251

/-- The point a byte names; 252 to 255 name none (R1). -/
def pointOfByte (b : Byte) : Option Point :=
  if h : b.toNat < 252 then some ⟨b.toNat, h⟩ else none

def byteOfPoint (p : Point) : Byte := BitVec.ofNat 8 p.val

def ConfigMem.point (c : ConfigMem) (p : Point) : PointDef := c.points.get p

/-- A point a request may name (R70): a system point, or a user point whose source is LINE or PORT. -/
def ConfigMem.defined (c : ConfigMem) (p : Point) : Bool :=
  isSystem p || decide ((c.point p).source ≠ .none)

/-- The group of the First-Out Table that a definition names (R41). -/
def PointDef.firstOutGroup (d : PointDef) : Option (Fin 7) :=
  if h : d.group.val = 0 then none else some ⟨d.group.val - 1, by omega⟩

/-- The point bound to line `n` (R4). -/
def ConfigMem.pointOfLine (c : ConfigMem) (n : Fin 16) : Option Point :=
  c.points.find? fun d => d.source == .line n

/-! The Definition Store (R191). -/

/-- What an erased byte reads (R191): the value of every address that the memory does not list. -/
def erasedByte : Byte := 0xFF

def storeSize : Nat := 2048

/-- Canonical form of the cells from address `low` on: addresses strictly rising and below 2048, none erased. -/
def Memory.wfFrom (low : Nat) : Memory → Bool
  | [] => true
  | (a, b) :: rest => decide (low ≤ a) && decide (a < storeSize) && decide (b ≠ erasedByte) && wfFrom (a + 1) rest

/-- The memory is in canonical form. -/
def Memory.wf (m : Memory) : Bool := Memory.wfFrom 0 m

def Memory.read (m : Memory) (a : Nat) : Byte :=
  match m with
  | [] => erasedByte
  | (k, b) :: rest => if k = a then b else Memory.read rest a

/-- Every page erased. -/
def Memory.erased : Memory := []

/-- The bytes `bs` at addresses `low`, `low + 1`, and so on, and erased bytes elsewhere. -/
def Memory.ofBytes (low : Nat) : List Byte → Memory
  | [] => []
  | b :: bs => if b = erasedByte then ofBytes (low + 1) bs else (low, b) :: ofBytes (low + 1) bs

/-- The memory with byte `b` at address `a`, for an address of the store. -/
def Memory.put (a : Nat) (b : Byte) : Memory → Memory
  | [] => if b = erasedByte then [] else [(a, b)]
  | (k, c) :: rest =>
    if a < k then (if b = erasedByte then (k, c) :: rest else (a, b) :: (k, c) :: rest)
    else if a = k then (if b = erasedByte then rest else (a, b) :: rest)
    else (k, c) :: put a b rest

/-- The memory with the cells `ds` holding what they list; an address outside the store is no cell of it. -/
def Memory.putAll (m : Memory) (ds : List (Nat × Byte)) : Memory :=
  ds.foldl (fun m d => if d.1 < storeSize then m.put d.1 d.2 else m) m

/-- The `n` bytes from address `low` on of a memory in canonical form that lists nothing below `low`. -/
def Memory.dump (low : Nat) : Nat → Memory → List Byte
  | 0, _ => []
  | n + 1, [] => erasedByte :: dump (low + 1) n []
  | n + 1, (a, b) :: rest =>
    if a = low then b :: dump (low + 1) n rest else erasedByte :: dump (low + 1) n ((a, b) :: rest)

/-- What the store holds after a reset has ended an erasing or a programming: free bytes (R195, assumption 5). -/
def Memory.interrupted (k : Nat) : Memory :=
  Memory.ofBytes 0 ((List.range storeSize).map (Config.interruptedByte k))

/-! The Work Queue (R107). -/

/-- A source posts its item: at the tail, unless the item waits already. -/
def post (q : List WorkSource) (x : WorkSource) : List WorkSource :=
  if q.contains x then q else q ++ [x]

def State.post (s : State) (x : WorkSource) : State :=
  { s with queue := Machine.post s.queue x }

def WorkSource.isLine : WorkSource → Bool
  | .line _ => true
  | _ => false

/-- The Work Queue without the items of the sixteen line sources (R108, R189). -/
def State.dropLineItems (s : State) : State :=
  { s with queue := s.queue.filter fun x => !x.isLine }

/-! Time (R118, R120). -/

/-- Deadline `d` is reached at counter value `c` (R120). -/
def reached (c d : Word) : Bool := (c - d).toNat < 2 ^ 31

/-- Deadline `d1` is equal to or earlier than `d2` (R120). -/
def notLater (d1 d2 : Word) : Bool := (d2 - d1).toNat < 2 ^ 31

/-! Lists. -/

/-- `x` inserted directly after the last element that satisfies `q`, at the head if there is none (R46, R122). -/
def insertAfterLast {α : Type} (q : α → Bool) (x : α) : List α → List α
  | [] => [x]
  | y :: ys => if (y :: ys).any q then y :: insertAfterLast q x ys else x :: y :: ys

/-! Tables of the engine. -/

def Table.live (t : Table) (p : Point) : PointLive := t.points.get p

def Table.setLive (t : Table) (p : Point) (l : PointLive) : Table :=
  { t with points := t.points.set p l }

/-- The live record of point `p`, through its record link (R9). -/
def Table.recordOf (t : Table) (p : Point) : Option Record :=
  match (t.live p).link with
  | none => none
  | some i => t.entries.get i

/-- The live record of point `p` replaced by `r`. -/
def Table.setRecord (t : Table) (p : Point) (r : Record) : Table :=
  match (t.live p).link with
  | none => t
  | some i => { t with entries := t.entries.set i (some r) }

/-- The free entry with the lowest index (R13). -/
def Table.freeEntry (t : Table) : Option (Fin 96) := t.entries.find? (·.isNone)

/-- Live records of user points (R49), counted as the table stands. -/
def Table.liveUsers (t : Table) : Nat := (t.rank.filter fun p => !isSystem p).length

/-- Room for a record of a user point (R49). -/
def Table.hasRoom (t : Table) : Bool := t.liveUsers < 92

/-- Nothing live and nothing waiting (R93). -/
def Table.isEmpty (t : Table) : Bool := t.rank.isEmpty && t.waiting.isEmpty

/-- The live records in rank order. -/
def Table.records (t : Table) : List Record := t.rank.filterMap t.recordOf

/-- The points that the Slot Contents show (R137). -/
def Table.shows (t : Table) (p : Point) : Bool :=
  t.slots.items.any fun e => match e with
    | none => false
    | some x => x.point == p

/-- A store operation runs (R192). -/
def State.storeBusy (s : State) : Bool := decide (s.storeOp ≠ .idle)

/-- Outcome of a command that the part takes unless its reset input is held: while it is held every piece of state
stays at its reset value (R183, assumption 28). -/
def unlessHeld (s : State) (t : State) : Host.Outcome State Fault Refusal :=
  .next (if s.resetHeld then s else t)

end Sys2Proof.Machine
end

