-- ==== Sys2Proof/Machine/Flags.lean ====
section
/-! DEFINITION. Events, the status byte, the interrupt lines and the Reset Cause. -/

namespace Sys2Proof.Machine

/-- The ten events (Table 9-8). -/
inductive Event where
  | requestDone | watchFired | frameError | writeRefused | recordAlert | recordChange | tableFull | storeDone
  | modeChange | peerLapse
  deriving DecidableEq, Repr

/-- The event's bit in status and enable (R179): 0 to 7 at 0x0010, 8 and 9 at 0x0011. -/
def Event.bit : Event → Nat
  | .requestDone => 0
  | .watchFired => 1
  | .frameError => 2
  | .writeRefused => 3
  | .recordAlert => 4
  | .recordChange => 5
  | .tableFull => 6
  | .storeDone => 7
  | .modeChange => 8
  | .peerLapse => 9

def Event.mask (e : Event) : BitVec 10 := BitVec.twoPow 10 e.bit

/-- Posting sets the status bit; a bit already set stays set (R172). -/
def Port.post (x : Port) (e : Event) : Port := { x with status := x.status ||| e.mask }

def State.postTo (s : State) (p : PortId) (e : Event) : State := s.onPort p (·.post e)

/-- Posted to both ports when `c` holds. -/
def State.postBothIf (s : State) (c : Bool) (e : Event) : State :=
  if c then s.onPorts (·.post e) else s

/-- EVENT (R162): an enabled event is pending. -/
def Port.event (x : Port) : Bool := decide (x.status &&& x.enable ≠ 0)

/-- REQ_PENDING (R162): the mailbox is WAITING, TAKEN or STORE WAIT. -/
def Port.reqPending (x : Port) : Bool :=
  match x.mailbox with
  | .empty => false
  | .waiting _ => true
  | .taken _ => true
  | .storeWait => true
  | .held => false

def Mode.code : Mode → Nat
  | .starting => 0
  | .configure => 1
  | .operate => 2

def bitAt (b : Bool) (i : Nat) : Nat := if b then 2 ^ i else 0

/-- The status byte with `refused` in its REFUSED position (Table 9-1). -/
def State.statusWith (s : State) (p : PortId) (refused : Bool) : Byte :=
  let x := s.port p
  BitVec.ofNat 8 (bitAt x.reqPending 7 + bitAt x.respReady 6 + bitAt x.event 5 + bitAt refused 4
    + 4 * s.mode.code + bitAt (decide (s.owner = some p)) 1 + bitAt x.lapse 0)

/-- The status byte (R162). -/
def State.status (s : State) (p : PortId) : Byte := s.statusWith p (s.port p).refused

/-- What the part does to a pin. -/
inductive PinDrive where
  | high | low | released
  deriving DecidableEq, Repr

/-- Steps 2 and 3 of R113, and the two steps of R173: polarity, then drive type. -/
def drivePin (on activeHigh pushPull : Bool) : PinDrive :=
  if on == activeHigh then (if pushPull then .high else .released) else .low

/-- The pin of port `p`'s interrupt line (R173): released in STARTING. -/
def State.interruptPin (s : State) (p : PortId) : PinDrive :=
  let c := s.config.interrupt.get p
  if s.mode = .starting then .released else drivePin (s.port p).event c.activeHigh c.pushPull

/-- A pair to the event status clears each bit written with 1 (R168); `high` selects 0x0011. -/
def Port.clearStatus (x : Port) (high : Bool) (mask data : Byte) : Port :=
  let ones := (mask &&& data).setWidth 10
  { x with status := x.status &&& ~~~(if high then ones <<< 8 else ones) }

/-- The bits of `old` whose mask bit is 1 take the data (R166). -/
def merge (old mask data : Byte) : Byte := (old &&& ~~~mask) ||| (data &&& mask)

def Port.statusByte (x : Port) (high : Bool) : Byte :=
  (if high then x.status >>> 8 else x.status).setWidth 8

def Port.enableByte (x : Port) (high : Bool) : Byte :=
  (if high then x.enable >>> 8 else x.enable).setWidth 8

/-- A pair to the event enable (R172). The bits of 0x0011 that no event has stay 0 (assumption 12). -/
def Port.writeEnable (x : Port) (high : Bool) (mask data : Byte) : Port :=
  let b := merge (x.enableByte high) mask data
  { x with enable :=
      if high then (x.enable &&& 0x0FF) ||| (b.setWidth 10 <<< 8) else (x.enable &&& 0x300) ||| b.setWidth 10 }

/-- A pair to the Reset Cause clears each flag written with 1 (R168, R181). -/
def ResetCause.clear (c : ResetCause) (ones : Byte) : ResetCause :=
  ⟨c.power && !ones.getLsbD 0, c.pin && !ones.getLsbD 1, c.restart && !ones.getLsbD 2⟩

def ResetCause.byte (c : ResetCause) : Byte :=
  BitVec.ofNat 8 (bitAt c.power 0 + bitAt c.pin 1 + bitAt c.restart 2)

end Sys2Proof.Machine
end

