-- ==== Sys2Proof/Machine/Codings.lean ====
section
/-! DEFINITION. The codings of configuration memory in the window and in the store image (R179, after Table 9-6).
For each item `byte c i` is its byte `i` as read and `setByte c i b` the item after its byte `i` takes the value `b`:
a field whose value in `b` is not one it can take keeps its value (R167). -/

namespace Sys2Proof.Machine

/-- The `width` bits of `b` from bit `low` on, as a number. -/
def field (b : Byte) (low width : Nat) : Nat := b.toNat / 2 ^ low % 2 ^ width

/-! Point definitions: source; class and group; flags (byte 3 is unused). -/

def PointSource.code : PointSource → Nat
  | .none => 0
  | .line n => 0x10 + n.val
  | .port => 0x20
  | .system => 0x30

/-- The source that a user point's source byte names; SYSTEM and every other value name none that it can take (R4). -/
def PointSource.ofCode (n : Nat) : Option PointSource :=
  if n = 0 then some .none
  else if h : 0x10 ≤ n ∧ n < 0x20 then some (.line ⟨n - 0x10, by omega⟩)
  else if n = 0x20 then some .port
  else none

def PointDef.byte (d : PointDef) (i : Nat) : Byte :=
  match i with
  | 0 => BitVec.ofNat 8 d.source.code
  | 1 => BitVec.ofNat 8 (d.cls.val + 16 * d.group.val)
  | 2 => BitVec.ofNat 8 (bitAt d.latch 0 + bitAt d.ringback 1 + bitAt d.sound 2 + bitAt d.pool 3
          + bitAt d.shelvable 4 + bitAt d.enabled 5)
  | _ => 0

/-- `system`: the fixed fields of a system point keep their values (R3). -/
def PointDef.setByte (system : Bool) (d : PointDef) (i : Nat) (b : Byte) : PointDef :=
  match i with
  | 0 => if system then d else { d with source := (PointSource.ofCode b.toNat).getD d.source }
  | 1 => { d with cls := Fin.ofNat 8 (field b 0 3), group := Fin.ofNat 8 (field b 4 3) }
  | 2 =>
    if system then { d with sound := b.getLsbD 2, pool := b.getLsbD 3 }
    else { d with
      latch := b.getLsbD 0
      ringback := b.getLsbD 1
      sound := b.getLsbD 2
      pool := b.getLsbD 3
      shelvable := b.getLsbD 4
      enabled := b.getLsbD 5 }
  | _ => d

/-! Line configurations: role; pull, sense mode and active level; delays; drive settings; threshold. -/

def LineRole.code : LineRole → Nat
  | .off => 0
  | .sense => 1
  | .buttonAck => 2
  | .buttonSilence => 3
  | .buttonReset => 4
  | .buttonTest => 5
  | .buttonBright => 6
  | .driveAlert => 7
  | .driveReturn => 8
  | .driveRelay => 9
  | .driveFault => 10
  | .driveHealth => 11

def LineRole.ofCode : Nat → Option LineRole
  | 0 => some .off
  | 1 => some .sense
  | 2 => some .buttonAck
  | 3 => some .buttonSilence
  | 4 => some .buttonReset
  | 5 => some .buttonTest
  | 6 => some .buttonBright
  | 7 => some .driveAlert
  | 8 => some .driveReturn
  | 9 => some .driveRelay
  | 10 => some .driveFault
  | 11 => some .driveHealth
  | _ => none

def Pull.code : Pull → Nat
  | .none => 0
  | .up => 1
  | .down => 2

def Pull.ofCode : Nat → Option Pull
  | 0 => some .none
  | 1 => some .up
  | 2 => some .down
  | _ => none

def SenseMode.code : SenseMode → Nat
  | .levelHigh => 0
  | .levelLow => 1
  | .rise => 2
  | .fall => 3
  | .both => 4

def SenseMode.ofCode : Nat → Option SenseMode
  | 0 => some .levelHigh
  | 1 => some .levelLow
  | 2 => some .rise
  | 3 => some .fall
  | 4 => some .both
  | _ => none

def LineConfig.byte (c : LineConfig) (i : Nat) : Byte :=
  match i with
  | 0 => BitVec.ofNat 8 c.role.code
  | 1 => BitVec.ofNat 8 (c.pull.code + 4 * c.senseMode.code + bitAt c.activeHigh 7)
  | 2 => c.onDelay
  | 3 => c.offDelay
  | 4 => BitVec.ofNat 8 (bitAt c.pushPull 0 + bitAt c.driveHigh 1 + bitAt c.pulsed 2)
  | 5 => BitVec.ofNat 8 c.threshold.val
  | _ => 0

/-- A number as a class 0 to 7, if it is one. -/
def finOf (n : Nat) (x : Nat) : Option (Fin n) := if h : x < n then some ⟨x, h⟩ else none

def LineConfig.setByte (c : LineConfig) (i : Nat) (b : Byte) : LineConfig :=
  match i with
  | 0 => { c with role := (LineRole.ofCode b.toNat).getD c.role }
  | 1 => { c with
      pull := (Pull.ofCode (field b 0 2)).getD c.pull
      senseMode := (SenseMode.ofCode (field b 2 3)).getD c.senseMode
      activeHigh := b.getLsbD 7 }
  | 2 => { c with onDelay := b }
  | 3 => { c with offDelay := b }
  | 4 => { c with pushPull := b.getLsbD 0, driveHigh := b.getLsbD 1, pulsed := b.getLsbD 2 }
  | 5 => { c with threshold := (finOf 8 b.toNat).getD c.threshold }
  | _ => c

/-! Slot Map entries: role; operand. -/

def SlotRole.code : SlotRole → Nat
  | .unused => 0
  | .dedicated => 1
  | .pool => 2
  | .overflow => 3
  | .health => 4
  | .sensor => 5

def SlotRole.ofCode : Nat → Option SlotRole
  | 0 => some .unused
  | 1 => some .dedicated
  | 2 => some .pool
  | 3 => some .overflow
  | 4 => some .health
  | 5 => some .sensor
  | _ => none

def SlotEntry.byte (e : SlotEntry) (i : Nat) : Byte :=
  match i with
  | 0 => BitVec.ofNat 8 e.role.code
  | _ => e.operand

def SlotEntry.setByte (e : SlotEntry) (i : Nat) (b : Byte) : SlotEntry :=
  match i with
  | 0 => { e with role := (SlotRole.ofCode b.toNat).getD e.role }
  | _ => { e with operand := b }

/-! Brightness: mode, fixed level, minimum, maximum, sense period, W. -/

def BrightMode.code : BrightMode → Nat
  | .fixed => 0
  | .ambient => 1
  | .step => 2

def BrightMode.ofCode : Nat → Option BrightMode
  | 0 => some .fixed
  | 1 => some .ambient
  | 2 => some .step
  | _ => none

def Brightness.byte (c : Brightness) (i : Nat) : Byte :=
  match i with
  | 0 => BitVec.ofNat 8 c.mode.code
  | 1 => BitVec.ofNat 8 c.fixed.val
  | 2 => BitVec.ofNat 8 c.minimum.val
  | 3 => BitVec.ofNat 8 c.maximum.val
  | 4 => BitVec.ofNat 8 c.sensePeriod.val
  | 5 => BitVec.ofNat 8 c.window.val
  | _ => 0

/-- W takes 1 to 63 (R152). -/
def windowOf (n : Nat) : Option (Fin 64) := if n = 0 then none else finOf 64 n

def Brightness.setByte (c : Brightness) (i : Nat) (b : Byte) : Brightness :=
  match i with
  | 0 => { c with mode := (BrightMode.ofCode b.toNat).getD c.mode }
  | 1 => { c with fixed := (finOf 16 b.toNat).getD c.fixed }
  | 2 => { c with minimum := (finOf 16 b.toNat).getD c.minimum }
  | 3 => { c with maximum := (finOf 16 b.toNat).getD c.maximum }
  | 4 => { c with sensePeriod := (finOf 4 b.toNat).getD c.sensePeriod }
  | 5 => { c with window := (windowOf b.toNat).getD c.window }
  | _ => c

/-! Port configuration. -/

def periodByte (x : Fin 8) : Byte := BitVec.ofNat 8 x.val

def setPeriodByte (x : Fin 8) (b : Byte) : Fin 8 := (finOf 8 b.toNat).getD x

def InterruptConfig.byte (c : InterruptConfig) : Byte :=
  BitVec.ofNat 8 (bitAt c.activeHigh 0 + bitAt c.pushPull 1)

def InterruptConfig.ofByte (b : Byte) : InterruptConfig := ⟨b.getLsbD 0, b.getLsbD 1⟩

end Sys2Proof.Machine
end

