-- ==== Sys2Proof/Machine/Operands.lean ====
section
/-! DEFINITION. The operands of requests, the result codes and the response with its record report (R179, Tables 9-2
to 9-4). -/

namespace Sys2Proof.Machine

/-! Operands of a request, in the order of Table 9-2. -/

/-- Operand byte `i`; a byte that a request does not carry is not used past the form check. -/
def Request.byte (r : Request) (i : Nat) : Byte := r.operands.getD i 0

/-- The two-byte operand from byte `i` on, least significant byte first (R179). -/
def Request.half (r : Request) (i : Nat) : Half := r.byte (i + 1) ++ r.byte i

/-- The expected revision: bytes `i` and `i + 1`, carried when the length is `i + 2` (Table 9-2). -/
def Request.expected (r : Request) (i : Nat) : Option Half :=
  if r.len.toNat = i + 2 then some (r.half i) else none

/-- The request's length is one of `lens` (R71). -/
def Request.lengthIn (r : Request) (lens : List Nat) : Bool := lens.contains r.len.toNat

/-- Codes of the twenty-five requests (Table 9-2). -/
def requestCodes : List Byte :=
  [0x10, 0x11, 0x12, 0x20, 0x21, 0x22, 0x23, 0x28, 0x29, 0x2A, 0x30, 0x31, 0x34, 0x35, 0x38, 0x40, 0x41, 0x42,
    0x48, 0x50, 0x51, 0x52, 0x58, 0x59, 0x5F]

/-! Results. -/

/-- The sixteen result codes (R71); `endOfList` is END. -/
inductive Result where
  | ok | endOfList | badRequest | badPoint | noRecord | stale | wrongState | sourceMismatch | conditionPresent
  | notPermitted | wrongMode | notOwner | storeBusy | invalidConfig | storeFault | tableNotEmpty
  deriving DecidableEq, Repr

/-- Table 9-3; 0 is left for the emptied buffer. -/
def Result.code : Result → Nat
  | .ok => 1
  | .endOfList => 2
  | .badRequest => 3
  | .badPoint => 4
  | .noRecord => 5
  | .stale => 6
  | .wrongState => 7
  | .sourceMismatch => 8
  | .conditionPresent => 9
  | .notPermitted => 10
  | .wrongMode => 11
  | .notOwner => 12
  | .storeBusy => 13
  | .invalidConfig => 14
  | .storeFault => 15
  | .tableNotEmpty => 16

/-- What a request answers (R72): the report is that of the point named, if any. -/
structure Answer where
  result : Result
  detail : Byte
  report : Option Point
  deriving DecidableEq, Repr

/-- A refusal, and an OK without detail or report (R72). -/
def Answer.plain (r : Result) : Answer := ⟨r, 0, none⟩

def Answer.detailed (n : Nat) : Answer := ⟨.ok, BitVec.ofNat 8 n, none⟩

/-! Codings of reports (Table 9-3). -/

def RecState.code : RecState → Nat
  | .new => 0
  | .acked => 1
  | .returned => 2
  | .ringback => 3
  | .held => 4

def portCode : PortId → Nat
  | .a => 1
  | .b => 2

def AckSource.code : AckSource → Nat
  | .port p => portCode p
  | .panel => 3

/-- A value of two bytes, least significant first (R179). -/
def halfBytes (x : Half) : List Byte := [x.setWidth 8, (x >>> 8).setWidth 8]

/-- A value of four bytes, least significant first (R179). -/
def wordBytes (x : Word) : List Byte :=
  [x.setWidth 8, (x >>> 8).setWidth 8, (x >>> 16).setWidth 8, (x >>> 24).setWidth 8]

/-- Where the Slot Contents show point `p` (R137). -/
def Table.slotOf (t : Table) (p : Point) : Option (Fin 64) :=
  t.slots.find? fun e => match e with
    | none => false
    | some x => x.point == p

/-- Rank position: the index in the Rank List from 0 at the head (R48). -/
def Table.rankOf (t : Table) (p : Point) : Nat := t.rank.idxOf p

/-- Remaining seconds of a shelving (R126): 0 once the deadline is reached. -/
def remaining (now deadline : Word) : Half :=
  if reached now deadline then 0 else (deadline - now).setWidth 16

/-- The optional parts of a report, in their order (Table 9-4). -/
def shelfBytes (now : Word) : Option ShelfPart → List Byte
  | none => []
  | some x => halfBytes (remaining now x.deadline) ++ [BitVec.ofNat 8 (portCode x.source)]

def slotBytes : Option (Fin 64) → List Byte
  | none => []
  | some i => [BitVec.ofNat 8 i.val]

def ackedBytes : Option AckSource → List Byte
  | none => []
  | some x => [BitVec.ofNat 8 x.code]

/-- The record report of record `r` of point `p` (Table 9-4). -/
def reportOf (cfg : ConfigMem) (t : Table) (now : Word) (p : Point) (r : Record) : List Byte :=
  let slot := t.slotOf p
  [byteOfPoint r.point, BitVec.ofNat 8 r.state.code, BitVec.ofNat 8 (cfg.point p).cls.val,
    BitVec.ofNat 8 (bitAt (t.live p).condition 0 + bitAt r.sounding 1 + bitAt r.shelf.isSome 2 + bitAt r.firstOut 3
      + bitAt r.saturated 4 + bitAt slot.isSome 5 + bitAt r.ackedBy.isSome 6),
    r.count]
    ++ halfBytes (t.live p).revision ++ [BitVec.ofNat 8 (t.rankOf p)]
    ++ wordBytes (now - r.createdAt) ++ wordBytes (now - r.changedAt)
    ++ shelfBytes now r.shelf ++ slotBytes slot ++ ackedBytes r.ackedBy

/-- The report an answer carries: empty when no point is named or it has no live record (R72). -/
def reportBytes (cfg : ConfigMem) (t : Table) (now : Word) (p : Option Point) : List Byte :=
  match p with
  | none => []
  | some p =>
    match t.recordOf p with
    | none => []
    | some r => reportOf cfg t now p r

/-- The response: result code, detail byte, report length, report (R72, Table 9-4). -/
def responseBytes (cfg : ConfigMem) (t : Table) (now : Word) (a : Answer) : List Byte :=
  let report := reportBytes cfg t now a.report
  [BitVec.ofNat 8 a.result.code, a.detail, BitVec.ofNat 8 report.length] ++ report

/-- A response laid into the 24 bytes of the buffer; bytes beyond it read 0 (R170). -/
def bufferOf (bs : List Byte) : Bank Byte 24 := Bank.build 24 fun i => bs.getD i 0

end Sys2Proof.Machine
end

