-- ==== Sys2Proof/Machine/Lifecycle.lean ====
section
/-! DEFINITION. The lifecycle events of chapters 2, 3 and 6, each applied whole to the tables of the engine (R21). -/

namespace Sys2Proof.Machine

/-- A service of the engine under way: the tables, and what it hands to its completion (R21, R67). -/
structure Svc where
  tab : Table
  /-- The points whose revision the service increases, each once (R12). -/
  touched : List Point
  /-- Some record entered NEW. -/
  alert : Bool
  /-- Some record or the membership of the Waiting Queue changed. -/
  change : Bool
  /-- Point 248 was asserted because the Waiting Queue became non-empty. -/
  tableFull : Bool
  /-- The mode changed. -/
  modeChange : Bool
  deriving DecidableEq, Repr

/-- What a service reads: configuration memory, and the Second Counter as read once at the grant (R118). -/
structure Ctx where
  cfg : ConfigMem
  now : Word

def Svc.start (t : Table) : Svc := ⟨t, [], false, false, false, false⟩

def Svc.touch (w : Svc) (p : Point) : Svc :=
  if w.touched.contains p then w else { w with touched := p :: w.touched }

/-- A change of a record or of the Waiting Queue at point `p` (R11, R67). -/
def Svc.changed (w : Svc) (p : Point) : Svc := { w.touch p with change := true }

def Svc.onTable (w : Svc) (f : Table → Table) : Svc := { w with tab := f w.tab }

def Svc.alertIf (w : Svc) (c : Bool) : Svc := { w with alert := w.alert || c }

/-! Live fields. -/

/-- The point's condition becomes `v` (R6); the revision moves when it changes (R11). -/
def Svc.setCondition (w : Svc) (p : Point) (v : Bool) : Svc :=
  if (w.tab.live p).condition = v then w
  else (w.onTable fun t => t.setLive p { t.live p with condition := v }).touch p

def Svc.setInhibited (w : Svc) (p : Point) (v : Bool) : Svc :=
  if (w.tab.live p).inhibited = v then w
  else (w.onTable fun t => t.setLive p { t.live p with inhibited := v }).touch p

/-- The live record of point `p` becomes `r`; the revision moves when a field changes (R11). -/
def Svc.changeRecord (w : Svc) (p : Point) (r : Record) : Svc :=
  if w.tab.recordOf p = some r then w else (w.onTable fun t => t.setRecord p r).changed p

/-! First-out (R42, R43, R44). -/

def Table.setGroup (t : Table) (g : Fin 7) (x : FirstOutGroup) : Table :=
  { t with groups := t.groups.set g x }

/-- The group after a record of point `p` is created in it (R42). -/
def FirstOutGroup.afterCreate (x : FirstOutGroup) (p : Point) : FirstOutGroup :=
  if x.armed then ⟨some p, false, x.live + 1⟩ else { x with live := x.live + 1 }

/-- The group after the record of point `p` retires from it (R43). -/
def FirstOutGroup.afterRetire (x : FirstOutGroup) (p : Point) : FirstOutGroup :=
  { mark := if x.mark = some p then none else x.mark
    armed := x.armed || decide (x.live - 1 = 0)
    live := x.live - 1 }

/-- The group of point `p` changed by `f`; group 0 is no group (R41). -/
def Table.onGroup (t : Table) (cfg : ConfigMem) (p : Point) (f : FirstOutGroup → FirstOutGroup) : Table :=
  match (cfg.point p).firstOutGroup with
  | none => t
  | some g => t.setGroup g (f (t.groups.get g))

/-- A record created now for `p` would take its group's mark (R42). -/
def Table.takesMark (t : Table) (cfg : ConfigMem) (p : Point) : Bool :=
  match (cfg.point p).firstOutGroup with
  | none => false
  | some g => (t.groups.get g).armed

/-! Creation (R25). -/

/-- The creation values of Table 1-4. -/
def newRecord (c : Ctx) (p : Point) (st : RecState) (firstOut : Bool) : Record where
  point := p
  state := st
  count := 1
  saturated := false
  sounding := (c.cfg.point p).sound
  firstOut := firstOut
  shelf := none
  ackedBy := none
  createdAt := c.now
  changedAt := c.now

/-- The Rank List with `p` inserted directly after the last record whose class is equal or higher (R46). -/
def rankInsert (cfg : ConfigMem) (p : Point) (rank : List Point) : List Point :=
  insertAfterLast (fun q => decide ((cfg.point p).cls ≤ (cfg.point q).cls)) p rank

/-- The four steps of R25 in entry `i`. -/
def Table.create (t : Table) (c : Ctx) (p : Point) (st : RecState) (i : Fin 96) : Table :=
  let r := newRecord c p st (t.takesMark c.cfg p)
  let t := { t with entries := t.entries.set i (some r) }
  let t := t.setLive p { t.live p with link := some i }
  let t := { t with rank := rankInsert c.cfg p t.rank }
  t.onGroup c.cfg p (·.afterCreate p)

/-- Creation of a record (R25). A free entry exists whenever creation is allowed (R13, R49); in a state without one,
which no run reaches, nothing is created (assumption 25). -/
def Svc.create (w : Svc) (c : Ctx) (p : Point) (st : RecState) : Svc :=
  match w.tab.freeEntry with
  | none => w
  | some i => ((w.onTable fun t => t.create c p st i).changed p).alertIf (st == .new)

/-! Retirement, steps 1 to 4 (R39). -/

def Table.retire (t : Table) (cfg : ConfigMem) (p : Point) (i : Fin 96) : Table :=
  let t := { t with rank := t.rank.erase p }
  let t := { t with shelf := t.shelf.filter fun e => decide (e.point ≠ p) }
  let t := t.onGroup cfg p (·.afterRetire p)
  let t := { t with entries := t.entries.set i none }
  t.setLive p { t.live p with link := none }

/-- Retirement without the admission of step 5. -/
def Svc.retireOnly (w : Svc) (c : Ctx) (p : Point) : Svc :=
  match (w.tab.live p).link with
  | none => w
  | some i => (w.onTable fun t => t.retire c.cfg p i).changed p

/-- The live record of `p` becomes what an event leaves of it, or retires when it leaves none. -/
def Svc.replaceOr (w : Svc) (retire : Point → Svc → Svc) (p : Point) : Option Record → Svc
  | none => retire p w
  | some r => w.changeRecord p r

/-! What an event leaves of a record (Table 2-2). -/

/-- Sounding after a cause that sets it when sound is on and the record is not shelved (R38). -/
def Record.soundIf (r : Record) (d : PointDef) : Record :=
  if d.sound && r.shelf.isNone then { r with sounding := true } else r

/-- Re-alert to NEW (R26, R37). -/
def Record.realert (r : Record) (d : PointDef) (now : Word) : Record :=
  { r with
    state := .new
    count := if r.count = 255 then 255 else r.count + 1
    saturated := r.saturated || decide (r.count = 255)
    ackedBy := none
    changedAt := now : Record }.soundIf d

/-- Return (R27): none is retirement. -/
def Record.afterReturn (r : Record) (d : PointDef) (now : Word) : Option Record :=
  match r.state with
  | .new => some { r with state := .returned, changedAt := now }
  | .acked =>
    if d.latch then some { r with state := .held, changedAt := now }
    else if d.ringback then some ({ r with state := .ringback, changedAt := now : Record }.soundIf d)
    else none
  | .returned => some r
  | .ringback => some r
  | .held => some r

/-- An ack that changes the record (R29): none is retirement. -/
def Record.afterAck (r : Record) (d : PointDef) (now : Word) (src : AckSource) : Option Record :=
  match r.state with
  | .new => some { r with state := .acked, sounding := false, ackedBy := some src, changedAt := now }
  | .returned =>
    if d.latch then some { r with state := .held, sounding := false, ackedBy := some src, changedAt := now }
    else none
  | .ringback => none
  | .acked => some r
  | .held => some r

/-- States that an acknowledgement would change (R22). -/
def RecState.unacked : RecState → Bool
  | .new => true
  | .returned => true
  | .ringback => true
  | .acked => false
  | .held => false

/-! System points: no waiting, no admission (R49, R53). -/

/-- An assert that finds the live record `r`, the condition just become present (R26). -/
def Svc.assertRecord (w : Svc) (c : Ctx) (p : Point) (r : Record) : Svc :=
  match r.state with
  | .new => w
  | .acked => w
  | .returned => (w.changeRecord p (r.realert (c.cfg.point p) c.now)).alertIf true
  | .ringback => (w.changeRecord p (r.realert (c.cfg.point p) c.now)).alertIf true
  | .held => (w.changeRecord p (r.realert (c.cfg.point p) c.now)).alertIf true

/-- An assert of a system point (R24, R26). -/
def Svc.assertSystem (w : Svc) (c : Ctx) (p : Point) : Svc :=
  if (w.tab.live p).condition then w
  else
    let w := w.setCondition p true
    match w.tab.recordOf p with
    | some r => w.assertRecord c p r
    | none => w.create c p .new

/-- A return of a system point (R27). -/
def Svc.returnSystem (w : Svc) (c : Ctx) (p : Point) : Svc :=
  if (w.tab.live p).condition then
    let w := w.setCondition p false
    match w.tab.recordOf p with
    | some r => w.replaceOr (fun p w => w.retireOnly c p) p (r.afterReturn (c.cfg.point p) c.now)
    | none => w
  else w

/-! The Waiting Queue (R51 to R54). -/

/-- Point `p` joins the tail; a join to an empty queue asserts point 248 and posts TABLE_FULL (R18, R51). -/
def Svc.join (w : Svc) (c : Ctx) (p : Point) : Svc :=
  let wasEmpty := w.tab.waiting.isEmpty
  let w := (w.onTable fun t =>
    { t.setLive p { t.live p with waiting := true } with waiting := t.waiting ++ [p] }).changed p
  if wasEmpty then { w.assertSystem c tableFullPoint with tableFull := true } else w

/-- The queue has just lost a point: when it is empty now, point 248 is returned (R18). -/
def Svc.queueLeft (w : Svc) (c : Ctx) : Svc :=
  if w.tab.waiting.isEmpty then w.returnSystem c tableFullPoint else w

/-- Point `p` leaves the queue from wherever it stands, admitting nothing (R54). That a point which joined in the same
service, under a pulse (R28), posts RECORD_CHANGE with it is the model's choice (assumption 30). -/
def Svc.leave (w : Svc) (c : Ctx) (p : Point) : Svc :=
  ((w.onTable fun t =>
    { t.setLive p { t.live p with waiting := false } with waiting := t.waiting.erase p }).changed p).queueLeft c

/-- The state of an admitted record (R14). -/
def admittedState (condition : Bool) : RecState := if condition then .new else .returned

/-- Admission of the point at the head, if there is one and there is room (R53). -/
def Svc.admitHead (w : Svc) (c : Ctx) : Svc :=
  match w.tab.waiting with
  | [] => w
  | p :: rest =>
    if w.tab.hasRoom then
      let w := (w.onTable fun t =>
        { t.setLive p { t.live p with waiting := false } with waiting := rest }).changed p
      (w.create c p (admittedState (w.tab.live p).condition)).queueLeft c
    else w

/-- Admission while points wait and there is room (R53), for at most `n` points. -/
def Svc.admitUpTo (c : Ctx) : Nat → Svc → Svc
  | 0, w => w
  | n + 1, w => Svc.admitUpTo c n (w.admitHead c)

/-- Retirement with its admission (R39). -/
def Svc.retire (c : Ctx) (p : Point) (w : Svc) : Svc :=
  let w := w.retireOnly c p
  if isSystem p then w else Svc.admitUpTo c w.tab.waiting.length w

/-! Condition events (R24, R26, R27). -/

/-- An assert of a user point whose condition is taken as absent until now (R24, R33). -/
def Svc.assertFresh (w : Svc) (c : Ctx) (p : Point) : Svc :=
  let w := w.setCondition p true
  match w.tab.recordOf p with
  | some r => w.assertRecord c p r
  | none =>
    if (w.tab.live p).waiting then w
    else if !(c.cfg.point p).enabled || (w.tab.live p).inhibited then w
    else if w.tab.hasRoom then w.create c p .new
    else w.join c p

/-- The lifecycle event assert. -/
def Svc.assertPoint (w : Svc) (c : Ctx) (p : Point) : Svc :=
  if isSystem p then w.assertSystem c p
  else if (w.tab.live p).condition then w
  else w.assertFresh c p

/-- A return of a user point (R27, R52). -/
def Svc.returnUser (w : Svc) (c : Ctx) (p : Point) : Svc :=
  if (w.tab.live p).condition then
    let w := w.setCondition p false
    match w.tab.recordOf p with
    | some r => w.replaceOr (Svc.retire c) p (r.afterReturn (c.cfg.point p) c.now)
    | none => if (w.tab.live p).waiting && !(c.cfg.point p).latch then w.leave c p else w
  else w

/-- The lifecycle event return. -/
def Svc.returnPoint (w : Svc) (c : Ctx) (p : Point) : Svc :=
  if isSystem p then w.returnSystem c p else w.returnUser c p

/-! Operator events (R29 to R36). -/

/-- The lifecycle event ack (R29). -/
def Svc.ack (w : Svc) (c : Ctx) (src : AckSource) (p : Point) : Svc :=
  match w.tab.recordOf p with
  | none => w
  | some r =>
    if r.state.unacked then w.replaceOr (Svc.retire c) p (r.afterAck (c.cfg.point p) c.now src) else w

/-- The lifecycle event reset (R30). -/
def Svc.reset (w : Svc) (c : Ctx) (p : Point) : Svc :=
  match w.tab.recordOf p with
  | none => w
  | some r => if r.state = .held then Svc.retire c p w else w

/-- The lifecycle event force retire (R31). -/
def Svc.forceRetire (w : Svc) (c : Ctx) (p : Point) : Svc :=
  if (w.tab.live p).condition then w
  else
    match w.tab.recordOf p with
    | some _ => Svc.retire c p w
    | none => if (w.tab.live p).waiting then w.leave c p else w

/-- The lifecycle event inhibit (R32). -/
def Svc.inhibit (w : Svc) (c : Ctx) (p : Point) : Svc :=
  let w := w.setInhibited p true
  match w.tab.recordOf p with
  | some _ => Svc.retire c p w
  | none => if (w.tab.live p).waiting then w.leave c p else w

/-- The lifecycle event enable (R33). -/
def Svc.enable (w : Svc) (c : Ctx) (p : Point) : Svc :=
  if (w.tab.live p).inhibited then
    let w := w.setInhibited p false
    if (w.tab.live p).condition then w.assertFresh c p else w
  else w

/-! Shelving (R34, R35, R122, R123). -/

/-- The Shelf List with an entry placed after the last of equal or earlier deadline (R122). -/
def shelfInsert (e : ShelfEntry) (l : List ShelfEntry) : List ShelfEntry :=
  insertAfterLast (fun x => notLater x.deadline e.deadline) e l

/-- The Shelf List without the entry of point `p`. -/
def shelfWithout (p : Point) (l : List ShelfEntry) : List ShelfEntry :=
  l.filter fun x => decide (x.point ≠ p)

/-- The lifecycle event shelve (R34); the same deadline from the same source changes nothing. -/
def Svc.shelve (w : Svc) (p : Point) (x : ShelfPart) : Svc :=
  match w.tab.recordOf p with
  | none => w
  | some r =>
    if r.shelf = some x then w
    else
      (w.changeRecord p { r with shelf := some x, sounding := false }).onTable fun t =>
        { t with shelf := shelfInsert ⟨x.deadline, p⟩ (shelfWithout p t.shelf) }

/-- The lifecycle event unshelve (R35). -/
def Svc.unshelve (w : Svc) (c : Ctx) (p : Point) : Svc :=
  match w.tab.recordOf p with
  | none => w
  | some r =>
    if r.shelf.isNone then w
    else
      (w.changeRecord p
        { r with
          shelf := none
          sounding := r.sounding || (r.state.unacked && (c.cfg.point p).sound) }).onTable fun t =>
        { t with shelf := shelfWithout p t.shelf }

/-- The lifecycle event silence (R36): every record whose sounding flag is set. -/
def Svc.silenceOne (w : Svc) (p : Point) : Svc :=
  match w.tab.recordOf p with
  | none => w
  | some r => if r.sounding then w.changeRecord p { r with sounding := false } else w

def Svc.silence (w : Svc) : Svc := w.tab.rank.foldl Svc.silenceOne w

/-- How many records are sounding. -/
def Table.soundingCount (t : Table) : Nat := (t.records.filter (·.sounding)).length

/-- First-out reset of a group (R44). -/
def Svc.firstOutReset (w : Svc) (g : Fin 7) : Svc :=
  let x := w.tab.groups.get g
  let w := match x.mark with
    | none => w
    | some p =>
      match w.tab.recordOf p with
      | none => w
      | some r => w.changeRecord p { r with firstOut := false }
  w.onTable fun t => t.setGroup g { x with mark := none, armed := true }

/-! Selections (R22): the set as it stands when the service begins, in rank order. -/

def Table.select (t : Table) (q : Record → Bool) : List Point :=
  t.rank.filter fun p => match t.recordOf p with
    | none => false
    | some r => q r

/-- ACK_VISIBLE and the panel's ACK (R142). -/
def Table.visibleUnacked (t : Table) : List Point :=
  t.select fun r => r.state.unacked && t.shows r.point

/-- ACK_ALL (R75). -/
def Table.unshelvedUnacked (t : Table) : List Point :=
  t.select fun r => r.state.unacked && r.shelf.isNone

/-- RESET_ALL (R78). -/
def Table.heldPoints (t : Table) : List Point := t.select fun r => r.state == .held

/-- The panel's RESET (R143). -/
def Table.visibleHeld (t : Table) : List Point :=
  t.select fun r => r.state == .held && t.shows r.point

def Svc.ackEach (w : Svc) (c : Ctx) (src : AckSource) (ps : List Point) : Svc :=
  ps.foldl (fun w p => w.ack c src p) w

def Svc.resetEach (w : Svc) (c : Ctx) (ps : List Point) : Svc :=
  ps.foldl (fun w p => w.reset c p) w

/-- The entries that a SHELF_DUE service unshelves: from the head while the deadline is reached (R125). -/
def Table.due (t : Table) (now : Word) : List Point :=
  (t.shelf.takeWhile fun e => reached now e.deadline).map (·.point)

def Svc.unshelveDue (w : Svc) (c : Ctx) : Svc :=
  (w.tab.due c.now).foldl (fun w p => w.unshelve c p) w

/-! Teardown on entering CONFIGURE (R40, R55, R128, R186 steps 1 to 3). -/

/-- Teardown changes something of the point (R12). -/
def PointLive.tornDown (l : PointLive) : Bool := l.link.isSome || l.waiting || l.inhibited || l.condition

/-- Every point number. -/
def allPoints : List Point := (List.range 252).map (Fin.ofNat 252)

def Table.teardown (t : Table) : Table where
  points := t.points.map fun l => { PointLive.reset with revision := l.revision }
  entries := Bank.fill 96 none
  rank := []
  waiting := []
  shelf := []
  groups := Bank.fill 7 FirstOutGroup.reset
  slots := t.slots
  counts := t.counts

def Svc.teardown (t : Table) : Svc where
  tab := t.teardown
  touched := allPoints.filter fun p => (t.live p).tornDown
  alert := false
  change := !t.isEmpty
  tableFull := false
  modeChange := true

end Sys2Proof.Machine
end

