-- ==== Sys2Proof/Machine/Display.lean ====
section
/-! DEFINITION. Display allocation (chapter 7), the Summary Counts (chapter 3), and what the Display Unit shows and
drives (chapter 8). -/

namespace Sys2Proof.Machine

/-! The Slot Map (R129 to R131). -/

/-- Point `p` has a dedicated slot (R131). -/
def ConfigMem.hasDedicated (c : ConfigMem) (p : Point) : Bool :=
  c.slots.items.any fun e => e.role == .dedicated && e.operand == byteOfPoint p

/-- P, the number of POOL slots (R130). -/
def ConfigMem.poolSize (c : ConfigMem) : Nat :=
  (c.slots.items.filter fun e => e.role == .pool).length

/-- The SENSOR slot in use: the lowest-numbered (R141, R155). -/
def ConfigMem.sensorSlot (c : ConfigMem) : Option (Fin 64) := c.slots.find? fun e => e.role == .sensor

/-! Allocation (R132 to R136). -/

/-- Pool-eligible (R132). -/
def poolEligible (cfg : ConfigMem) (r : Record) : Bool :=
  (cfg.point r.point).pool && !cfg.hasDedicated r.point && r.shelf.isNone

/-- The pool-eligible records in rank order. -/
def Table.eligible (t : Table) (cfg : ConfigMem) : List Record := t.records.filter (poolEligible cfg)

/-- The pattern of a record shown (R147). -/
def Record.pattern (r : Record) : Pattern :=
  match r.state with
  | .new => if r.firstOut then .first else .fast
  | .returned => if r.firstOut then .first else .fast
  | .acked => .steady
  | .ringback => .slow
  | .held => .dim

def Record.shown (r : Record) : Shown := ⟨r.point, r.pattern⟩

/-- What the entry of one slot holds (R136): `eligible` is the list of pool-eligible records in rank order. -/
def Table.slotContent (t : Table) (eligible : List Record) (e : SlotEntry) : Option Shown :=
  match e.role with
  | .dedicated =>
    match (pointOfByte e.operand).bind t.recordOf with
    | none => none
    | some r => if r.shelf.isNone then some r.shown else none
  | .pool => (eligible[e.operand.toNat]?).map Record.shown
  | .unused => none
  | .overflow => none
  | .health => none
  | .sensor => none

/-- The Slot Contents that the allocation produces, from nothing but the table and the configuration (R134). -/
def Table.allocate (t : Table) (cfg : ConfigMem) : Bank (Option Shown) 64 :=
  let eligible := t.eligible cfg
  cfg.slots.map (t.slotContent eligible)

/-! Summary Counts (R57 to R61). -/

def countRecords (rs : List Record) (q : Record → Bool) : Nat := (rs.filter q).length

/-- The totals of the table; the SENSOR FAULT copy is kept (R61). -/
def Table.summary (t : Table) (cfg : ConfigMem) : Counts :=
  let rs := t.records
  let eligible := t.eligible cfg
  let hidden := eligible.drop cfg.poolSize
  { liveUser := countRecords rs fun r => !isSystem r.point
    liveSystem := countRecords rs fun r => isSystem r.point
    waitingLength := t.waiting.length
    new := countRecords rs fun r => r.state == .new
    acked := countRecords rs fun r => r.state == .acked
    returned := countRecords rs fun r => r.state == .returned
    ringback := countRecords rs fun r => r.state == .ringback
    held := countRecords rs fun r => r.state == .held
    shelved := countRecords rs fun r => r.shelf.isSome
    alertSounding := countRecords rs fun r => r.sounding && (r.state == .new || r.state == .returned)
    returnSounding := countRecords rs fun r => r.sounding && r.state == .ringback
    presentByClass := Bank.build 8 fun k => countRecords rs fun r =>
      r.shelf.isNone && decide ((cfg.point r.point).cls.val = k) && (t.live r.point).condition
    poolEligible := eligible.length
    poolHidden := hidden.length
    hiddenUnacked := hidden.any fun r => r.state.unacked
    sensorFault := t.counts.sensorFault }

/-! Flash patterns and levels (R146). -/

/-- A slot showing the pattern is lit in this flash phase. -/
def Pattern.lit : Pattern → Fin 8 → Bool
  | .fast, ph => ph.val % 2 = 0
  | .first, ph => ph.val = 0 || ph.val = 2
  | .slow, ph => ph.val < 4
  | .steady, _ => true
  | .dim, _ => true

/-- Half the current level rounded down, raised to 1 when that gives 0 and the current level is 1 or more. -/
def dimLevel (level : Fin 16) : Nat :=
  if level.val / 2 = 0 ∧ 1 ≤ level.val then 1 else level.val / 2

def Pattern.level (x : Pattern) (current : Fin 16) : Nat :=
  match x with
  | .dim => dimLevel current
  | .fast => current.val
  | .first => current.val
  | .slow => current.val
  | .steady => current.val

/-! The scan and the matrix (R149, R156). -/

/-- The row and the column of slot s: s / 8 and s mod 8. -/
def rowOf (i : Fin 64) : Fin 8 := ⟨i.val / 8, by omega⟩

def slotAt (r c : Fin 8) : Fin 64 := ⟨8 * r.val + c.val, by omega⟩

/-- The next row period begins: a lamp to be charged is charged if it stands in the row (`here`). -/
def ReadingStage.next (here : Bool) : ReadingStage → ReadingStage
  | .toCharge => if here then .charging else .toCharge
  | .charging => .looking
  | .looking => .looking

def Reading.next (here : Bool) (x : Reading) : Reading := { x with stage := x.stage.next here }

/-- The row period of row `r` begins, and a reading in progress moves with it. -/
def State.enterRow (s : State) (r : Fin 8) : State :=
  { s with display := { s.display with
      row := r
      reading := s.display.reading.map (·.next (decide (s.config.sensorSlot.map rowOf = some r))) } }

/-- A row period passes within the frame; after that of row 7 the scan waits for the start of the next frame, a command
of its own (assumption 2). While the reset input is held the scan holds. -/
def State.nextRow (s : State) : State :=
  if s.resetHeld then s
  else if h : s.display.row.val < 7 then s.enterRow ⟨s.display.row.val + 1, by omega⟩ else s

/-- Slot `i` is the SENSOR slot in use and a reading is in progress. -/
def State.sensing (s : State) (i : Fin 64) : Bool :=
  s.display.reading.isSome && decide (s.config.sensorSlot = some i)

/-- The level at which a slot is driven in its row period: 0 when it is dark or not lit in this phase, and for the
SENSOR slot during a reading. That this darkens a slot lit in the frame in progress at once, where a Slot Map write
makes it the SENSOR slot, is the model's choice (assumption 31). -/
def State.slotLevel (s : State) (i : Fin 64) : Nat :=
  if s.sensing i then 0
  else match s.display.frame.get i with
    | none => 0
    | some x => if x.lit s.display.phase then x.level s.display.level else 0

/-- What the part does with a column of the row that the scan stands in. -/
inductive ColumnDrive where
  | dark | lit
  /-- The lamp is charged in reverse (R156). -/
  | charge
  deriving DecidableEq, Repr

/-- During fifteenth `k` (0 to 14) of the row period that runs, what column `c` does: the SENSOR slot's is charged in
the row period that its reading has for it, and any other is on for its slot's level in fifteenths. -/
def State.columnDrive (s : State) (c : Fin 8) (k : Fin 15) : ColumnDrive :=
  let i := slotAt s.display.row c
  if s.sensing i && decide (s.display.reading.map (·.stage) = some .charging) then .charge
  else if k.val < s.slotLevel i then .lit else .dark

/-! Lamp test, role slots and the current level. -/

/-- A line's asserted level (R100): the active level for a button, low for LEVEL_LOW and high otherwise. -/
def LineConfig.assertedLevel (c : LineConfig) : Bool :=
  if c.role = .sense then decide (c.senseMode ≠ .levelLow) else c.activeHigh

/-- The test-held signal (R105): off in STARTING. -/
def State.testHeld (s : State) : Bool :=
  decide (s.mode ≠ .starting) &&
    (s.config.lines.items.zip s.lines.items).any fun (c, l) =>
      c.role == .buttonTest && l.qualified == c.assertedLevel

/-- The lamp test is active (R150). -/
def State.lampTestActive (s : State) : Bool := s.display.lampTimer.isSome || s.testHeld

/-- The OVERFLOW slot (R139). -/
def overflowPattern (c : Counts) : Option Pattern :=
  if c.poolHidden = 0 then none else if c.hiddenUnacked then some .fast else some .steady

/-- The HEALTH slot (R140). -/
def healthPattern : Mode → Option Pattern
  | .starting => none
  | .configure => some .slow
  | .operate => some .steady

/-- What a slot shows during the frame that starts now: the first case of R148 that applies. -/
def State.slotShows (s : State) (e : SlotEntry) (content : Option Shown) : Option Pattern :=
  match e.role with
  | .sensor => none
  | .dedicated => if s.lampTestActive then some .steady else content.map (·.pattern)
  | .pool => if s.lampTestActive then some .steady else content.map (·.pattern)
  | .overflow => if s.lampTestActive then some .steady else overflowPattern s.table.counts
  | .health => if s.lampTestActive then some .steady else healthPattern s.mode
  | .unused => if s.lampTestActive then some .steady else none

/-- What the 64 slots show during the frame that starts now (R148). -/
def State.frameShows (s : State) : Bank (Option Pattern) 64 :=
  Bank.build 64 fun i => s.slotShows (s.config.slots.get (Fin.ofNat 64 i)) (s.table.slots.get (Fin.ofNat 64 i))

/-- To clamp is to raise to the minimum if below and to lower to the maximum if above (R153). -/
def Brightness.clamp (b : Brightness) (x : Fin 16) : Fin 16 :=
  let x := if x < b.minimum then b.minimum else x
  if b.maximum < x then b.maximum else x

/-- The current level that R153 calls for. -/
def State.levelNow (s : State) : Fin 16 :=
  let b := s.config.brightness
  if s.mode = .starting then 0
  else if b.maximum < b.minimum then b.maximum
  else match b.mode with
    | .fixed => b.clamp b.fixed
    | .ambient =>
      if s.display.sensorFault then b.maximum
      else if s.config.sensorSlot.isNone then b.maximum
      else b.clamp s.display.sensed
    | .step => if s.display.stepLow then b.minimum else b.maximum

/-! Sensing (R155 to R157). -/

/-- A reading begins now, with the W in force; it charges the lamp in the next row period of its row (R156). -/
def State.beginReading (s : State) : State :=
  { s with display := { s.display with reading := some ⟨s.config.brightness.window, .toCharge⟩ } }

/-- The SENSOR FAULT flag becomes `v`; a change posts the SENSOR item (R157). -/
def State.setSensorFault (s : State) (v : Bool) : State :=
  if s.display.sensorFault = v then s
  else ({ s with display := { s.display with sensorFault := v } } : State).post .sensor

/-- Sensing follows the configuration after the slot in use was `before` and the sense period code was `period`
(R155): it stops without a SENSOR slot, and begins afresh when the slot or the period changes. -/
def State.sensingFollows (s : State) (before : Option (Fin 64)) (period : Fin 4) : State :=
  match s.config.sensorSlot with
  | none =>
    if before.isSome then
      ({ s with display := { s.display with reading := none, failed := 0 } } : State).setSensorFault false
    else s
  | some i =>
    if before = some i ∧ s.config.brightness.sensePeriod = period then s else s.beginReading

/-- What a reading finds at a lamp that is discharged from look `t` on (R156): it stops at the first look, up to
t = W, that finds the lamp discharged. -/
def readingResult (w : Fin 64) (t : Option Nat) : Latest :=
  match t with
  | none => .noDischarge
  | some t => if h : t ≤ w.val then .discharged ⟨t, by omega⟩ else .noDischarge

/-- The level of a discharge at `t` from 1 to W (R156). -/
def sensedAt (w t : Fin 64) : Fin 16 := Fin.ofNat 16 (15 - 15 * t.val / w.val)

/-- A good reading with sensed level `x` (R157). -/
def State.goodReading (s : State) (x : Fin 16) : State :=
  ({ s with display := { s.display with sensed := x, failed := 0 } } : State).setSensorFault false

/-- A failed reading (R157): the flag is set by the one that takes the count to 4. -/
def State.failedReading (s : State) : State :=
  let n := if s.display.failed.val < 4 then s.display.failed.val + 1 else 4
  let s := { s with display := { s.display with failed := Fin.ofNat 5 n } }
  if n = 4 then s.setSensorFault true else s

/-- The end of a reading (R156, R157). -/
def State.endReading (s : State) (w : Fin 64) (t : Option Nat) : State :=
  let result := readingResult w t
  let s := { s with display := { s.display with reading := none, latest := result } }
  match result with
  | .none => s
  | .noDischarge => s.goodReading 0
  | .discharged t => if t.val = 0 then s.failedReading else s.goodReading (sensedAt w t)

end Sys2Proof.Machine
end

