-- ==== Sys2Proof/Machine/Lines.lean ====
section
/-! DEFINITION. The Field Line Unit (chapter 5): samples, qualification, marks, items, pulls and drive outputs. -/

namespace Sys2Proof.Machine

def State.line (s : State) (n : Fin 16) : LineState := s.lines.get n

def State.lineCfg (s : State) (n : Fin 16) : LineConfig := s.config.lines.get n

def State.setLine (s : State) (n : Fin 16) (l : LineState) : State :=
  { s with lines := s.lines.set n l }

/-- The lines as a sample of the sixteen pins leaves them with nothing pending and no mark set (R98, R99). -/
def sampledLines (levels : BitVec 16) : Bank LineState 16 :=
  Bank.build 16 fun i => LineState.reset (levels.getLsbD i)

/-- Input handling restarted (R97): qualified level from the raw level, nothing pending, marks cleared. -/
def LineState.restart (l : LineState) : LineState := LineState.reset l.raw

def LineState.clearMarks (l : LineState) : LineState := { l with assertSeen := false, pressSeen := false }

/-- Every assert-seen and press-seen mark cleared (R108, R189). -/
def State.clearMarks (s : State) : State := { s with lines := s.lines.map LineState.clearMarks }

/-! Roles. -/

def LineRole.isDrive : LineRole → Bool
  | .driveAlert => true
  | .driveReturn => true
  | .driveRelay => true
  | .driveFault => true
  | .driveHealth => true
  | .off => false
  | .sense => false
  | .buttonAck => false
  | .buttonSilence => false
  | .buttonReset => false
  | .buttonTest => false
  | .buttonBright => false

/-- SENSE and BUTTON lines qualify; OFF and DRIVE lines follow the raw level (R99). -/
def LineRole.qualifies (r : LineRole) : Bool := decide (r ≠ .off) && !r.isDrive

/-- The buttons that post items (R104). -/
def LineRole.postsPress : LineRole → Bool
  | .buttonAck => true
  | .buttonSilence => true
  | .buttonReset => true
  | .off => false
  | .sense => false
  | .buttonTest => false
  | .buttonBright => false
  | .driveAlert => false
  | .driveReturn => false
  | .driveRelay => false
  | .driveFault => false
  | .driveHealth => false

/-- LEVEL_HIGH and LEVEL_LOW. -/
def SenseMode.isLevel : SenseMode → Bool
  | .levelHigh => true
  | .levelLow => true
  | .rise => false
  | .fall => false
  | .both => false

/-- A SENSE line in RISE, FALL or BOTH. -/
def LineConfig.isEdge (c : LineConfig) : Bool := decide (c.role = .sense) && !c.senseMode.isLevel

/-- The line is asserted: its qualified level is its asserted level (R100). -/
def asserted (c : LineConfig) (l : LineState) : Bool := l.qualified == c.assertedLevel

/-- The delay that a raw change to `level` calls for (R100). -/
def LineConfig.delay (c : LineConfig) (level : Bool) : Byte :=
  if c.isEdge || level == c.assertedLevel then c.onDelay else c.offDelay

/-! Qualified changes and their consequences. -/

/-- A qualified change to `level` is an asserting edge (R101). -/
def SenseMode.assertingEdge : SenseMode → Bool → Bool
  | .rise, level => level
  | .fall, level => !level
  | .both, _ => true
  | .levelHigh, _ => false
  | .levelLow, _ => false

/-- The qualified change of a SENSE line in OPERATE (R102, R103): the mark on an assertion or an asserting edge, the
item on every change of a level line and on every asserting edge. -/
def State.senseChange (s : State) (n : Fin 16) : State :=
  let c := s.lineCfg n
  let l := s.line n
  let asserts := if c.senseMode.isLevel then asserted c l else c.senseMode.assertingEdge l.qualified
  let s := if asserts then s.setLine n { l with assertSeen := true } else s
  if asserts || c.senseMode.isLevel then s.post (.line n) else s

/-- A brightness step (R106, R154). -/
def State.brightnessStep (s : State) : State :=
  if s.config.brightness.mode = .step then
    { s with display := { s.display with stepLow := !s.display.stepLow } }
  else s

/-- The consequences of a qualified change of line `n` (R102 to R106). -/
def State.qualifiedChange (s : State) (n : Fin 16) : State :=
  let c := s.lineCfg n
  let l := s.line n
  if c.role = .sense then (if s.mode = .operate then s.senseChange n else s)
  else if c.role.postsPress then
    if s.mode ≠ .starting ∧ asserted c l then (s.setLine n { l with pressSeen := true }).post (.line n) else s
  else if c.role = .buttonBright then
    if s.mode ≠ .starting ∧ asserted c l then s.brightnessStep else s
  else s

/-- Timer expiry (R100): the qualified level takes the raw level and the line becomes STABLE. -/
def State.qualify (s : State) (n : Fin 16) : State :=
  let l := s.line n
  (s.setLine n { l with qualified := l.raw, timer := none }).qualifiedChange n

/-- A sample of the raw level (R99, R100, R115); one that shows no change changes nothing. -/
def State.rawChange (s : State) (n : Fin 16) (level : Bool) : State :=
  let c := s.lineCfg n
  let l := { s.line n with raw := level }
  if (s.line n).raw = level then s
  else if s.mode = .starting || !c.role.qualifies then s.setLine n { l with qualified := level, timer := none }
  else if level = l.qualified then s.setLine n { l with timer := none }
  else if c.delay level = 0 then (s.setLine n l).qualify n
  else s.setLine n { l with timer := some (c.delay level) }

/-! Configuration. -/

/-- A line takes a configuration; a line whose configuration changes restarts its input handling (R97). -/
def State.setLineConfig (s : State) (n : Fin 16) (c : LineConfig) : State :=
  if s.lineCfg n = c then s
  else
    ({ s with config := { s.config with lines := s.config.lines.set n c } } : State).setLine n (s.line n).restart

/-- An item is posted for every SENSE line, in line order (R117). -/
def State.postSenseLines (s : State) : State :=
  ((List.range 16).map (Fin.ofNat 16)).foldl
    (fun s n => if (s.lineCfg n).role = .sense then s.post (.line n) else s) s

/-! Outputs. -/

/-- The logical state of a DRIVE line (R112). -/
def driveActive (c : LineConfig) (k : Counts) (m : Mode) : Bool :=
  match c.role with
  | .driveAlert => 0 < k.alertSounding
  | .driveReturn => 0 < k.returnSounding
  | .driveRelay => (k.presentByClass.items.drop c.threshold.val).any (0 < ·)
  | .driveFault => 0 < k.liveSystem || k.sensorFault
  | .driveHealth => decide (m = .operate)
  | .off => false
  | .sense => false
  | .buttonAck => false
  | .buttonSilence => false
  | .buttonReset => false
  | .buttonTest => false
  | .buttonBright => false

/-- Step 1 of R113: PULSED is on during the first half of each second. -/
def driveOn (c : LineConfig) (active : Bool) (phase : Fin 8) : Bool :=
  active && (!c.pulsed || Pattern.slow.lit phase)

/-- What the part does to the pin of line `n` (R98, R113): released in STARTING and as an input. -/
def State.linePin (s : State) (n : Fin 16) : PinDrive :=
  let c := s.lineCfg n
  if s.mode = .starting || !c.role.isDrive then .released
  else drivePin (driveOn c (driveActive c s.table.counts s.mode) s.display.phase) c.driveHigh c.pushPull

/-- The pull in force on line `n` (R98, R113): none in STARTING and on a PUSH_PULL drive line. -/
def State.linePull (s : State) (n : Fin 16) : Pull :=
  let c := s.lineCfg n
  if s.mode = .starting || (c.role.isDrive && c.pushPull) then .none else c.pull

end Sys2Proof.Machine
end

