-- ==== Sys2Proof/Machine/Image.lean ====
section
/-! DEFINITION. The store image, its classification, and validation (R187, R191, R194). -/

namespace Sys2Proof.Machine

/-! CRC-16 (R191): most significant bit first, polynomial x^16 + x^12 + x^5 + 1, start 0xFFFF, no final inversion. -/

def crcBit (c : Half) : Half := if c.msb then (c <<< 1) ^^^ 0x1021 else c <<< 1

def crcByte (c : Half) (b : Byte) : Half :=
  crcBit (crcBit (crcBit (crcBit (crcBit (crcBit (crcBit (crcBit (c ^^^ (b.setWidth 16 <<< 8)))))))))

def crc16 (bs : List Byte) : Half := bs.foldl crcByte 0xFFFF

/-! The image (R191). -/

def imageSize : Nat := 1280

def pointBytes (d : PointDef) : List Byte := [d.byte 0, d.byte 1, d.byte 2, d.byte 3]

def lineBytes (c : LineConfig) : List Byte :=
  [c.byte 0, c.byte 1, c.byte 2, c.byte 3, c.byte 4, c.byte 5, c.byte 6, c.byte 7]

def entryBytes (e : SlotEntry) : List Byte := [e.byte 0, e.byte 1]

def brightnessBytes (b : Brightness) : List Byte := [b.byte 0, b.byte 1, b.byte 2, b.byte 3, b.byte 4, b.byte 5]

/-- The 1275 bytes that follow the header, in the order of R191. -/
def imageBody (c : ConfigMem) : List Byte :=
  [if c.autoRun then 1 else 0]
    ++ c.points.items.flatMap pointBytes
    ++ c.lines.items.flatMap lineBytes
    ++ c.slots.items.flatMap entryBytes
    ++ brightnessBytes c.brightness
    ++ [periodByte c.period.a, periodByte c.period.b]
    ++ [c.interrupt.a.byte, c.interrupt.b.byte]

/-- The header: format number 1, length 1280, the CRC-16; both two-byte values least significant byte first. -/
def imageHeader (body : List Byte) : List Byte :=
  [1] ++ halfBytes (BitVec.ofNat 16 imageSize) ++ halfBytes (crc16 body)

def imageBytes (c : ConfigMem) : List Byte := imageHeader (imageBody c) ++ imageBody c

/-! Reading an image: each field from its default, kept where the stored value is not one it can take (R194). -/

/-- An item taken from its stored bytes, byte after byte. -/
def fromBytes {α : Type} (set : α → Nat → Byte → α) (x : α) (bs : List Byte) : α :=
  bs.zipIdx.foldl (fun x b => set x b.2 b.1) x

def loadPoint (i : Nat) (bs : List Byte) : PointDef :=
  fromBytes (PointDef.setByte (decide (248 ≤ i))) (PointDef.default i) bs

/-- The configuration that the 1275 bytes after a header hold (R194). -/
def loadBody (bs : List Byte) : ConfigMem :=
  let points := bs.drop 1
  let lines := points.drop 1008
  let slots := lines.drop 128
  let bright := slots.drop 128
  let periods := bright.drop 6
  let pins := periods.drop 2
  { autoRun := decide (bs.getD 0 0 = 1)
    points := Bank.build 252 fun i => loadPoint i ((points.drop (4 * i)).take 4)
    lines := Bank.build 16 fun i =>
      fromBytes LineConfig.setByte LineConfig.default ((lines.drop (8 * i)).take 8)
    slots := Bank.build 64 fun i =>
      fromBytes SlotEntry.setByte SlotEntry.default ((slots.drop (2 * i)).take 2)
    brightness := fromBytes Brightness.setByte Brightness.default (bright.take 6)
    period := ⟨setPeriodByte 0 (periods.getD 0 0), setPeriodByte 0 (periods.getD 1 0)⟩
    interrupt := ⟨InterruptConfig.ofByte (pins.getD 0 0), InterruptConfig.ofByte (pins.getD 1 0)⟩ }

/-- The configuration that the image in the store holds. -/
def loadImage (m : Memory) : ConfigMem := loadBody ((m.dump 0 imageSize).drop 5)

/-- Format number, length and CRC-16 are right (R191). -/
def headerFits (bs : List Byte) : Bool := bs.take 5 == imageHeader (bs.drop 5)

/-- The class of the image (R191): CORRUPT while the save mark is set, BLANK when every byte reads 0xFF, VALID when the
header fits and pages 5 to 7 are erased, CORRUPT otherwise. -/
def classify (mark : Bool) (m : Memory) : ImageClass :=
  if mark then .corrupt
  else if m.isEmpty then .blank
  else if headerFits (m.dump 0 imageSize) && m.all (fun cell => decide (cell.1 < imageSize)) then .valid
  else .corrupt

/-! Validation (R187). -/

/-- The lines that the sources of the points name, in point order. -/
def ConfigMem.namedLines (c : ConfigMem) : List (Fin 16) :=
  c.points.items.filterMap fun d => match d.source with
    | .line n => some n
    | .none => none
    | .port => none
    | .system => none

def ConfigMem.rolesOf (c : ConfigMem) (r : SlotRole) : List SlotEntry :=
  c.slots.items.filter fun e => e.role == r

def noRepeats {α : Type} [DecidableEq α] : List α → Bool
  | [] => true
  | x :: xs => !xs.contains x && noRepeats xs

/-- A DEDICATED operand names a defined point (check 4). -/
def ConfigMem.namesDefined (c : ConfigMem) (b : Byte) : Bool :=
  match pointOfByte b with
  | none => false
  | some p => c.defined p

/-- The seven checks of R187, in order: on when the check passes. -/
def ConfigMem.checks (c : ConfigMem) : List Bool :=
  let dedicated := (c.rolesOf .dedicated).map (·.operand)
  let pool := (c.rolesOf .pool).map (·.operand.toNat)
  [ c.namedLines.all fun n => (c.lines.get n).role == .sense,
    noRepeats c.namedLines,
    noRepeats (dedicated.filterMap pointOfByte),
    dedicated.all c.namesDefined,
    pool.all (fun k => decide (k < pool.length)) && noRepeats pool,
    decide ((c.rolesOf .overflow).length ≤ 1) && decide ((c.rolesOf .health).length ≤ 1)
      && decide ((c.rolesOf .sensor).length ≤ 1),
    decide (c.brightness.minimum ≤ c.brightness.maximum)
      && (decide (c.brightness.mode ≠ .ambient) || c.sensorSlot.isSome) ]

/-- The number, 1 to 7, of the first check that fails (R187). -/
def ConfigMem.firstFailure (c : ConfigMem) : Option Nat := (c.checks.findIdx? (!·)).map (· + 1)

/-- Validation passes. -/
def ConfigMem.valid (c : ConfigMem) : Bool := c.checks.all id

end Sys2Proof.Machine
end

