-- ==== Sys2Proof/Machine/Service.lean ====
section
/-! DEFINITION. The Record Engine's arbitration and the completion of a service (chapter 4, R62 to R72, R86, R124). -/

namespace Sys2Proof.Machine

/-! Arbitration (R64, R65). -/

def Claimant.next : Claimant → Claimant
  | .mailbox .a => .mailbox .b
  | .mailbox .b => .workQueue
  | .workQueue => .mailbox .a

def Mailbox.request? : Mailbox → Option Request
  | .waiting r => some r
  | .empty => none
  | .taken _ => none
  | .storeWait => none
  | .held => none

/-- The claimant has work (R64). -/
def State.hasWork (s : State) : Claimant → Bool
  | .mailbox p => (s.port p).mailbox.request?.isSome
  | .workQueue => !s.queue.isEmpty

/-- The claimant that the engine grants next (R64): the first with work in cyclic order from the pointer, when the
engine is FREE. -/
def State.nextGrant (s : State) : Option Claimant :=
  if s.engine = .free then [s.pointer, s.pointer.next, s.pointer.next.next].find? s.hasWork else none

/-- The engine becomes SERVING and the pointer moves past the claimant granted. -/
def State.grant (s : State) (c : Claimant) : State :=
  { s with engine := .serving, pointer := c.next }

/-- The request of port `p` that the next grant takes to TAKEN. -/
def State.grantedRequest (s : State) (p : PortId) : Option Request :=
  if s.nextGrant = some (.mailbox p) then (s.port p).mailbox.request? else none

def State.grantMailbox (s : State) (p : PortId) (r : Request) : State :=
  (s.grant (.mailbox p)).onPort p fun x => { x with mailbox := .taken r }

/-- The item at the head, when the next grant is the Work Queue's (R65). -/
def State.grantedItem (s : State) : Option WorkSource :=
  if s.nextGrant = some .workQueue then s.queue.head? else none

def State.grantItem (s : State) : State :=
  { s.grant .workQueue with queue := s.queue.tail }

/-- What a service of this state reads. -/
def State.ctx (s : State) : Ctx := ⟨s.config, s.counter⟩

/-! Completion (R66). -/

/-- Step 3: the revision of each point that the service changed increases by one (R12). -/
def bumpRevisions (touched : List Point) (points : Bank PointLive 252) : Bank PointLive 252 :=
  touched.foldl (fun b p => b.set p { b.get p with revision := (b.get p).revision + 1 }) points

/-- Steps 1 to 3: allocation, counts, revisions. -/
def Svc.settle (w : Svc) (cfg : ConfigMem) : Table :=
  let t := { w.tab with slots := w.tab.allocate cfg }
  let t := { t with counts := t.summary cfg }
  { t with points := bumpRevisions w.touched t.points }

/-- A response reaches a port (R170): buffer, RESP_READY, an emptied mailbox, REQUEST_DONE; a response read in
progress no longer clears RESP_READY at its end (R171). -/
def Port.deliver (x : Port) (response : List Byte) : Port :=
  { x with
    buffer := bufferOf response
    respReady := true
    mailbox := .empty
    frame := match x.frame with
      | some (.response copy n _) => some (.response copy n false)
      | f => f : Port }.post .requestDone

/-- Step 4: the response is written to the port (R66). -/
def State.respond (s : State) (p : PortId) (a : Answer) : State :=
  s.onPort p (·.deliver (responseBytes s.config s.table s.counter a))

/-- Step 5 at one port (R86). -/
def Port.fireWatch (touched : List Point) (x : Port) : Port :=
  match x.watch with
  | none => x
  | some p => if touched.contains p then ({ x with watch := none } : Port).post .watchFired else x

/-- The Shelf Timer's judgement (R124). -/
def State.judgeShelf (s : State) : State :=
  match s.table.shelf with
  | [] => s
  | e :: _ => if reached s.counter e.deadline then s.post .shelfDue else s

/-- Steps 5 and 6, the engine FREE again, and the Shelf Timer's judgement. -/
def State.finish (s : State) (w : Svc) : State :=
  let s := s.onPorts (·.fireWatch w.touched)
  let s := ((s.postBothIf w.alert .recordAlert).postBothIf w.change .recordChange).postBothIf w.tableFull .tableFull
  let s := s.postBothIf w.modeChange .modeChange
  ({ s with engine := .free } : State).judgeShelf

/-- The completion of a service that answers no request (R66). -/
def State.complete (s : State) (w : Svc) : State :=
  ({ s with table := w.settle s.config } : State).finish w

/-- The completion of a service that answers port `p` (R66). -/
def State.completeWith (s : State) (p : PortId) (w : Svc) (a : Answer) : State :=
  (({ s with table := w.settle s.config } : State).respond p a).finish w

/-! Requests and items served whole. -/

/-- What a request's service comes to: the other blocks' state, the tables' service, the answer. -/
structure Reply where
  st : State
  svc : Svc
  ans : Answer

/-- A refusal changes nothing (R69). -/
def Reply.refuse (s : State) (r : Result) : Reply := ⟨s, Svc.start s.table, Answer.plain r⟩

/-- The service of a request of port `p` whose code satisfies `code`: taken when the next grant is that request's
(R62 to R66); otherwise no such step occurs (assumption 1). -/
def State.serveBy (s : State) (p : PortId) (code : Byte → Bool) (f : Request → State → State) : State :=
  match s.grantedRequest p with
  | none => s
  | some r => if code r.code then f r (s.grantMailbox p r) else s

/-- A service whose completion answers the request. -/
def answerWith (p : PortId) (body : Request → State → Reply) (r : Request) (s : State) : State :=
  (body r s).st.completeWith p (body r s).svc (body r s).ans

def State.serve (s : State) (p : PortId) (code : Byte → Bool) (body : Request → State → Reply) : State :=
  s.serveBy p code (answerWith p body)

/-- The service of the item `x`: taken when the next grant is that item's (R65); otherwise no such step occurs
(assumption 1). -/
def State.serveItem (s : State) (x : WorkSource) (body : State → State) : State :=
  if s.grantedItem = some x then body s.grantItem else s

end Sys2Proof.Machine
end

