-- ==== Sys2Proof/Machine/Ports.lean ====
section
/-! DEFINITION. The window map, pairs, and supervision (chapter 9). -/

namespace Sys2Proof.Machine

/-! Supervision (R174 to R177). -/

/-- The supervision timer started with the port's period (R174): STOPPED for off. -/
def State.startTimer (s : State) (p : PortId) : State :=
  let period := s.config.period.get p
  s.onPort p fun x => { x with timer := if period.val = 0 then none else some period }

/-- A lapse ends at the end of a complete frame (R177). -/
def State.endLapse (s : State) (p : PortId) : State :=
  if (s.port p).lapse then (s.onPort p fun x => { x with lapse := false }).post (.lapse p) else s

/-- The end of a complete frame (R164, R174): it ends a lapse and restarts supervision; in STARTING the timer stays
STOPPED. -/
def State.completeFrame (s : State) (p : PortId) : State :=
  let s := s.endLapse p
  if s.mode = .starting then s else s.startTimer p

/-- Expiry of a running timer (R176). -/
def State.expire (s : State) (p : PortId) : State :=
  let lapsed := (s.port p).lapse
  let s := s.onPort p fun x => { x with timer := none, lapse := true }
  if lapsed then s
  else
    let s := (s.post (.lapse p)).postTo (other p) .peerLapse
    if s.owner = some p then { s with owner := none } else s

def execSupervisionExpiry (p : PortId) (s : State) : Host.Outcome State Fault Refusal :=
  unlessHeld s (if (s.port p).timer.isSome then s.expire p else s)

/-! The window (Table 9-6). -/

/-- What a window address belongs to. -/
inductive Region where
  | ident (i : Nat)
  | eventStatus (high : Bool)
  | eventEnable (high : Bool)
  | period
  | interruptLine
  | count (i : Nat)
  | counter (i : Nat)
  | levels (i : Nat)
  | resetCause
  | lineConfig (n : Fin 16) (i : Nat)
  | slotMap (n : Fin 64) (i : Nat)
  | brightness (i : Nat)
  | brightStatus (i : Nat)
  | pointDef (p : Point) (i : Nat)
  /-- No region, or an unused byte of one. -/
  | unused
  deriving DecidableEq, Repr

/-- Table 9-6, by address. -/
def regionOf (addr : Half) : Region :=
  let a := addr.toNat
  if a ≤ 0x0007 then .ident a
  else if a < 0x0010 then .unused
  else if a ≤ 0x0011 then .eventStatus (a == 0x0011)
  else if a ≤ 0x0013 then .eventEnable (a == 0x0013)
  else if a = 0x0014 then .period
  else if a = 0x0015 then .interruptLine
  else if a < 0x0020 then .unused
  else if a ≤ 0x0035 then .count (a - 0x0020)
  else if a < 0x0038 then .unused
  else if a ≤ 0x003B then .counter (a - 0x0038)
  else if a ≤ 0x003F then .levels (a - 0x003C)
  else if a = 0x0040 then .resetCause
  else if a < 0x0100 then .unused
  else if a ≤ 0x017F then
    (if (a - 0x0100) % 8 < 6 then .lineConfig (Fin.ofNat 16 ((a - 0x0100) / 8)) ((a - 0x0100) % 8) else .unused)
  else if a < 0x0200 then .unused
  else if a ≤ 0x027F then .slotMap (Fin.ofNat 64 ((a - 0x0200) / 2)) ((a - 0x0200) % 2)
  else if a ≤ 0x0285 then .brightness (a - 0x0280)
  else if a < 0x0288 then .unused
  else if a ≤ 0x028C then .brightStatus (a - 0x0288)
  else if a < 0x0400 then .unused
  else if a ≤ 0x07EF then
    (if (a - 0x0400) % 4 < 3 then .pointDef (Fin.ofNat 252 ((a - 0x0400) / 4)) ((a - 0x0400) % 4) else .unused)
  else .unused

def ownerCode : Option PortId → Nat
  | none => 0
  | some p => portCode p

/-- The identification and mode region (R180). -/
def State.identByte (s : State) (p : PortId) (i : Nat) : Byte :=
  match i with
  | 0 => 0x4F
  | 1 => 0x96
  | 2 => 0x40
  | 3 => 0x01
  | 4 => BitVec.ofNat 8 s.mode.code
  | 5 => BitVec.ofNat 8 (ownerCode s.owner)
  | 6 => BitVec.ofNat 8 (bitAt s.storeBusy 0 + bitAt s.storeFault 1)
  | 7 => BitVec.ofNat 8 (portCode p)
  | _ => 0

/-- The Summary Counts as bytes from 0x0020 on. -/
def Counts.bytes (k : Counts) : List Nat :=
  [k.liveUser, k.liveSystem, k.waitingLength, k.new, k.acked, k.returned, k.ringback, k.held, k.shelved,
    k.alertSounding, k.returnSounding] ++ k.presentByClass.items
    ++ [k.poolEligible, k.poolHidden, bitAt k.hiddenUnacked 0 + bitAt k.sensorFault 1]

/-- Eight levels as a byte: bit n for the nth of the lines from `low` on. -/
def levelByte (f : LineState → Bool) (lines : Bank LineState 16) (low : Nat) : Byte :=
  BitVec.ofNat 8 (((List.range 8).map fun k => bitAt (f (lines.get (Fin.ofNat 16 (low + k)))) k).sum)

def latestByte : Latest → Byte
  | .none => 0xFF
  | .discharged t => BitVec.ofNat 8 t.val
  | .noDischarge => 0x80

/-- The brightness status bytes (R158). -/
def State.brightStatusByte (s : State) (i : Nat) : Byte :=
  match i with
  | 0 => BitVec.ofNat 8 s.display.level.val
  | 1 => BitVec.ofNat 8 s.display.sensed.val
  | 2 => latestByte s.display.latest
  | 3 => BitVec.ofNat 8 s.display.failed.val
  | 4 => BitVec.ofNat 8 (bitAt s.display.sensorFault 0 + bitAt s.display.lampTimer.isSome 1 + bitAt s.testHeld 2
          + bitAt s.display.stepLow 3)
  | _ => 0

/-- The value of a window item as port `p` reads it. -/
def State.regionByte (s : State) (p : PortId) : Region → Byte
  | .ident i => s.identByte p i
  | .eventStatus high => (s.port p).statusByte high
  | .eventEnable high => (s.port p).enableByte high
  | .period => periodByte (s.config.period.get p)
  | .interruptLine => (s.config.interrupt.get p).byte
  | .count i => BitVec.ofNat 8 (s.table.counts.bytes.getD i 0)
  | .counter i => (wordBytes s.latch).getD i 0
  | .levels 0 => levelByte (·.raw) s.lines 0
  | .levels 1 => levelByte (·.raw) s.lines 8
  | .levels 2 => levelByte (·.qualified) s.lines 0
  | .levels _ => levelByte (·.qualified) s.lines 8
  | .resetCause => s.resetCause.byte
  | .lineConfig n i => (s.lineCfg n).byte i
  | .slotMap n i => (s.config.slots.get n).byte i
  | .brightness i => s.config.brightness.byte i
  | .brightStatus i => s.brightStatusByte i
  | .pointDef x i => (s.config.point x).byte i
  | .unused => 0

/-- The lowest byte of the Second Counter takes the latch (R119). -/
def State.takeLatch (s : State) : State := { s with latch := s.counter }

/-- Reading a window item has no effect but that of the Second Counter's lowest byte (R165). -/
def State.readEffect (s : State) : Region → State
  | .counter 0 => s.takeLatch
  | _ => s

/-- One data byte of a window read: its effect, then its value (R119, R165). -/
def State.readByte (s : State) (p : PortId) (addr : Half) : State × Byte :=
  let s := s.readEffect (regionOf addr)
  (s, s.regionByte p (regionOf addr))

/-! Pairs (R166, R167, Table 9-7). -/

inductive Verdict where
  | apply | ignore | refuse
  deriving DecidableEq, Repr

def verdictIf (c : Bool) : Verdict := if c then .apply else .refuse

/-- CONFIGURE, this port the owner, and no store operation. -/
def State.ownerWrites (s : State) (p : PortId) : Bool :=
  decide (s.mode = .configure) && decide (s.owner = some p) && !s.storeBusy

/-- Table 9-7: what becomes of a pair of port `p` whose mask is not 0. -/
def State.verdict (s : State) (p : PortId) : Region → Verdict
  | .ident _ => .ignore
  | .eventStatus _ => verdictIf (s.mode ≠ .starting)
  | .eventEnable _ => verdictIf (s.mode ≠ .starting)
  | .period => verdictIf (decide (s.mode ≠ .starting) && !s.storeBusy)
  | .interruptLine => verdictIf (decide (s.mode ≠ .starting) && !s.storeBusy)
  | .count _ => .ignore
  | .counter _ => .ignore
  | .levels _ => .ignore
  | .resetCause => verdictIf (s.mode ≠ .starting)
  | .lineConfig _ _ => verdictIf (s.ownerWrites p)
  | .slotMap _ _ => verdictIf (s.ownerWrites p)
  | .brightness _ => verdictIf (decide (s.mode = .operate) || s.ownerWrites p)
  | .brightStatus _ => .ignore
  | .pointDef _ _ => verdictIf (s.ownerWrites p)
  | .unused => .ignore

/-- A change of the period restarts the timer (R174). -/
def State.writePeriod (s : State) (p : PortId) (x : Fin 8) : State :=
  if s.config.period.get p = x then s
  else ({ s with config := { s.config with period := s.config.period.set p x } } : State).startTimer p

/-- The Slot Map entry takes its value; sensing follows at once (R129, R155). -/
def State.writeSlot (s : State) (n : Fin 64) (e : SlotEntry) : State :=
  ({ s with config := { s.config with slots := s.config.slots.set n e } } : State).sensingFollows
    s.config.sensorSlot s.config.brightness.sensePeriod

/-- The brightness configuration takes its value: a change of the mode to STEP sets the step position HIGH (R154),
and sensing follows (R155). -/
def State.writeBrightness (s : State) (b : Brightness) : State :=
  let toStep := decide (b.mode = .step) && decide (s.config.brightness.mode ≠ .step)
  let t := { s with
    config := { s.config with brightness := b }
    display := if toStep then { s.display with stepLow := false } else s.display }
  t.sensingFollows s.config.sensorSlot s.config.brightness.sensePeriod

/-- A pair applied to a writable item (R166, R168). -/
def State.applyPair (s : State) (p : PortId) (region : Region) (mask data : Byte) : State :=
  let b := merge (s.regionByte p region) mask data
  match region with
  | .eventStatus high => s.onPort p (·.clearStatus high mask data)
  | .eventEnable high => s.onPort p (·.writeEnable high mask data)
  | .period => s.writePeriod p (setPeriodByte (s.config.period.get p) b)
  | .interruptLine =>
    { s with config := { s.config with interrupt := s.config.interrupt.set p (InterruptConfig.ofByte b) } }
  | .resetCause => { s with resetCause := s.resetCause.clear (mask &&& data) }
  | .lineConfig n i => s.setLineConfig n ((s.lineCfg n).setByte i b)
  | .slotMap n i => s.writeSlot n ((s.config.slots.get n).setByte i b)
  | .brightness i => s.writeBrightness (s.config.brightness.setByte i b)
  | .pointDef x i =>
    { s with config := { s.config with
        points := s.config.points.set x ((s.config.point x).setByte (isSystem x) i b) } }
  | .ident _ => s
  | .count _ => s
  | .counter _ => s
  | .levels _ => s
  | .brightStatus _ => s
  | .unused => s

/-- A pair at the address `addr` of an open write frame whose earlier pairs left `refused` (R166, R167): the next
pair falls on the next address, wrapping from 65535 to 0. -/
def State.judgePair (s : State) (p : PortId) (addr : Half) (refused : Bool) (mask data : Byte) : State :=
  let region := regionOf addr
  let verdict := if mask = 0 then .ignore else s.verdict p region
  let t := if verdict = .apply then s.applyPair p region mask data else s
  t.onPort p fun x => { x with frame := some (.write (addr + 1) (refused || decide (verdict = .refuse))) }

end Sys2Proof.Machine
end

