-- ==== Sys2Proof/Machine/Frames.lean ====
section
/-! DEFINITION. The meanings of the frames and of the pairs of a window write (chapter 9, R160 to R171). -/

namespace Sys2Proof.Machine

/-! Kinds of frame (R161, R179). -/

/-- The kind of frame that a kind byte selects; none is a status-only frame. -/
def frameKindOf (b : Byte) : Option FrameKind :=
  if b = 0xA1 then some .windowRead
  else if b = 0xA2 then some .windowWrite
  else if b = 0xA4 then some .request
  else if b = 0xA8 then some .responseRead
  else none

/-- The kind byte of a kind of frame. -/
def kindByte : FrameKind → Byte
  | .windowRead => 0xA1
  | .windowWrite => 0xA2
  | .request => 0xA4
  | .responseRead => 0xA8

/-- An open frame past its kind byte is of kind `k`; none is a status-only frame. -/
def OpenFrame.isOf (k : Option FrameKind) : OpenFrame → Bool
  | .selected => false
  | .statusOnly => k == none
  | .address writes _ => k == some (if writes then .windowWrite else .windowRead)
  | .read _ => k == some .windowRead
  | .write _ _ => k == some .windowWrite
  | .writeMask _ _ _ => k == some .windowWrite
  | .request _ _ => k == some .request
  | .response _ _ _ => k == some .responseRead

/-! Chip-select falls. -/

def State.noFrame (s : State) (p : PortId) : Bool := (s.port p).frame.isNone

def State.setFrame (s : State) (p : PortId) (f : OpenFrame) : State :=
  s.onPort p fun x => { x with frame := some f }

/-- Chip-select falls: the first byte to be shifted out is the status byte of this moment (R161). -/
def State.select (s : State) (p : PortId) : State :=
  s.onPort p fun x => { x with frame := some .selected, out := [s.status p] }

/-! A byte is received (R160, R161): the port shifts out the byte that the open frame calls for, as it stands at the
start of that byte, and then acts on the byte received. -/

/-- The request can be taken if the mailbox is EMPTY (R163). -/
def State.canTake (s : State) (p : PortId) : Bool := decide ((s.port p).mailbox = .empty)

/-- The operand bytes a request frame needs: a length above 5 counts as 5 (R169). -/
def operandsNeeded (len : Byte) : Nat := min len.toNat 5

/-- The request in the bytes after a request frame's kind byte, once they are all there (R169). -/
def requestOf : List Byte → Option Request
  | code :: len :: operands =>
    if operandsNeeded len ≤ operands.length then some ⟨code, len, operands.take (operandsNeeded len)⟩ else none
  | _ => none

/-- The bytes of a request with `b` received after them: bytes after the last operand are not read (R169). -/
def requestBytes (bs : List Byte) (b : Byte) : List Byte := if (requestOf bs).isSome then bs else bs ++ [b]

/-- What the kind byte `b` opens (R161); the decision on a request falls at its end (R163). -/
def State.opens (s : State) (p : PortId) (b : Byte) : OpenFrame :=
  match frameKindOf b with
  | some .windowRead => .address false none
  | some .windowWrite => .address true none
  | some .request => .request (s.canTake p) []
  | some .responseRead => .response none 0 false
  | none => .statusOnly

/-- The frame past the address `a` (R165, R166). -/
def OpenFrame.addressed (writes : Bool) (a : Half) : OpenFrame := if writes then .write a false else .read a

/-- The status byte is shifted out again (R161). -/
def State.shiftStatus (s : State) (p : PortId) : State := s.shiftOut p [s.status p]

/-- A byte after the kind byte of a status-only frame: what is shifted out is a free value (assumption 6). -/
def State.shiftFree (s : State) (p : PortId) : State :=
  ({ s with freeCount := s.freeCount + 1 } : State).shiftOut p [Config.statusOnlyByte s.freeCount]

/-- One data byte at `addr`; the next is at the next address, wrapping from 65535 to 0 (R165). -/
def State.shiftWindowByte (s : State) (p : PortId) (addr : Half) : State :=
  let x := s.readByte p addr
  (x.1.shiftOut p [x.2]).setFrame p (.read (addr + 1))

/-- Byte `i` of a copy of the buffer; bytes beyond the 24th read 0 (R171). -/
def copyByte (copy : Bank Byte 24) (i : Nat) : Byte := copy.items.getD i 0

/-- One data byte of a response read: the frame's first takes the copy and notes whether RESP_READY is set (R171). -/
def Port.shiftResponse (copy : Option (Bank Byte 24)) (k : Nat) (clears : Bool) (x : Port) : Port :=
  let c := copy.getD x.buffer
  { x with
    frame := some (.response (some c) (k + 1) (if copy.isSome then clears else x.respReady))
    out := x.out ++ [copyByte c k] }

/-- The byte `b` is received in the open frame `f`. The byte shifted out with the kind byte was settled when
chip-select fell. An address is most significant byte first (R165); a pair is judged at its data byte (R166). -/
def State.receiveIn (s : State) (p : PortId) (b : Byte) : OpenFrame → State
  | .selected => s.setFrame p (s.opens p b)
  | .statusOnly => s.shiftFree p
  | .address writes none => (s.shiftStatus p).setFrame p (.address writes (some b))
  | .address writes (some high) => (s.shiftStatus p).setFrame p (.addressed writes (high ++ b))
  | .read next => s.shiftWindowByte p next
  | .write next refused => (s.shiftStatus p).setFrame p (.writeMask next refused b)
  | .writeMask next refused mask =>
    ((s.shiftStatus p).setFrame p (.write next refused)).judgePair p next refused mask b
  | .request take bytes =>
    (s.shiftOut p [s.statusWith p (!take)]).setFrame p (.request take (requestBytes bytes b))
  | .response copy k clears => s.onPort p (·.shiftResponse copy k clears)

def State.receive (s : State) (p : PortId) (b : Byte) : State :=
  match (s.port p).frame with
  | none => s
  | some f => s.receiveIn p b f

def State.receiveAll (s : State) (p : PortId) (bs : List Byte) : State := bs.foldl (fun s b => s.receive p b) s

/-! Chip-select rises (R160, R161, R164). -/

/-- The frame is complete if chip-select rises now (R161). -/
def OpenFrame.complete : OpenFrame → Bool
  | .selected => false
  | .statusOnly => true
  | .address _ _ => false
  | .read _ => true
  | .write _ _ => true
  | .writeMask _ _ _ => false
  | .request _ bytes => (requestOf bytes).isSome
  | .response _ _ _ => true

/-- A complete request frame that is taken (R169), or not (R163). -/
def Port.submit (x : Port) (take : Bool) (r : Request) : Port :=
  if take then { x with mailbox := .waiting r, respReady := false, refused := false }
  else { x with refused := true }

/-- WRITE_REFUSED once for a frame in which a pair was refused (R167). -/
def State.reportRefused (s : State) (p : PortId) (refused : Bool) : State :=
  if refused then s.postTo p .writeRefused else s

def State.closeFrame (s : State) (p : PortId) : State := s.onPort p fun x => { x with frame := none }

/-- What the end of a frame brings about by its kind: a status-only frame posts FRAME_ERROR (R161), a write frame
reports refused pairs whether complete or cut short (R167), a request is submitted or not taken if it is complete
(R163, R169), a response read may clear RESP_READY (R171). -/
def State.endFrame (s : State) (p : PortId) : OpenFrame → State
  | .selected => s
  | .statusOnly => s.postTo p .frameError
  | .address _ _ => s
  | .read _ => s
  | .write _ refused => s.reportRefused p refused
  | .writeMask _ refused _ => s.reportRefused p refused
  | .request take bytes =>
    match requestOf bytes with
    | none => s
    | some r => s.onPort p (·.submit take r)
  | .response _ _ clears => s.onPort p fun x => { x with respReady := x.respReady && !clears }

/-- Chip-select rises: a frame without a complete byte has no effect (R160); a complete one restarts supervision and
ends a lapse, and one cut short posts FRAME_ERROR (R164). -/
def State.rise (s : State) (p : PortId) : State :=
  match (s.port p).frame with
  | none => s
  | some .selected => s.closeFrame p
  | some f =>
    let t := (s.closeFrame p).endFrame p f
    if f.complete then t.completeFrame p else t.postTo p .frameError

/-! Frames by their parts. -/

/-- The open frame of port `p` is past its kind byte and of the kind that the kind byte `kind` selects. -/
def State.inFrame (s : State) (p : PortId) (kind : Byte) : Bool :=
  (s.port p).frame.any (OpenFrame.isOf (frameKindOf kind))

/-- A part of a frame with the kind byte `kind`; a part that cannot occur now changes nothing (assumption 1). -/
def State.framePart (s : State) (p : PortId) (kind : Byte) : FramePart → State
  | .select => if s.noFrame p then s.select p else s
  | .kind => if (s.port p).frame = some .selected then s.receive p kind else s
  | .bytes bs => if s.inFrame p kind then s.receiveAll p bs else s
  | .finish => if s.inFrame p kind || decide ((s.port p).frame = some .selected) then s.rise p else s
  | .whole bs => if s.noFrame p then (((s.select p).receive p kind).receiveAll p bs).rise p else s

def execRequestFrame (p : PortId) (part : FramePart) (s : State) : Host.Outcome State Fault Refusal :=
  unlessHeld s (s.framePart p (kindByte .request) part)

def execWindowRead (p : PortId) (part : FramePart) (s : State) : Host.Outcome State Fault Refusal :=
  unlessHeld s (s.framePart p (kindByte .windowRead) part)

/-- The data byte of an open window read that is the Second Counter's lowest (R119). -/
def execSecondCounterLatch (p : PortId) (s : State) : Host.Outcome State Fault Refusal :=
  unlessHeld s <| match (s.port p).frame with
    | some (.read addr) => if regionOf addr = .counter 0 then s.shiftWindowByte p addr else s
    | _ => s

def execWindowWrite (p : PortId) (part : FramePart) (s : State) : Host.Outcome State Fault Refusal :=
  unlessHeld s (s.framePart p (kindByte .windowWrite) part)

def execResponseRead (p : PortId) (part : FramePart) (s : State) : Host.Outcome State Fault Refusal :=
  unlessHeld s (s.framePart p (kindByte .responseRead) part)

/-- A frame whose kind byte is none of the four kinds (R161). -/
def execStatusOnlyFrame (p : PortId) (kind : Byte) (part : FramePart) (s : State) :
    Host.Outcome State Fault Refusal :=
  unlessHeld s (if frameKindOf kind = none then s.framePart p kind part else s)

/-- The frame of kind `kind` after the bytes `bs`: in the frame open at the port, or in one that begins here. -/
def State.lastBytes (s : State) (p : PortId) (kind : FrameKind) (bs : List Byte) : State :=
  if s.noFrame p then ((s.select p).receive p (kindByte kind)).receiveAll p bs
  else if s.inFrame p (kindByte kind) then s.receiveAll p bs else s

/-- An open frame of the kind that is not complete. -/
def OpenFrame.short (kind : FrameKind) (f : OpenFrame) : Bool := f.isOf (some kind) && !f.complete

/-- Chip-select rises on a frame that is not complete (R164); otherwise no such step occurs (assumption 1). -/
def execFrameCutShort (p : PortId) (kind : FrameKind) (bs : List Byte) (s : State) :
    Host.Outcome State Fault Refusal :=
  unlessHeld s <|
    let t := s.lastBytes p kind bs
    if (t.port p).frame.any (OpenFrame.short kind) then t.rise p else s

/-! Pairs (R166, R167). -/

/-- A pair received in the window write frame open at port `p` between two pairs, if its address is in `regions`.
Otherwise no such step occurs (assumption 1). -/
def State.pair (s : State) (p : PortId) (regions : Region → Bool) (mask data : Byte) : State :=
  match (s.port p).frame with
  | some (.write addr _) => if regions (regionOf addr) then (s.receive p mask).receive p data else s
  | _ => s

/-- A pair by region and permission (R167), at whatever address it falls. -/
def execWindowWritePair (p : PortId) (mask data : Byte) (s : State) : Host.Outcome State Fault Refusal :=
  unlessHeld s (s.pair p (fun _ => true) mask data)

def Region.isEventStatus : Region → Bool
  | .eventStatus _ => true
  | _ => false

def execEventStatusClear (p : PortId) (mask data : Byte) (s : State) : Host.Outcome State Fault Refusal :=
  unlessHeld s (s.pair p Region.isEventStatus mask data)

def Region.isEventEnable : Region → Bool
  | .eventEnable _ => true
  | _ => false

def execEventEnableWrite (p : PortId) (mask data : Byte) (s : State) : Host.Outcome State Fault Refusal :=
  unlessHeld s (s.pair p Region.isEventEnable mask data)

def execResetCauseClear (p : PortId) (mask data : Byte) (s : State) : Host.Outcome State Fault Refusal :=
  unlessHeld s (s.pair p (· == .resetCause) mask data)

def execSupervisionPeriodWrite (p : PortId) (mask data : Byte) (s : State) : Host.Outcome State Fault Refusal :=
  unlessHeld s (s.pair p (· == .period) mask data)

def execInterruptLineConfigWrite (p : PortId) (mask data : Byte) (s : State) :
    Host.Outcome State Fault Refusal :=
  unlessHeld s (s.pair p (· == .interruptLine) mask data)

def Region.isLineConfig : Region → Bool
  | .lineConfig _ _ => true
  | _ => false

def execLineConfigurationWrite (p : PortId) (mask data : Byte) (s : State) : Host.Outcome State Fault Refusal :=
  unlessHeld s (s.pair p Region.isLineConfig mask data)

def Region.isSlotMap : Region → Bool
  | .slotMap _ _ => true
  | _ => false

def execSlotMapWrite (p : PortId) (mask data : Byte) (s : State) : Host.Outcome State Fault Refusal :=
  unlessHeld s (s.pair p Region.isSlotMap mask data)

def Region.isPointDef : Region → Bool
  | .pointDef _ _ => true
  | _ => false

def execPointDefinitionWrite (p : PortId) (mask data : Byte) (s : State) : Host.Outcome State Fault Refusal :=
  unlessHeld s (s.pair p Region.isPointDef mask data)

def Region.isBrightness : Region → Bool
  | .brightness _ => true
  | _ => false

def execBrightnessConfigurationWrite (p : PortId) (mask data : Byte) (s : State) :
    Host.Outcome State Fault Refusal :=
  unlessHeld s (s.pair p Region.isBrightness mask data)

end Sys2Proof.Machine
end

