-- ==== Sys2Proof/Machine/RecordRequests.lean ====
section
/-! DEFINITION. The meanings of the record requests and of LOOKUP, FIND_NEXT (chapter 4, R68 to R90). -/

namespace Sys2Proof.Machine

/-! The checks that requests share (R69 to R71). -/

/-- The service goes on when `c` holds, and is refused with `x` otherwise. -/
def require (s : State) (c : Bool) (x : Result) (k : Reply) : Reply :=
  if c then k else Reply.refuse s x

/-- Mode, point and form checks of a request that names a point (R69): no operand byte passes the point check over
and fails the form check. -/
def onPoint (r : Request) (s : State) (form : Bool) (k : Point → Reply) : Reply :=
  require s (decide (s.mode = .operate)) .wrongMode <|
    match r.operands.head? with
    | none => Reply.refuse s .badRequest
    | some b =>
      match (pointOfByte b).filter s.config.defined with
      | none => Reply.refuse s .badPoint
      | some p => require s form .badRequest (k p)

/-- Mode and form checks of a record request that names no point. -/
def onTable (s : State) (form : Bool) (k : Reply) : Reply :=
  require s (decide (s.mode = .operate)) .wrongMode (require s form .badRequest k)

/-- The record check (R69): the live record of the point. -/
def withRecord (s : State) (p : Point) (k : Record → Reply) : Reply :=
  match s.table.recordOf p with
  | none => Reply.refuse s .noRecord
  | some x => k x

/-- The revision check (R84): a mismatch carries the report as it stands. -/
def ifCurrent (s : State) (p : Point) (expected : Option Half) (k : Reply) : Reply :=
  match expected with
  | none => k
  | some v => if (s.table.live p).revision = v then k else ⟨s, Svc.start s.table, ⟨.stale, 0, some p⟩⟩

/-- The point is a user point that may be shelved (R81, R82). -/
def ConfigMem.mayShelve (c : ConfigMem) (p : Point) : Bool := !isSystem p && (c.point p).shelvable

/-- The changed flag (R72): the service increases the point's revision. -/
def Svc.hasChanged (w : Svc) (p : Point) : Bool := w.touched.contains p

/-- OK with the changed flag as detail and the report of the point (R72). -/
def changedReply (s : State) (w : Svc) (p : Point) : Reply :=
  ⟨s, w, ⟨.ok, BitVec.ofNat 8 (bitAt (w.hasChanged p) 0), some p⟩⟩

/-- The placement of R73: 0 NONE, 1 RECORD, 2 WAITING. -/
def Svc.placement (w : Svc) (p : Point) : Nat :=
  if (w.tab.recordOf p).isSome then 1 else if (w.tab.live p).waiting then 2 else 0

/-- OK with the changed flag and the placement as detail (R73). -/
def placedReply (s : State) (w : Svc) (p : Point) : Reply :=
  ⟨s, w, ⟨.ok, BitVec.ofNat 8 (bitAt (w.hasChanged p) 0 + 2 * w.placement p), some p⟩⟩

/-- OK with a number as detail and no report. -/
def countReply (s : State) (w : Svc) (n : Nat) : Reply := ⟨s, w, Answer.detailed n⟩

/-! RAISE, RETURN, PULSE (R73). -/

/-- A condition request: a PORT-source point, one operand byte. -/
def conditionBody (f : Ctx → Point → Svc → Svc) (r : Request) (s : State) : Reply :=
  onPoint r s (r.lengthIn [1]) fun p =>
    require s (decide ((s.config.point p).source = .port)) .sourceMismatch <|
      placedReply s (f s.ctx p (Svc.start s.table)) p

def execRaise (p : PortId) (s : State) : Host.Outcome State Fault Refusal :=
  unlessHeld s (s.serve p (· == 0x10) (conditionBody fun c x w => w.assertPoint c x))

def execReturn (p : PortId) (s : State) : Host.Outcome State Fault Refusal :=
  unlessHeld s (s.serve p (· == 0x11) (conditionBody fun c x w => w.returnPoint c x))

def execPulse (p : PortId) (s : State) : Host.Outcome State Fault Refusal :=
  unlessHeld s (s.serve p (· == 0x12) (conditionBody fun c x w => (w.assertPoint c x).returnPoint c x))

/-! Acknowledgement (R74, R75). -/

/-- ACK's detail: the prior state and the changed flag (Table 9-3). -/
def ackDetail (prior : RecState) (changed : Bool) : Byte := BitVec.ofNat 8 (prior.code + bitAt changed 7)

def ackBody (p : PortId) (r : Request) (s : State) : Reply :=
  onPoint r s (r.lengthIn [1, 3]) fun x =>
    withRecord s x fun rec =>
      ifCurrent s x (r.expected 1) <|
        let w := (Svc.start s.table).ack s.ctx (.port p) x
        ⟨s, w, ⟨.ok, ackDetail rec.state (w.hasChanged x), some x⟩⟩

def execAck (p : PortId) (s : State) : Host.Outcome State Fault Refusal :=
  unlessHeld s (s.serve p (· == 0x20) (ackBody p))

/-- A multi-record acknowledgement: every member of the selection is changed by its ack (R75). -/
def ackManyBody (p : PortId) (select : Table → List Point) (r : Request) (s : State) : Reply :=
  onTable s (r.lengthIn [0]) <|
    countReply s ((Svc.start s.table).ackEach s.ctx (.port p) (select s.table)) (select s.table).length

def execAckVisible (p : PortId) (s : State) : Host.Outcome State Fault Refusal :=
  unlessHeld s (s.serve p (· == 0x21) (ackManyBody p Table.visibleUnacked))

def execAckAll (p : PortId) (s : State) : Host.Outcome State Fault Refusal :=
  unlessHeld s (s.serve p (· == 0x22) (ackManyBody p Table.unshelvedUnacked))

/-! SILENCE (R76). -/

def silenceBody (r : Request) (s : State) : Reply :=
  onTable s (r.lengthIn [0]) (countReply s (Svc.start s.table).silence s.table.soundingCount)

def execSilence (p : PortId) (s : State) : Host.Outcome State Fault Refusal :=
  unlessHeld s (s.serve p (· == 0x23) silenceBody)

/-! RESET, RESET_ALL, FORCE_RETIRE (R77 to R79). -/

def resetBody (r : Request) (s : State) : Reply :=
  onPoint r s (r.lengthIn [1, 3]) fun x =>
    withRecord s x fun rec =>
      ifCurrent s x (r.expected 1) <|
        require s (decide (rec.state = .held)) .wrongState <|
          changedReply s ((Svc.start s.table).reset s.ctx x) x

def execReset (p : PortId) (s : State) : Host.Outcome State Fault Refusal :=
  unlessHeld s (s.serve p (· == 0x28) resetBody)

def resetAllBody (r : Request) (s : State) : Reply :=
  onTable s (r.lengthIn [0]) <|
    countReply s ((Svc.start s.table).resetEach s.ctx s.table.heldPoints) s.table.heldPoints.length

def execResetAll (p : PortId) (s : State) : Host.Outcome State Fault Refusal :=
  unlessHeld s (s.serve p (· == 0x29) resetAllBody)

def forceRetireBody (r : Request) (s : State) : Reply :=
  onPoint r s (r.lengthIn [1, 3]) fun x =>
    require s (!isSystem x) .notPermitted <|
      require s ((s.table.recordOf x).isSome || (s.table.live x).waiting) .noRecord <|
        ifCurrent s x (r.expected 1) <|
          require s (!(s.table.live x).condition) .conditionPresent <|
            changedReply s ((Svc.start s.table).forceRetire s.ctx x) x

def execForceRetire (p : PortId) (s : State) : Host.Outcome State Fault Refusal :=
  unlessHeld s (s.serve p (· == 0x2A) forceRetireBody)

/-! SHELVE, UNSHELVE (R81, R82). -/

/-- The deadline and source that a SHELVE of port `p` sets (R120). -/
def shelfFor (p : PortId) (now : Word) (seconds : Half) : ShelfPart := ⟨now + seconds.setWidth 32, p⟩

def shelveBody (p : PortId) (r : Request) (s : State) : Reply :=
  onPoint r s (r.lengthIn [3, 5] && decide (r.half 1 ≠ 0)) fun x =>
    require s (s.config.mayShelve x) .notPermitted <|
      withRecord s x fun _ =>
        ifCurrent s x (r.expected 3) <|
          changedReply s ((Svc.start s.table).shelve x (shelfFor p s.counter (r.half 1))) x

def execShelve (p : PortId) (s : State) : Host.Outcome State Fault Refusal :=
  unlessHeld s (s.serve p (· == 0x30) (shelveBody p))

def unshelveBody (r : Request) (s : State) : Reply :=
  onPoint r s (r.lengthIn [1, 3]) fun x =>
    require s (s.config.mayShelve x) .notPermitted <|
      withRecord s x fun rec =>
        ifCurrent s x (r.expected 1) <|
          require s rec.shelf.isSome .wrongState <|
            changedReply s ((Svc.start s.table).unshelve s.ctx x) x

def execUnshelve (p : PortId) (s : State) : Host.Outcome State Fault Refusal :=
  unlessHeld s (s.serve p (· == 0x31) unshelveBody)

/-! INHIBIT, ENABLE (R80). -/

def inhibitBody (f : Ctx → Point → Svc → Svc) (r : Request) (s : State) : Reply :=
  onPoint r s (r.lengthIn [1]) fun x =>
    require s (!isSystem x) .notPermitted (changedReply s (f s.ctx x (Svc.start s.table)) x)

def execInhibit (p : PortId) (s : State) : Host.Outcome State Fault Refusal :=
  unlessHeld s (s.serve p (· == 0x34) (inhibitBody fun c x w => w.inhibit c x))

def execEnable (p : PortId) (s : State) : Host.Outcome State Fault Refusal :=
  unlessHeld s (s.serve p (· == 0x35) (inhibitBody fun c x w => w.enable c x))

/-! FIRST_OUT_RESET (R83). -/

/-- The point a group marks, or 255 (R83). -/
def markByte : Option Point → Nat
  | none => 255
  | some p => p.val

def firstOutResetBody (r : Request) (s : State) : Reply :=
  onTable s (r.lengthIn [1] && decide (1 ≤ (r.byte 0).toNat ∧ (r.byte 0).toNat ≤ 7)) <|
    let g := Fin.ofNat 7 ((r.byte 0).toNat - 1)
    countReply s ((Svc.start s.table).firstOutReset g) (markByte (s.table.groups.get g).mark)

def execFirstOutReset (p : PortId) (s : State) : Host.Outcome State Fault Refusal :=
  unlessHeld s (s.serve p (· == 0x38) firstOutResetBody)

/-! LOOKUP, FIND_NEXT (R85, R88, R89). -/

/-- The port's watch set to the named point (R85). -/
def State.watchIf (s : State) (c : Bool) (p : PortId) (x : Point) : State :=
  if c then s.onPort p fun y => { y with watch := some x } else s

def lookupBody (p : PortId) (r : Request) (s : State) : Reply :=
  onPoint r s (r.lengthIn [2] && decide ((r.byte 1).toNat ≤ 1)) fun x =>
    let s := s.watchIf (r.byte 1 == 1) p x
    withRecord s x fun _ => ⟨s, Svc.start s.table, ⟨.ok, 0, some x⟩⟩

def execLookup (p : PortId) (s : State) : Host.Outcome State Fault Refusal :=
  unlessHeld s (s.serve p (· == 0x40) (lookupBody p))

/-- The record matches FIND_NEXT's three filters (R89, Table 9-3). -/
def findMatches (cfg : ConfigMem) (mask : Byte) (minClass selector : Nat) (r : Record) : Bool :=
  mask.getLsbD r.state.code && decide (minClass ≤ (cfg.point r.point).cls.val)
    && (decide (selector = 0) || (r.shelf.isSome == decide (selector = 1)))

/-- The search from a place in the Rank List on (R89). -/
def findFrom (r : Request) (s : State) (rank : List Point) : Reply :=
  let found := rank.find? fun p => match s.table.recordOf p with
    | none => false
    | some x => findMatches s.config (r.byte 1) (r.byte 2).toNat (r.byte 3).toNat x
  match found with
  | none => Reply.refuse s .endOfList
  | some p => ⟨s, Svc.start s.table, ⟨.ok, 0, some p⟩⟩

/-- FIND_NEXT's form: four operand bytes, mask bits 7 to 5 zero, a class, a selector (R71, Table 9-3). -/
def findForm (r : Request) : Bool :=
  r.lengthIn [4] && decide ((r.byte 1).toNat < 32) && decide ((r.byte 2).toNat ≤ 7) && decide ((r.byte 3).toNat ≤ 2)

def findNextBody (r : Request) (s : State) : Reply :=
  if r.operands.head? = some 255 then onTable s (findForm r) (findFrom r s s.table.rank)
  else
    onPoint r s (findForm r) fun x =>
      withRecord s x fun _ => findFrom r s (s.table.rank.drop (s.table.rankOf x + 1))

def execFindNext (p : PortId) (s : State) : Host.Outcome State Fault Refusal :=
  unlessHeld s (s.serve p (· == 0x41) findNextBody)

/-! A code that names none of the twenty-five requests (R68). -/

def unknownBody (_ : Request) (s : State) : Reply :=
  require s (decide (s.mode ≠ .starting)) .wrongMode (Reply.refuse s .badRequest)

def execUnknownRequest (p : PortId) (s : State) : Host.Outcome State Fault Refusal :=
  unlessHeld s (s.serve p (fun b => !requestCodes.contains b) unknownBody)

end Sys2Proof.Machine
end

