-- ==== Sys2Proof/Machine/ModeRequests.lean ====
section
/-! DEFINITION. The meanings of the port, mode and store requests (chapter 4, R85, R92 to R95; chapter 10). -/

namespace Sys2Proof.Machine

/-- A request accepted in CONFIGURE and OPERATE, with its form check (R68). -/
def outsideStarting (s : State) (form : Bool) (k : Reply) : Reply :=
  require s (decide (s.mode ≠ .starting)) .wrongMode (require s form .badRequest k)

/-- OK with detail 0 and no report, with nothing of the tables changed. -/
def okReply (s : State) : Reply := ⟨s, Svc.start s.table, Answer.plain .ok⟩

/-! CLEAR_WATCH (R85) and LAMP_TEST (R92, R150). -/

def clearWatchBody (p : PortId) (r : Request) (s : State) : Reply :=
  outsideStarting s (r.lengthIn [0]) <|
    countReply (s.onPort p fun x => { x with watch := none }) (Svc.start s.table)
      (bitAt (s.port p).watch.isSome 0)

def execClearWatch (p : PortId) (s : State) : Host.Outcome State Fault Refusal :=
  unlessHeld s (s.serve p (· == 0x42) (clearWatchBody p))

/-- The port-started test started, restarted or stopped (R150). -/
def State.setLampTest (s : State) (seconds : Nat) : State :=
  { s with display := { s.display with lampTimer := if seconds = 0 then none else some seconds } }

def lampTestBody (r : Request) (s : State) : Reply :=
  outsideStarting s (r.lengthIn [1] && decide ((r.byte 0).toNat ≤ 10)) <|
    okReply (s.setLampTest (r.byte 0).toNat)

def execLampTest (p : PortId) (s : State) : Host.Outcome State Fault Refusal :=
  unlessHeld s (s.serve p (· == 0x48) lampTestBody)

/-! ENTER_CONFIGURE and RELEASE_CONFIG (R184 to R186). -/

/-- The requester becomes owner, unless its lapse state is present at the service (R185). -/
def State.takeOwnership (s : State) (p : PortId) : State :=
  { s with owner := if (s.port p).lapse then none else some p }

/-- Teardown ends a watch whose point it leaves unchanged; the completion fires the others (R87). -/
def Port.endWatch (touched : List Point) (x : Port) : Port :=
  match x.watch with
  | none => x
  | some p => if touched.contains p then x else { x with watch := none }

/-- The teardown of R186, steps 4 and 5, in the other blocks. -/
def State.enterConfigure (s : State) (p : PortId) : State :=
  let touched := (Svc.teardown s.table).touched
  let s := s.dropLineItems.clearMarks.onPorts (Port.endWatch touched)
  ({ s with mode := .configure } : State).takeOwnership p

def enterConfigureBody (p : PortId) (r : Request) (s : State) : Reply :=
  outsideStarting s (r.lengthIn [1] && decide ((r.byte 0).toNat ≤ 1)) <|
    if s.mode = .operate then
      require s (s.table.isEmpty || decide (r.byte 0 = 1)) .tableNotEmpty
        ⟨s.enterConfigure p, Svc.teardown s.table, Answer.plain .ok⟩
    else
      require s (decide (s.owner ≠ some (other p))) .notOwner (okReply (s.takeOwnership p))

def execEnterConfigure (p : PortId) (s : State) : Host.Outcome State Fault Refusal :=
  unlessHeld s (s.serve p (· == 0x50) (enterConfigureBody p))

/-- Mode, form and ownership checks of a request of the owner (R93). -/
def asOwner (p : PortId) (r : Request) (s : State) (k : Reply) : Reply :=
  require s (decide (s.mode = .configure)) .wrongMode <|
    require s (r.lengthIn [0]) .badRequest <|
      require s (decide (s.owner = some p)) .notOwner k

def releaseConfigBody (p : PortId) (r : Request) (s : State) : Reply :=
  asOwner p r s (okReply { s with owner := none })

def execReleaseConfig (p : PortId) (s : State) : Host.Outcome State Fault Refusal :=
  unlessHeld s (s.serve p (· == 0x51) (releaseConfigBody p))

/-! The entry to OPERATE (R189) and LEAVE_CONFIGURE (R188). -/

/-- The system points whose sources report their conditions present, in point order (R7, R189 step 3). -/
def State.systemSources (s : State) : List Point :=
  (if s.table.waiting.isEmpty then [] else [tableFullPoint])
    ++ (if s.ports.a.lapse then [lapsePoint .a] else [])
    ++ (if s.ports.b.lapse then [lapsePoint .b] else [])
    ++ (if s.storeFault then [storeFaultPoint] else [])

/-- Steps 1, 2 and 4 of R189. -/
def State.enterOperate (s : State) : State :=
  let s := { s with mode := .operate, owner := none }.dropLineItems
  ({ s with lines := s.lines.map fun l => { l with pressSeen := false } } : State).postSenseLines

/-- Step 3 of R189. -/
def State.entryService (s : State) : Svc :=
  let w := s.systemSources.foldl (fun w p => w.assertPoint s.ctx p) (Svc.start s.table)
  { w with modeChange := true }

def leaveConfigureBody (p : PortId) (r : Request) (s : State) : Reply :=
  asOwner p r s <|
    require s (!s.storeBusy) .storeBusy <|
      match s.config.firstFailure with
      | some n => ⟨s, Svc.start s.table, ⟨.invalidConfig, BitVec.ofNat 8 n, none⟩⟩
      | none => ⟨s.enterOperate, s.entryService, Answer.plain .ok⟩

def execLeaveConfigure (p : PortId) (s : State) : Host.Outcome State Fault Refusal :=
  unlessHeld s (s.serve p (· == 0x52) (leaveConfigureBody p))

/-! SAVE_STORE and LOAD_STORE (R94, R193, R194): the service that takes one writes no response. -/

/-- What refuses a SAVE_STORE or LOAD_STORE, if anything does (R93). -/
def storeRefusal (p : PortId) (r : Request) (s : State) : Option Result :=
  if s.mode ≠ .configure then some .wrongMode
  else if !r.lengthIn [0] then some .badRequest
  else if s.owner ≠ some p then some .notOwner
  else if s.storeBusy then some .storeBusy
  else none

/-- The mailbox goes to STORE WAIT, and the service completes without a response (R94). -/
def State.storeTaken (s : State) (p : PortId) : State :=
  (s.onPort p fun x => { x with mailbox := .storeWait }).complete (Svc.start s.table)

/-- A refusal is delivered like any completion (R68). -/
def State.refuseWith (s : State) (p : PortId) (x : Result) : State :=
  s.completeWith p (Svc.start s.table) (Answer.plain x)

/-- R193: auto-run by validation, the image taken, the save mark set, ERASING. -/
def State.startSave (s : State) (p : PortId) : State :=
  let c := { s.config with autoRun := s.config.valid }
  { s with config := c, saveMark := true, storeOp := .erasing p (imageBytes c) }

def saveStoreService (p : PortId) (r : Request) (s : State) : State :=
  match storeRefusal p r s with
  | some x => s.refuseWith p x
  | none => (s.startSave p).storeTaken p

def execSaveStore (p : PortId) (s : State) : Host.Outcome State Fault Refusal :=
  unlessHeld s (s.serveBy p (· == 0x58) (saveStoreService p))

def loadStoreService (p : PortId) (r : Request) (s : State) : State :=
  match storeRefusal p r s with
  | some x => s.refuseWith p x
  | none => ({ s with storeOp := .reading p } : State).storeTaken p

def execLoadStore (p : PortId) (s : State) : Host.Outcome State Fault Refusal :=
  unlessHeld s (s.serveBy p (· == 0x59) (loadStoreService p))

/-! RESTART (R95, R198): the service begins STARTING; END_OF_STARTING is its completion (assumption 4). -/

def restartRefusal (r : Request) (s : State) : Option Result :=
  if s.mode = .starting then some .wrongMode
  else if !r.lengthIn [0] then some .badRequest
  else if s.storeBusy then some .storeBusy
  else none

/-- A frame in progress when a RESTART is granted (R163, R178): a request that was to be taken is not taken any more.
A response read keeps its copy of the buffer, if it has taken it: the model's choice (assumption 29). -/
def OpenFrame.untaken : OpenFrame → OpenFrame
  | .request _ bytes => .request false bytes
  | .selected => .selected
  | .statusOnly => .statusOnly
  | .address writes high => .address writes high
  | .read next => .read next
  | .write next refused => .write next refused
  | .writeMask next refused mask => .writeMask next refused mask
  | .response copy shifted clears => .response copy shifted clears

/-- A port when a RESTART is granted (R178, R198): the event enables and a frame in progress are kept, the mailbox is
HELD, the rest is as after a pin reset. -/
def Port.restart (x : Port) : Port :=
  { Port.reset with
    mailbox := .held
    enable := x.enable
    frame := x.frame.map OpenFrame.untaken
    out := x.out }

/-- The Display Unit when a RESTART is granted (R159). -/
def Display.restart (d : Display) : Display :=
  { Display.reset with
    sensed := d.sensed
    latest := d.latest
    failed := d.failed
    sensorFault := d.sensorFault }

/-- A RESTART taken (R198). -/
def State.restart (s : State) : State :=
  { s with
    mode := .starting
    owner := none
    resetCause := { s.resetCause with restart := true }
    startOperate := decide (s.mode = .operate) && s.config.valid
    storeOp := .idle
    engine := .serving
    pointer := .mailbox .a
    queue := []
    table := Table.reset
    ports := s.ports.map Port.restart
    lines := s.lines.map LineState.restart
    counter := 0
    latch := 0
    display := s.display.restart }

def restartService (p : PortId) (r : Request) (s : State) : State :=
  match restartRefusal r s with
  | some x => s.refuseWith p x
  | none => s.restart

def execRestart (p : PortId) (s : State) : Host.Outcome State Fault Refusal :=
  unlessHeld s (s.serveBy p (· == 0x5F) (restartService p))

end Sys2Proof.Machine
end

