-- ==== Sys2Proof/Machine/Items.lean ====
section
/-! DEFINITION. The meanings of the services of Work Queue items (chapter 5, R109 to R111; R19, R94, R125). -/

namespace Sys2Proof.Machine

/-! Line items: the role is read at the service (R110). -/

/-- The service of the item of line `n` when its role is one of `roles`: the marks are read and cleared at the grant
(R109, R110). -/
def State.serveLine (s : State) (n : Fin 16) (roles : LineRole → Bool) (act : LineState → State → Svc) : State :=
  if roles (s.lineCfg n).role then
    s.serveItem (.line n) fun s =>
      let l := s.line n
      let s := s.setLine n l.clearMarks
      s.complete (if s.mode = .operate then act l s else Svc.start s.table)
  else s

/-- The events that a SENSE line delivers to its point (R109): `l` is the line as taken at the grant. -/
def senseEvents (cfg : LineConfig) (l : LineState) (c : Ctx) (p : Point) (w : Svc) : Svc :=
  let w := if l.assertSeen then w.assertPoint c p else w
  if cfg.senseMode.isLevel && asserted cfg l then w.assertPoint c p else w.returnPoint c p

def senseService (n : Fin 16) (l : LineState) (s : State) : Svc :=
  match s.config.pointOfLine n with
  | none => Svc.start s.table
  | some p => senseEvents (s.lineCfg n) l s.ctx p (Svc.start s.table)

def execSenseLineItem (n : Fin 16) (s : State) : Host.Outcome State Fault Refusal :=
  unlessHeld s (s.serveLine n (· == .sense) (senseService n))

/-- The roles under which a button's item does nothing but clear its mark (R110, assumption 21). -/
def LineRole.idleItem (r : LineRole) : Bool := decide (r ≠ .sense) && !r.postsPress

/-- The action of a button line with the role `role`, once, if the press-seen mark was set (R91, R110). -/
def buttonService (role : LineRole) (n : Fin 16) (act : Ctx → Svc → Svc) (l : LineState) (s : State) : Svc :=
  if l.pressSeen && (s.lineCfg n).role == role then act s.ctx (Svc.start s.table) else Svc.start s.table

def execButtonAckItem (n : Fin 16) (s : State) : Host.Outcome State Fault Refusal :=
  unlessHeld s (s.serveLine n (fun r => r == .buttonAck || r.idleItem)
    (buttonService .buttonAck n fun c w => w.ackEach c .panel w.tab.visibleUnacked))

def execButtonSilenceItem (n : Fin 16) (s : State) : Host.Outcome State Fault Refusal :=
  unlessHeld s (s.serveLine n (fun r => r == .buttonSilence || r.idleItem)
    (buttonService .buttonSilence n fun _ w => w.silence))

def execButtonResetItem (n : Fin 16) (s : State) : Host.Outcome State Fault Refusal :=
  unlessHeld s (s.serveLine n (fun r => r == .buttonReset || r.idleItem)
    (buttonService .buttonReset n fun c w => w.resetEach c w.tab.visibleHeld))

/-! SHELF_DUE (R125), LAPSE (R19), SENSOR (R111). -/

def execShelfDueItem (s : State) : Host.Outcome State Fault Refusal :=
  unlessHeld s (s.serveItem .shelfDue fun s => s.complete ((Svc.start s.table).unshelveDue s.ctx))

/-- The lapse state as it stands at service time, in OPERATE (R19). -/
def lapseService (p : PortId) (s : State) : Svc :=
  if s.mode = .operate then
    if (s.port p).lapse then (Svc.start s.table).assertPoint s.ctx (lapsePoint p)
    else (Svc.start s.table).returnPoint s.ctx (lapsePoint p)
  else Svc.start s.table

def execLapseItem (p : PortId) (s : State) : Host.Outcome State Fault Refusal :=
  unlessHeld s (s.serveItem (.lapse p) fun s => s.complete (lapseService p s))

/-- The engine's copy of the flag set to match (R61, R111). -/
def Table.copySensorFault (t : Table) (v : Bool) : Table := { t with counts := { t.counts with sensorFault := v } }

def execSensorItem (s : State) : Host.Outcome State Fault Refusal :=
  unlessHeld s (s.serveItem .sensor fun s =>
    s.complete ((Svc.start s.table).onTable (·.copySensorFault s.display.sensorFault)))

/-! STORE (R94, R193, R194). -/

/-- A LOAD that replaces configuration takes effect on each block (R194). -/
def State.loadConfig (s : State) : State :=
  let c := loadImage s.store
  let t := { s with
    config := c
    lines := s.lines.map LineState.restart
    display := { s.display with stepLow := false } }
  ((t.sensingFollows s.config.sensorSlot s.config.brightness.sensePeriod).startTimer .a).startTimer .b

/-- What the end of a store operation does, and its result. -/
def State.storeOutcome (s : State) : StoreResult → State × Result
  | .saved true => ({ s with storeFault := false }, .ok)
  | .saved false => ({ s with storeFault := true }, .storeFault)
  | .loaded .valid => (s.loadConfig, .ok)
  | .loaded .blank => (s, .storeFault)
  | .loaded .corrupt => (s, .storeFault)

/-- The service of the STORE item: the request completes, and STORE_DONE is posted to both ports (R94). -/
def storeService (p : PortId) (r : StoreResult) (s : State) : State :=
  let x := s.storeOutcome r
  let s := { x.1 with storeOp := .idle }
  (s.completeWith p (Svc.start s.table) (Answer.plain x.2)).postBothIf true .storeDone

def execStoreItem (s : State) : Host.Outcome State Fault Refusal :=
  unlessHeld s <| match s.storeOp with
    | .ended p r => s.serveItem .store (storeService p r)
    | .idle => s
    | .reading _ => s
    | .erasing _ _ => s
    | .programming _ _ => s
    | .verifying _ _ => s

end Sys2Proof.Machine
end

