-- ==== Sys2Proof/Machine/Resets.lean ====
section
/-! DEFINITION. The meanings of the resets and of the end of STARTING (chapter 10, R182, R183, R195 to R197). -/

namespace Sys2Proof.Machine

/-- A reset that ends an erasing or a programming leaves the pages at free values (R195). -/
def State.interrupts (s : State) : Bool :=
  match s.storeOp with
  | .erasing _ _ => true
  | .programming _ _ => true
  | .idle => false
  | .reading _ => false
  | .verifying _ _ => false
  | .ended _ _ => false

/-- Every piece of state at its reset value, but for what a reset does not reach: the commands outside the part, the
nonvolatile store and save mark, and the free-value counter. -/
def State.cleared (s : State) : State :=
  { State.reset with
    pending := s.pending
    store := if s.interrupts then Memory.interrupted s.freeCount else s.store
    saveMark := s.saveMark
    freeCount := if s.interrupts then s.freeCount + 1 else s.freeCount }

/-- Steps 3 and 4 of R196, on configuration memory at its defaults; the lines take the first sample (R99). -/
def State.startUp (s : State) (levels : BitVec 16) : State :=
  let cls := classify s.saveMark s.store
  let c := if cls = .valid then loadImage s.store else s.config
  { s with
    config := c
    storeFault := decide (cls = .corrupt)
    startOperate := decide (cls = .valid) && c.autoRun && c.valid
    lines := sampledLines levels }

/-- R196, R197: POWER set, PIN and RESTART cleared, as `State.reset` has them. -/
def execPowerReset (levels : BitVec 16) (s : State) : Host.Outcome State Fault Refusal :=
  .next (s.cleared.startUp levels)

/-- The reset input is asserted: reset values, held; the Reset Cause is updated by the start-up work (R197). -/
def execPinReset (s : State) : Host.Outcome State Fault Refusal :=
  .next { s.cleared with resetHeld := true, resetCause := s.resetCause }

/-- The reset input is released: the start-up work, with PIN set and the other flags kept (R196, R197). -/
def execPinResetRelease (levels : BitVec 16) (s : State) : Host.Outcome State Fault Refusal :=
  .next <|
    if s.resetHeld then
      ({ s with resetHeld := false, resetCause := { s.resetCause with pin := true } } : State).startUp levels
    else s

/-- The end of STARTING at one port: the status left holding MODE_CHANGE alone, a HELD mailbox EMPTY (R63, R183). -/
def Port.endStarting (x : Port) : Port :=
  { x with
    status := Event.modeChange.mask
    mailbox := if x.mailbox = .held then .empty else x.mailbox }

/-- Sensing begins, if the map holds a SENSOR slot (R155). -/
def State.beginSensing (s : State) : State :=
  if s.config.sensorSlot.isSome then s.beginReading else s

/-- What the other blocks do from the completion on (R183): the lines take their configuration, with each level from a
sample under it (R98); both supervision timers start; a standing SENSOR FAULT is posted; sensing begins. -/
def State.leaveStarting (s : State) (levels : BitVec 16) : State :=
  let s := (({ s with lines := sampledLines levels } : State).startTimer .a).startTimer .b
  let s := if s.display.sensorFault then s.post .sensor else s
  s.beginSensing

/-- The service that ends STARTING (R183, R189): the entry to OPERATE when that mode was decided. -/
def State.endStarting (s : State) (levels : BitVec 16) : State :=
  let s :=
    if s.startOperate then s.enterOperate.complete s.entryService
    else ({ s with mode := .configure } : State).complete (Svc.start s.table)
  (s.onPorts Port.endStarting).leaveStarting levels

def execEndOfStarting (levels : BitVec 16) (s : State) : Host.Outcome State Fault Refusal :=
  unlessHeld s (if s.mode = .starting then s.endStarting levels else s)

end Sys2Proof.Machine
end

