-- ==== Sys2Proof/Machine/Steps.lean ====
section
/-! DEFINITION. The meanings of the store phases, of line samples and timers, and of the Display Unit's steps. -/

namespace Sys2Proof.Machine

/-! Store phases (R193, R194). -/

def execErasingDone (defects : List (Nat × Byte)) (s : State) : Host.Outcome State Fault Refusal :=
  unlessHeld s <| match s.storeOp with
    | .erasing p image => { s with store := Memory.erased.putAll defects, storeOp := .programming p image }
    | _ => s

/-- The store with the image programmed into its first 1280 bytes. -/
def Memory.programmed (m : Memory) (image : List Byte) : Memory :=
  Memory.ofBytes 0 (image.take imageSize) ++ m.filter fun cell => decide (imageSize ≤ cell.1)

def execProgrammingDone (defects : List (Nat × Byte)) (s : State) : Host.Outcome State Fault Refusal :=
  unlessHeld s <| match s.storeOp with
    | .programming p image =>
      { s with store := (s.store.programmed image).putAll defects, storeOp := .verifying p image }
    | _ => s

/-- Every one of the 2048 bytes agrees with the image followed by erased bytes: the canonical forms are equal. -/
def Memory.agrees (m : Memory) (image : List Byte) : Bool := m == Memory.ofBytes 0 (image.take imageSize)

def execVerifyingDone (s : State) : Host.Outcome State Fault Refusal :=
  unlessHeld s <| match s.storeOp with
    | .verifying p image =>
      let ok := s.store.agrees image
      ({ s with saveMark := if ok then false else s.saveMark, storeOp := .ended p (.saved ok) } : State).post .store
    | _ => s

def execStoreReadDone (s : State) : Host.Outcome State Fault Refusal :=
  unlessHeld s <| match s.storeOp with
    | .reading p =>
      ({ s with storeOp := .ended p (.loaded (classify s.saveMark s.store)) } : State).post .store
    | _ => s

/-! Lines (R99, R100). -/

def execRawLevelChange (n : Fin 16) (level : Bool) (s : State) : Host.Outcome State Fault Refusal :=
  unlessHeld s (s.rawChange n level)

def execQualificationTimerExpiry (n : Fin 16) (s : State) : Host.Outcome State Fault Refusal :=
  unlessHeld s (if (s.line n).timer.isSome then s.qualify n else s)

/-! Time (R118, R124, R145, R150). -/

def execSecondCounterIncrement (s : State) : Host.Outcome State Fault Refusal :=
  unlessHeld s ({ s with counter := s.counter + 1 } : State).judgeShelf

def execLampTestTimerExpiry (s : State) : Host.Outcome State Fault Refusal :=
  unlessHeld s { s with display := { s.display with lampTimer := none } }

def execFlashPhaseChange (s : State) : Host.Outcome State Fault Refusal :=
  unlessHeld s { s with display := { s.display with phase := s.display.phase + 1 } }

/-! The matrix and the sensor (R148, R153, R155, R156). -/

/-- A frame begins: what its slots show is settled (R148, R153), and the scan is at the start of row 0 (R149). -/
def State.startFrame (s : State) : State :=
  ({ s with display := { s.display with level := s.levelNow, frame := s.frameShows } } : State).enterRow 0

def execScanFrameStart (s : State) : Host.Outcome State Fault Refusal := unlessHeld s s.startFrame

/-- A reading may begin: outside STARTING, with a SENSOR slot, and none in progress (R155). -/
def State.mayRead (s : State) : Bool :=
  decide (s.mode ≠ .starting) && s.config.sensorSlot.isSome && s.display.reading.isNone

def execReadingStart (s : State) : Host.Outcome State Fault Refusal :=
  unlessHeld s (if s.mayRead then s.beginReading else s)

/-- The reading in progress ends, whatever row periods the commands before it have told apart (assumption 8). -/
def execReadingComplete (t : Option Nat) (s : State) : Host.Outcome State Fault Refusal :=
  unlessHeld s <| match s.display.reading with
    | none => s
    | some x => s.endReading x.window t

end Sys2Proof.Machine
end

