-- ==== Sys2Proof/Machine/Dispatch.lean ====
section
/-! DEFINITION. The dispatch: one arm for each command. -/

namespace Sys2Proof.Machine

def exec (i : Instr) (s : State) : Host.Outcome State Fault Refusal :=
  match i with
  | .powerReset levels => Sys2Proof.Machine.execPowerReset levels s
  | .pinReset => Sys2Proof.Machine.execPinReset s
  | .pinResetRelease levels => Sys2Proof.Machine.execPinResetRelease levels s
  | .endOfStarting levels => Sys2Proof.Machine.execEndOfStarting levels s
  | .requestFrame p part => Sys2Proof.Machine.execRequestFrame p part s
  | .windowRead p part => Sys2Proof.Machine.execWindowRead p part s
  | .secondCounterLatch p => Sys2Proof.Machine.execSecondCounterLatch p s
  | .windowWrite p part => Sys2Proof.Machine.execWindowWrite p part s
  | .windowWritePair p mask data => Sys2Proof.Machine.execWindowWritePair p mask data s
  | .eventStatusClear p mask data => Sys2Proof.Machine.execEventStatusClear p mask data s
  | .eventEnableWrite p mask data => Sys2Proof.Machine.execEventEnableWrite p mask data s
  | .resetCauseClear p mask data => Sys2Proof.Machine.execResetCauseClear p mask data s
  | .supervisionPeriodWrite p mask data => Sys2Proof.Machine.execSupervisionPeriodWrite p mask data s
  | .interruptLineConfigWrite p mask data => Sys2Proof.Machine.execInterruptLineConfigWrite p mask data s
  | .lineConfigurationWrite p mask data => Sys2Proof.Machine.execLineConfigurationWrite p mask data s
  | .slotMapWrite p mask data => Sys2Proof.Machine.execSlotMapWrite p mask data s
  | .pointDefinitionWrite p mask data => Sys2Proof.Machine.execPointDefinitionWrite p mask data s
  | .brightnessConfigurationWrite p mask data => Sys2Proof.Machine.execBrightnessConfigurationWrite p mask data s
  | .responseRead p part => Sys2Proof.Machine.execResponseRead p part s
  | .statusOnlyFrame p kind part => Sys2Proof.Machine.execStatusOnlyFrame p kind part s
  | .frameCutShort p kind bs => Sys2Proof.Machine.execFrameCutShort p kind bs s
  | .supervisionExpiry p => Sys2Proof.Machine.execSupervisionExpiry p s
  | .raise p => Sys2Proof.Machine.execRaise p s
  | .returnPoint p => Sys2Proof.Machine.execReturn p s
  | .pulse p => Sys2Proof.Machine.execPulse p s
  | .ack p => Sys2Proof.Machine.execAck p s
  | .ackVisible p => Sys2Proof.Machine.execAckVisible p s
  | .ackAll p => Sys2Proof.Machine.execAckAll p s
  | .silence p => Sys2Proof.Machine.execSilence p s
  | .reset p => Sys2Proof.Machine.execReset p s
  | .resetAll p => Sys2Proof.Machine.execResetAll p s
  | .forceRetire p => Sys2Proof.Machine.execForceRetire p s
  | .shelve p => Sys2Proof.Machine.execShelve p s
  | .unshelve p => Sys2Proof.Machine.execUnshelve p s
  | .inhibit p => Sys2Proof.Machine.execInhibit p s
  | .enable p => Sys2Proof.Machine.execEnable p s
  | .firstOutReset p => Sys2Proof.Machine.execFirstOutReset p s
  | .lookup p => Sys2Proof.Machine.execLookup p s
  | .findNext p => Sys2Proof.Machine.execFindNext p s
  | .clearWatch p => Sys2Proof.Machine.execClearWatch p s
  | .lampTest p => Sys2Proof.Machine.execLampTest p s
  | .enterConfigure p => Sys2Proof.Machine.execEnterConfigure p s
  | .releaseConfig p => Sys2Proof.Machine.execReleaseConfig p s
  | .leaveConfigure p => Sys2Proof.Machine.execLeaveConfigure p s
  | .saveStore p => Sys2Proof.Machine.execSaveStore p s
  | .loadStore p => Sys2Proof.Machine.execLoadStore p s
  | .restart p => Sys2Proof.Machine.execRestart p s
  | .unknownRequest p => Sys2Proof.Machine.execUnknownRequest p s
  | .senseLineItem line => Sys2Proof.Machine.execSenseLineItem line s
  | .buttonAckItem line => Sys2Proof.Machine.execButtonAckItem line s
  | .buttonSilenceItem line => Sys2Proof.Machine.execButtonSilenceItem line s
  | .buttonResetItem line => Sys2Proof.Machine.execButtonResetItem line s
  | .shelfDueItem => Sys2Proof.Machine.execShelfDueItem s
  | .lapseItem p => Sys2Proof.Machine.execLapseItem p s
  | .sensorItem => Sys2Proof.Machine.execSensorItem s
  | .storeItem => Sys2Proof.Machine.execStoreItem s
  | .erasingDone defects => Sys2Proof.Machine.execErasingDone defects s
  | .programmingDone defects => Sys2Proof.Machine.execProgrammingDone defects s
  | .verifyingDone => Sys2Proof.Machine.execVerifyingDone s
  | .storeReadDone => Sys2Proof.Machine.execStoreReadDone s
  | .rawLevelChange line level => Sys2Proof.Machine.execRawLevelChange line level s
  | .qualificationTimerExpiry line => Sys2Proof.Machine.execQualificationTimerExpiry line s
  | .secondCounterIncrement => Sys2Proof.Machine.execSecondCounterIncrement s
  | .lampTestTimerExpiry => Sys2Proof.Machine.execLampTestTimerExpiry s
  | .flashPhaseChange => Sys2Proof.Machine.execFlashPhaseChange s
  | .scanFrameStart => Sys2Proof.Machine.execScanFrameStart s
  | .readingStart => Sys2Proof.Machine.execReadingStart s
  | .readingComplete t => Sys2Proof.Machine.execReadingComplete t s

end Sys2Proof.Machine
end

