-- ==== Sys2Proof/Safety.lean ====
section
/-! DEFINITION. What every step keeps: the invariants of the part, each from the rules it names, and the reads and
predicates that statements about it use. -/

namespace Sys2Proof.Machine

/-! Predicates of a state. -/

/-- The engine's next grant is the request `r` of port `p`, and the reset input is not held (R64). -/
def State.Grants (s : State) (p : PortId) (r : Request) : Prop :=
  s.resetHeld = false ∧ s.grantedRequest p = some r

/-- The engine's next grant is the Work Queue's item `x`, and the reset input is not held (R65). -/
def State.GrantsItem (s : State) (x : WorkSource) : Prop :=
  s.resetHeld = false ∧ s.grantedItem = some x

/-- The submitting port of the store operation that runs (R192). -/
def StoreOp.port? : StoreOp → Option PortId
  | .idle => none
  | .reading p => some p
  | .erasing p _ => some p
  | .programming p _ => some p
  | .verifying p _ => some p
  | .ended p _ => some p

/-! The store, the queue, the modes and the mailboxes. -/

/-- The memory of the Definition Store is in canonical form. -/
def State.StoreCanonical (s : State) : Prop := s.store.wf = true

/-- The Work Queue never holds two items from the same source (R107). -/
def State.QueueNoRepeats (s : State) : Prop := s.queue.Nodup

/-- An owner exists, and a store operation runs, only in CONFIGURE (R184, R192). -/
def State.OwnedInConfigure (s : State) : Prop :=
  (s.owner ≠ none → s.mode = .configure) ∧ (s.storeOp ≠ .idle → s.mode = .configure)

/-- The mailboxes agree with the store operation and with the engine (R63, R94, R163, R198): STORE WAIT is the
submitting port's, HELD is both ports' while a RESTART is served, none is TAKEN between two steps, and an open request
frame that will be taken finds its mailbox EMPTY. -/
structure State.MailboxesAgree (s : State) : Prop where
  storeWait : ∀ p, (s.port p).mailbox = .storeWait ↔ s.storeOp.port? = some p
  held : ∀ p, (s.port p).mailbox = .held ↔ s.engine = .serving
  serving : s.engine = .serving → s.mode = .starting
  notTaken : ∀ p r, (s.port p).mailbox ≠ .taken r
  decision : ∀ p bytes, (s.port p).frame = some (.request true bytes) → (s.port p).mailbox = .empty

/-- In STARTING no item waits, both supervision timers are STOPPED, no port is lapsed, no lamp test timer runs and no
reading is in progress (R155, R174, R175, R183, R151). -/
structure State.QuietInStarting (s : State) : Prop where
  queue : s.mode = .starting → s.queue = []
  timers : s.mode = .starting → ∀ p, (s.port p).timer = none
  lapses : s.mode = .starting → ∀ p, (s.port p).lapse = false
  lampTest : s.mode = .starting → s.display.lampTimer = none
  reading : s.mode = .starting → s.display.reading = none

/-! Configuration memory. -/

/-- The fixed fields of system points hold their fixed values, no user point has the source SYSTEM, and W is not 0
(R3, R4, R152). -/
structure ConfigMem.FieldsLegal (c : ConfigMem) : Prop where
  system : ∀ p, isSystem p = true →
    (c.point p).source = .system ∧ (c.point p).latch = false ∧ (c.point p).ringback = false
      ∧ (c.point p).shelvable = false ∧ (c.point p).enabled = true
  user : ∀ p, isSystem p = false → (c.point p).source ≠ .system
  window : c.brightness.window ≠ 0

/-- The checks of R187 that no pair written in OPERATE can undo: checks 1 to 6. -/
def ConfigMem.mapSound (c : ConfigMem) : Bool := (c.checks.take 6).all id

/-- In OPERATE, checks 1 to 6 of validation hold (R130, R187, R188, R196, R198). -/
structure State.MapSoundInOperate (s : State) : Prop where
  operate : s.mode = .operate → s.config.mapSound = true
  decided : s.mode = .starting → s.startOperate = true → s.config.valid = true

/-! Lines and display. -/

/-- A line is STABLE exactly while its raw level equals its qualified level; only SENSE and BUTTON lines are ever
PENDING, outside STARTING; the marks belong to their roles and modes (R99, R100, R102, R104, R115). -/
structure State.LinesAgree (s : State) : Prop where
  stable : ∀ n, (s.line n).timer = none ↔ (s.line n).raw = (s.line n).qualified
  pending : ∀ n, (s.line n).timer ≠ none → (s.lineCfg n).role.qualifies = true ∧ s.mode ≠ .starting
  assertSeen : ∀ n, (s.line n).assertSeen = true → (s.lineCfg n).role = .sense ∧ s.mode = .operate
  pressSeen : ∀ n, (s.line n).pressSeen = true → (s.lineCfg n).role.postsPress = true ∧ s.mode ≠ .starting

/-- SENSOR FAULT is set exactly while four readings in a row have failed, and a reading is in progress only with a
SENSOR slot, outside STARTING (R155, R157). -/
structure State.SensingAgrees (s : State) : Prop where
  fault : s.display.sensorFault = true ↔ s.display.failed = 4
  reading : s.display.reading ≠ none → s.config.sensorSlot ≠ none ∧ s.mode ≠ .starting

/-! The tables of the engine. -/

/-- Outside OPERATE no record, waiting point, inhibit, condition or watch exists (R7, R10, R24, R40, R87). -/
structure State.EmptyOutsideOperate (s : State) : Prop where
  table : s.mode ≠ .operate →
    s.table.rank = [] ∧ s.table.waiting = [] ∧ s.table.shelf = [] ∧ s.table.groups = Bank.fill 7 FirstOutGroup.reset
  entries : s.mode ≠ .operate → ∀ i, s.table.entries.get i = none
  points : s.mode ≠ .operate → ∀ p, (s.table.live p).link = none ∧ (s.table.live p).waiting = false
    ∧ (s.table.live p).condition = false ∧ (s.table.live p).inhibited = false
  watches : s.mode ≠ .operate → ∀ p, (s.port p).watch = none

/-- Records, links, the Rank List and the Waiting Queue agree (R8, R9, R10, R13, R45, R50). -/
structure Table.Linked (t : Table) : Prop where
  rankOnce : t.rank.Nodup
  ranked : ∀ p, p ∈ t.rank ↔ (t.live p).link ≠ none
  entry : ∀ p, ∀ i ∈ (t.live p).link, (t.entries.get i).map (·.point) = some p
  link : ∀ i, ∀ r ∈ t.entries.get i, (t.live r.point).link = some i
  waitingOnce : t.waiting.Nodup
  waits : ∀ p, p ∈ t.waiting ↔ (t.live p).waiting = true
  waitingPoint : ∀ p, (t.live p).waiting = true →
    isSystem p = false ∧ (t.live p).link = none ∧ (t.live p).inhibited = false
  inhibitedPoint : ∀ p, (t.live p).inhibited = true → isSystem p = false ∧ (t.live p).link = none

/-- The Rank List is ordered by class from 7 down to 0 (R45). -/
def Table.RankedByClass (t : Table) (cfg : ConfigMem) : Prop :=
  t.rank.Pairwise fun p q => (cfg.point q).cls ≤ (cfg.point p).cls

/-- At most 92 user records; points wait only while there are exactly 92; the condition of point 248 is present exactly
while points wait (R18, R49, R50). -/
structure Table.WithinCapacity (t : Table) : Prop where
  users : t.liveUsers ≤ 92
  full : t.waiting ≠ [] → t.liveUsers = 92
  tableFull : (t.live tableFullPoint).condition = true ↔ t.waiting ≠ []

/-- States in which the condition of the point is present (R23). -/
def RecState.standing : RecState → Bool
  | .new => true
  | .acked => true
  | .returned => false
  | .ringback => false
  | .held => false

/-- What holds of each live record (R16, R23, R37, R38): its state agrees with the condition; it sounds only while
unacknowledged, not shelved and of a point with sound; it has occurred; only a count of 255 is saturated; one that is
NEW is acknowledged by nobody. -/
abbrev Record.Sound (r : Record) (d : PointDef) (condition : Bool) : Prop :=
  r.state.standing = condition
    ∧ (r.sounding = true → r.state.unacked = true ∧ r.shelf = none ∧ d.sound = true)
    ∧ r.count ≠ 0
    ∧ (r.saturated = true → r.count = 255)
    ∧ (r.state = .new → r.ackedBy = none)

/-- Every live record is sound, and the Shelf List holds exactly the shelved records (R15, R122). -/
structure Table.RecordsSound (t : Table) (cfg : ConfigMem) : Prop where
  record : ∀ p, ∀ r ∈ t.recordOf p, r.Sound (cfg.point p) (t.live p).condition
  shelfOnce : (t.shelf.map (·.point)).Nodup
  shelved : ∀ p, (t.shelf.find? fun e => e.point == p).map (·.deadline) =
    ((t.recordOf p).bind (·.shelf)).map (·.deadline)

/-- Live records whose point's first-out group is group `g` of the table (R41). -/
def Table.groupSize (t : Table) (cfg : ConfigMem) (g : Fin 7) : Nat :=
  (t.rank.filter fun p => (cfg.point p).firstOutGroup == some g).length

/-- The First-Out Table agrees with the records (R41): the live counts, a mark only while not armed, and the first-out
flag of a record exactly while its group marks it. -/
structure Table.GroupsAgree (t : Table) (cfg : ConfigMem) : Prop where
  counted : ∀ g, (t.groups.get g).live = t.groupSize cfg g
  armed : ∀ g, (t.groups.get g).armed = true → (t.groups.get g).mark = none
  quiet : ∀ g, (t.groups.get g).live = 0 → (t.groups.get g).armed = true
  marked : ∀ g, ∀ p ∈ (t.groups.get g).mark,
    (cfg.point p).firstOutGroup = some g ∧ (t.recordOf p).isSome = true
  flag : ∀ p, ∀ r ∈ t.recordOf p,
    (r.firstOut = true ↔ ∃ g, (cfg.point p).firstOutGroup = some g ∧ (t.groups.get g).mark = some p)

/-- The pattern of a record shown (R147). -/
def patternShown : RecState → Bool → Pattern
  | .new, false => .fast
  | .new, true => .first
  | .returned, false => .fast
  | .returned, true => .first
  | .acked, _ => .steady
  | .ringback, _ => .slow
  | .held, _ => .dim

/-- What a slot that shows the record `r` holds (R136). -/
def shownAs (r : Record) : Shown := ⟨r.point, patternShown r.state r.firstOut⟩

/-- How many live records satisfy `q`. -/
def Table.tally (t : Table) (q : Record → Bool) : Nat := (t.rank.filter fun p => (t.recordOf p).any q).length

/-- The pool-eligible records in rank order (R132): unshelved records of points with pool on and no dedicated slot. -/
def Table.eligibleRecords (t : Table) (cfg : ConfigMem) : List Record :=
  (t.rank.filterMap t.recordOf).filter fun r => decide
    (r.shelf = none ∧ (cfg.point r.point).pool = true ∧ ∀ i, cfg.slots.get i ≠ ⟨.dedicated, byteOfPoint r.point⟩)

/-- P, the number of POOL slots of the map (R130). -/
def ConfigMem.poolSlots (cfg : ConfigMem) : Nat :=
  ((List.finRange 64).filter fun i => (cfg.slots.get i).role == .pool).length

/-- The Slot Contents show what the allocation gives each slot of the map (R133 to R136): a DEDICATED slot its point's
record unless it is shelved, the POOL slot of position k the pool-eligible record k in rank order, any other nothing. -/
structure State.SlotsAgree (s : State) : Prop where
  dedicated : ∀ i x, s.config.slots.get i = ⟨.dedicated, byteOfPoint x⟩ → s.table.slots.get i =
    (s.table.recordOf x).bind fun r => if r.shelf = none then some (shownAs r) else none
  unnamed : ∀ i, (s.config.slots.get i).role = .dedicated → 252 ≤ (s.config.slots.get i).operand.toNat →
    s.table.slots.get i = none
  pool : ∀ i, (s.config.slots.get i).role = .pool → s.table.slots.get i =
    ((s.table.eligibleRecords s.config)[(s.config.slots.get i).operand.toNat]?).map shownAs
  dark : ∀ i, (s.config.slots.get i).role ≠ .dedicated → (s.config.slots.get i).role ≠ .pool →
    s.table.slots.get i = none

/-- The Summary Counts count the records, the waiting points and the hidden records of the table (R58 to R61). -/
structure State.CountsAgree (s : State) : Prop where
  liveUser : s.table.counts.liveUser = s.table.tally fun r => decide (r.point.val < 248)
  liveSystem : s.table.counts.liveSystem = s.table.tally fun r => decide (248 ≤ r.point.val)
  waitingLength : s.table.counts.waitingLength = s.table.waiting.length
  new : s.table.counts.new = s.table.tally fun r => decide (r.state = .new)
  acked : s.table.counts.acked = s.table.tally fun r => decide (r.state = .acked)
  returned : s.table.counts.returned = s.table.tally fun r => decide (r.state = .returned)
  ringback : s.table.counts.ringback = s.table.tally fun r => decide (r.state = .ringback)
  held : s.table.counts.held = s.table.tally fun r => decide (r.state = .held)
  shelved : s.table.counts.shelved = s.table.tally fun r => decide (r.shelf ≠ none)
  alertSounding : s.table.counts.alertSounding =
    s.table.tally fun r => decide (r.sounding = true ∧ (r.state = .new ∨ r.state = .returned))
  returnSounding : s.table.counts.returnSounding =
    s.table.tally fun r => decide (r.sounding = true ∧ r.state = .ringback)
  present : ∀ k, s.table.counts.presentByClass.get k = s.table.tally fun r => decide
    (r.shelf = none ∧ (s.config.point r.point).cls = k ∧ (s.table.live r.point).condition = true)
  poolEligible : s.table.counts.poolEligible = (s.table.eligibleRecords s.config).length
  poolHidden : s.table.counts.poolHidden = (s.table.eligibleRecords s.config).length - s.config.poolSlots
  hiddenUnacked : s.table.counts.hiddenUnacked = true ↔
    ∃ r ∈ (s.table.eligibleRecords s.config).drop s.config.poolSlots,
      r.state = .new ∨ r.state = .returned ∨ r.state = .ringback

/-- The Slot Contents and the Summary Counts are those of the table as it stands (R57, R134). -/
structure State.DisplayAgrees (s : State) : Prop where
  slots : s.SlotsAgree
  counts : s.CountsAgree

/-- A due head of the Shelf List has its item waiting (R124). -/
def State.DueIsPosted (s : State) : Prop :=
  ∀ e, s.table.shelf.head? = some e → reached s.counter e.deadline = true → .shelfDue ∈ s.queue

/-- Every invariant of the engine's tables together. -/
structure State.TablesAgree (s : State) : Prop where
  empty : s.EmptyOutsideOperate
  linked : s.table.Linked
  ranked : s.table.RankedByClass s.config
  capacity : s.table.WithinCapacity
  records : s.table.RecordsSound s.config
  groups : s.table.GroupsAgree s.config

/-! Reads and frames that statements use. -/

/-- The event `e` is set in the port's event status (R172). -/
def Port.Posted (x : Port) (e : Event) : Prop := x.status.getLsbD e.bit = true

/-- Port `p` has received its response: result code, detail byte, an EMPTY mailbox, RESP_READY, REQUEST_DONE (R66). -/
structure State.Answered (t : State) (p : PortId) (result : Result) (detail : Nat) : Prop where
  mailbox : (t.port p).mailbox = .empty
  ready : (t.port p).respReady = true
  result : (t.port p).buffer.get 0 = BitVec.ofNat 8 result.code
  detail : (t.port p).buffer.get 1 = BitVec.ofNat 8 detail
  done : (t.port p).Posted .requestDone

/-- The request names point `x` as its first operand. -/
def Request.Names (r : Request) (x : Point) : Prop := r.operands.head? = some (byteOfPoint x)

/-- The state outside the engine, its queue and the ports is the same. -/
structure State.SameOutsideEngine (s t : State) : Prop where
  pending : t.pending = s.pending
  resetHeld : t.resetHeld = s.resetHeld
  mode : t.mode = s.mode
  owner : t.owner = s.owner
  resetCause : t.resetCause = s.resetCause
  storeFault : t.storeFault = s.storeFault
  startOperate : t.startOperate = s.startOperate
  config : t.config = s.config
  store : t.store = s.store
  saveMark : t.saveMark = s.saveMark
  storeOp : t.storeOp = s.storeOp
  lines : t.lines = s.lines
  counter : t.counter = s.counter
  latch : t.latch = s.latch
  display : t.display = s.display
  freeCount : t.freeCount = s.freeCount

/-- The port is the same but for its event status and its watch. -/
structure Port.SameButNews (x y : Port) : Prop where
  mailbox : y.mailbox = x.mailbox
  buffer : y.buffer = x.buffer
  respReady : y.respReady = x.respReady
  refused : y.refused = x.refused
  enable : y.enable = x.enable
  timer : y.timer = x.timer
  lapse : y.lapse = x.lapse
  frame : y.frame = x.frame
  out : y.out = x.out

/-- The port keeps its REFUSED flag, enables, supervision timer, lapse state and data-out bytes. -/
structure Port.SameButAnswer (x y : Port) : Prop where
  refused : y.refused = x.refused
  enable : y.enable = x.enable
  timer : y.timer = x.timer
  lapse : y.lapse = x.lapse
  out : y.out = x.out

/-- The Work Queue is the same, or SHELF_DUE has joined its tail (R124). -/
def State.QueueKept (s t : State) : Prop := t.queue = s.queue ∨ t.queue = s.queue ++ [.shelfDue]

/-- A request that names point `x`, granted in OPERATE: `n` operand bytes, and, where `rev` allows it, the expected
revision behind them, which matches (R69, R70, R71, R84). -/
structure State.PointRequest (s : State) (p : PortId) (r : Request) (code : Byte) (x : Point) (n : Nat)
    (rev : Bool) : Prop where
  granted : s.Grants p r
  code : r.code = code
  operate : s.mode = .operate
  names : r.Names x
  defined : s.config.defined x = true
  length : r.len.toNat = n ∨
    (rev = true ∧ r.len.toNat = n + 2 ∧ r.half n = (s.table.live x).revision)

/-- A record request that names no point, granted in OPERATE, with `n` operand bytes. -/
structure State.TableRequest (s : State) (p : PortId) (r : Request) (code : Byte) (n : Nat) : Prop where
  granted : s.Grants p r
  code : r.code = code
  operate : s.mode = .operate
  length : r.len.toNat = n

/-- Of the points only `x` was changed: its revision moved by one and fires each watch on it; every other point keeps
its live fields and its record, and every other watch stands (R12, R86). -/
structure State.OnlyTouches (s t : State) (x : Point) : Prop where
  revision : (t.table.live x).revision = (s.table.live x).revision + 1
  live : ∀ y, y ≠ x → t.table.live y = s.table.live y
  records : ∀ y, y ≠ x → t.table.recordOf y = s.table.recordOf y
  fires : ∀ q, (s.port q).watch = some x → (t.port q).watch = none ∧ (t.port q).Posted .watchFired
  keeps : ∀ q, (s.port q).watch ≠ some x → (t.port q).watch = (s.port q).watch

/-- RECORD_ALERT, RECORD_CHANGE, TABLE_FULL and MODE_CHANGE are set in both ports just where they were set before or
the service posts them (R67, R172). -/
structure State.News (s t : State) (alert change full mode : Prop) : Prop where
  alert : ∀ q, (t.port q).Posted .recordAlert ↔ (s.port q).Posted .recordAlert ∨ alert
  change : ∀ q, (t.port q).Posted .recordChange ↔ (s.port q).Posted .recordChange ∨ change
  full : ∀ q, (t.port q).Posted .tableFull ↔ (s.port q).Posted .tableFull ∨ full
  mode : ∀ q, (t.port q).Posted .modeChange ↔ (s.port q).Posted .modeChange ∨ mode

/-- No point, record, list or group of the engine's tables changed. -/
structure Table.Same (t t' : Table) : Prop where
  points : t'.points = t.points
  entries : t'.entries = t.entries
  rank : t'.rank = t.rank
  waiting : t'.waiting = t.waiting
  shelf : t'.shelf = t.shelf
  groups : t'.groups = t.groups

/-- The lists and groups of the engine's tables are the same: no record was created, retired or shelved. -/
structure Table.SameLists (t t' : Table) : Prop where
  rank : t'.rank = t.rank
  waiting : t'.waiting = t.waiting
  shelf : t'.shelf = t.shelf
  groups : t'.groups = t.groups

/-- The record of point `x` is gone from the entries, the Rank List, the Shelf List and its group (R39, R43). -/
structure Table.Retired (t t' : Table) (cfg : ConfigMem) (x : Point) : Prop where
  record : t'.recordOf x = none
  link : (t'.live x).link = none
  rank : t'.rank = t.rank.erase x
  shelf : t'.shelf = t.shelf.filter fun e => decide (e.point ≠ x)
  group : ∀ g, (cfg.point x).firstOutGroup = some g →
    (t'.groups.get g).live = (t.groups.get g).live - 1
      ∧ ((t.groups.get g).mark = some x → (t'.groups.get g).mark = none)
      ∧ ((t.groups.get g).mark ≠ some x → (t'.groups.get g).mark = (t.groups.get g).mark)
      ∧ ((t'.groups.get g).armed = true ↔ (t.groups.get g).armed = true ∨ (t.groups.get g).live - 1 = 0)
  others : ∀ g, (cfg.point x).firstOutGroup ≠ some g → t'.groups.get g = t.groups.get g

/-- Point `x` stands in the Rank List directly after the last record whose class is equal or higher (R46). -/
def RankedIn (cfg : ConfigMem) (x : Point) (rank rank' : List Point) : Prop :=
  ∃ front back, rank = front ++ back ∧ rank' = front ++ x :: back
    ∧ (∀ y ∈ back, (cfg.point y).cls < (cfg.point x).cls)
    ∧ ∀ y, front.getLast? = some y → (cfg.point x).cls ≤ (cfg.point y).cls

/-- The record of point `x` as a creation at second `now` leaves it (Table 1-4, R25). -/
def freshRecord (d : PointDef) (x : Point) (st : RecState) (firstOut : Bool) (now : Word) : Record where
  point := x
  state := st
  count := 1
  saturated := false
  sounding := d.sound
  firstOut := firstOut
  shelf := none
  ackedBy := none
  createdAt := now
  changedAt := now

/-- The first-out flag that a record created for `x` gets: its group is armed (R42). -/
def Table.groupArmed (t : Table) (cfg : ConfigMem) (x : Point) : Bool :=
  match (cfg.point x).firstOutGroup with
  | none => false
  | some g => (t.groups.get g).armed

/-- A record of `x` was created in its place of the Rank List and in its group (R25, R42, R46). -/
structure Table.Created (t t' : Table) (cfg : ConfigMem) (x : Point) (st : RecState) (now : Word) : Prop where
  record : t'.recordOf x = some (freshRecord (cfg.point x) x st (t.groupArmed cfg x) now)
  rank : RankedIn cfg x t.rank t'.rank
  group : ∀ g, (cfg.point x).firstOutGroup = some g →
    t'.groups.get g = ⟨if (t.groups.get g).armed then some x else (t.groups.get g).mark, false,
      (t.groups.get g).live + 1⟩
  others : ∀ g, (cfg.point x).firstOutGroup ≠ some g → t'.groups.get g = t.groups.get g
  shelf : t'.shelf = t.shelf

/-- A user point that an assert may give a record: enabled by definition, not inhibited, its condition absent, with no
record and not waiting (R24, R25). -/
structure State.Quiet (s : State) (x : Point) : Prop where
  user : isSystem x = false
  enabled : (s.config.point x).enabled = true
  inhibited : (s.table.live x).inhibited = false
  condition : (s.table.live x).condition = false
  link : (s.table.live x).link = none
  waiting : (s.table.live x).waiting = false

/-- The record `rec` re-alerted to NEW at second `now` (R26, R37). -/
def realerted (d : PointDef) (now : Word) (rec : Record) : Record :=
  { rec with
    state := .new
    count := if rec.count.toNat < 255 then rec.count + 1 else 255
    saturated := rec.saturated || decide (rec.count.toNat = 255)
    sounding := rec.sounding || (d.sound && rec.shelf.isNone)
    ackedBy := none
    changedAt := now }

/-- What an acknowledgement by `src` leaves of the record `rec`: none is retirement (R29). -/
def acknowledged (latch : Bool) (now : Word) (src : AckSource) (rec : Record) : Option Record :=
  if rec.state = .new then
    some { rec with state := .acked, sounding := false, ackedBy := some src, changedAt := now }
  else if rec.state = .returned ∧ latch = true then
    some { rec with state := .held, sounding := false, ackedBy := some src, changedAt := now }
  else if rec.state = .returned ∨ rec.state = .ringback then none
  else some rec

/-- The record of `y` matches the three filters of FIND_NEXT (R89, Table 9-3). -/
def State.Matches (s : State) (r : Request) (y : Point) : Prop :=
  ∃ rec, s.table.recordOf y = some rec ∧ (r.byte 1).getLsbD rec.state.code = true
    ∧ (r.byte 2).toNat ≤ (s.config.point y).cls.val
    ∧ (r.byte 3 = 0 ∨ (r.byte 3 = 1 ∧ rec.shelf ≠ none) ∨ (r.byte 3 = 2 ∧ rec.shelf = none))

/-- The item of line `n` was taken from the head of the Work Queue, the grant pointer moved past the queue, and the
line's marks were cleared (R64, R65, R109). -/
structure State.LineItemTaken (s t : State) (n : Fin 16) : Prop where
  engine : t.engine = .free
  pointer : t.pointer = .mailbox .a
  queue : t.queue = s.queue.tail ∨ t.queue = s.queue.tail ++ [.shelfDue]
  line : t.line n = { s.line n with assertSeen := false, pressSeen := false }
  lines : ∀ m, m ≠ n → t.line m = s.line m
  config : t.config = s.config
  mode : t.mode = s.mode
  display : t.display = s.display
  counter : t.counter = s.counter

/-- What a power reset and a pin reset set (R196, Tables 1-3 and 9-5, R159). -/
structure State.AtReset (t : State) : Prop where
  mode : t.mode = .starting
  owner : t.owner = none
  storeOp : t.storeOp = .idle
  engine : t.engine = .free
  pointer : t.pointer = .mailbox .a
  queue : t.queue = []
  table : t.table = Table.reset
  ports : t.ports = .both Port.reset
  counter : t.counter = 0
  latch : t.latch = 0
  display : t.display = Display.reset

/-- While the reset input is held, what a pin reset sets stands (R183, R196). -/
def State.HeldAtReset (s : State) : Prop := s.resetHeld = true → s.AtReset

/-- What the start-up work leaves (R99, R196). -/
structure State.StartUpDone (t : State) (levels : BitVec 16) : Prop where
  config : t.config = if classify t.saveMark t.store = .valid then loadImage t.store else ConfigMem.default
  storeFault : t.storeFault = decide (classify t.saveMark t.store = .corrupt)
  startOperate : t.startOperate =
    (decide (classify t.saveMark t.store = .valid) && t.config.autoRun && t.config.valid)
  lines : ∀ n : Fin 16, t.line n = ⟨levels.getLsbD n.val, levels.getLsbD n.val, none, false, false⟩

/-- The command of port `p` that serves the request `r` (Table 9-2). -/
def requestCommand (p : PortId) (r : Request) : Instr :=
  if r.code = 0x10 then .raise p else if r.code = 0x11 then .returnPoint p else if r.code = 0x12 then .pulse p
  else if r.code = 0x20 then .ack p else if r.code = 0x21 then .ackVisible p else if r.code = 0x22 then .ackAll p
  else if r.code = 0x23 then .silence p else if r.code = 0x28 then .reset p else if r.code = 0x29 then .resetAll p
  else if r.code = 0x2A then .forceRetire p else if r.code = 0x30 then .shelve p
  else if r.code = 0x31 then .unshelve p else if r.code = 0x34 then .inhibit p else if r.code = 0x35 then .enable p
  else if r.code = 0x38 then .firstOutReset p else if r.code = 0x40 then .lookup p
  else if r.code = 0x41 then .findNext p else if r.code = 0x42 then .clearWatch p
  else if r.code = 0x48 then .lampTest p else if r.code = 0x50 then .enterConfigure p
  else if r.code = 0x51 then .releaseConfig p else if r.code = 0x52 then .leaveConfigure p
  else if r.code = 0x58 then .saveStore p else if r.code = 0x59 then .loadStore p
  else if r.code = 0x5F then .restart p else .unknownRequest p

/-- The commands of the record requests (R68). -/
def recordCommands (p : PortId) : List Instr :=
  [.raise p, .returnPoint p, .pulse p, .ack p, .ackVisible p, .ackAll p, .silence p, .reset p, .resetAll p,
    .forceRetire p, .shelve p, .unshelve p, .inhibit p, .enable p, .firstOutReset p, .lookup p, .findNext p]

/-- The frame commands of port `p`. -/
def frameCommands (p : PortId) (c : Instr) : Prop :=
  (∃ x, c = .requestFrame p x) ∨ (∃ x, c = .windowRead p x) ∨ c = .secondCounterLatch p
    ∨ (∃ x, c = .windowWrite p x) ∨ (∃ x, c = .responseRead p x) ∨ (∃ k n, c = .statusOnlyFrame p k n)
    ∨ ∃ k n, c = .frameCutShort p k n

/-- The pair commands of port `p` (R166). -/
def pairCommands (p : PortId) (mask data : Byte) : List Instr :=
  [.windowWritePair p mask data, .eventStatusClear p mask data, .eventEnableWrite p mask data,
    .resetCauseClear p mask data, .supervisionPeriodWrite p mask data, .interruptLineConfigWrite p mask data,
    .lineConfigurationWrite p mask data, .slotMapWrite p mask data, .pointDefinitionWrite p mask data,
    .brightnessConfigurationWrite p mask data]

/-- The services of the items of the Work Queue, but for STORE (R107). -/
def itemCommands : List Instr :=
  [.shelfDueItem, .lapseItem .a, .lapseItem .b, .sensorItem]
    ++ (List.range 16).flatMap fun k =>
      let n := Fin.ofNat 16 k
      [.senseLineItem n, .buttonAckItem n, .buttonSilenceItem n, .buttonResetItem n]

/-- The port, mode and store requests that answer at their service or at that of the STORE item, RESTART apart. -/
def modeCommands (p : PortId) : List Instr :=
  [.clearWatch p, .lampTest p, .enterConfigure p, .releaseConfig p, .leaveConfigure p, .saveStore p, .loadStore p,
    .unknownRequest p]

/-- The steps of the Field Line Unit, of time and of the Display Unit. -/
def unitCommands (n : Fin 16) (level : Bool) (look : Option Nat) : List Instr :=
  [.rawLevelChange n level, .qualificationTimerExpiry n, .secondCounterIncrement, .lampTestTimerExpiry,
    .flashPhaseChange, .scanFrameStart, .readingStart, .readingComplete look]

/-- The state of the other blocks is the same after a frame or a pair, but for what a pair may write: configuration
memory, the lines it restarts, sensing, the Reset Cause. -/
structure State.SameOutsidePorts (s t : State) : Prop where
  pending : t.pending = s.pending
  resetHeld : t.resetHeld = s.resetHeld
  mode : t.mode = s.mode
  owner : t.owner = s.owner
  storeFault : t.storeFault = s.storeFault
  startOperate : t.startOperate = s.startOperate
  store : t.store = s.store
  saveMark : t.saveMark = s.saveMark
  storeOp : t.storeOp = s.storeOp
  engine : t.engine = s.engine
  pointer : t.pointer = s.pointer
  table : t.table = s.table
  counter : t.counter = s.counter

/-- The commands one after the other. -/
def runAll : List Instr → State → Host.Outcome State Fault Refusal
  | [], s => .next s
  | c :: cs, s =>
    match exec c s with
    | .next t => runAll cs t
    | .fault f => .fault f
    | .refused r => .refused r

/-- The supervision timer of port `p` when it is started in a mode outside STARTING (R174). -/
def State.freshTimer (s : State) (p : PortId) : Option (Fin 8) :=
  if s.config.period.get p = 0 then none else some (s.config.period.get p)

/-- A complete frame has ended at port `p`: the lapse is over, and outside STARTING supervision starts afresh
(R164, R174, R177). -/
structure State.FrameEnded (s t : State) (p : PortId) : Prop where
  frame : (t.port p).frame = none
  lapse : (t.port p).lapse = false
  timer : (t.port p).timer = if s.mode = .starting then (s.port p).timer else s.freshTimer p
  item : (s.port p).lapse = true → .lapse p ∈ t.queue
  queue : (s.port p).lapse = false → t.queue = s.queue
  owner : t.owner = s.owner
  peer : t.port (other p) = s.port (other p)

/-- A frame ended cut short at port `p` (R164): nothing but the port's event status and its pin changed. -/
structure State.FrameCut (s t : State) (p : PortId) : Prop where
  frame : (t.port p).frame = none
  mailbox : (t.port p).mailbox = (s.port p).mailbox
  refused : (t.port p).refused = (s.port p).refused
  respReady : (t.port p).respReady = (s.port p).respReady
  buffer : (t.port p).buffer = (s.port p).buffer
  timer : (t.port p).timer = (s.port p).timer
  lapse : (t.port p).lapse = (s.port p).lapse
  queue : t.queue = s.queue
  config : t.config = s.config
  peer : t.port (other p) = s.port (other p)

/-- A pair at port `p` judged: the frame stands at the next address with its mark of a refused pair, and the status
byte has been shifted out twice (R161, R166). -/
def State.pairAt (s t : State) (p : PortId) (addr : Half) (refused : Bool) : State :=
  t.onPort p fun x =>
    { x with frame := some (.write (addr + 1) refused), out := (s.port p).out ++ [s.status p, s.status p] }

/-- Port `p` writes configuration as its owner (Table 9-7). -/
def State.OwnsConfiguration (s : State) (p : PortId) : Prop :=
  s.mode = .configure ∧ s.owner = some p ∧ s.storeOp = .idle

/-! What the window, the status byte and the matrix show, by the tables of the spec. -/

/-- The status byte of port `p`, bit by bit, with `refused` in its REFUSED position (R162, Table 9-1). -/
structure State.StatusShows (s : State) (p : PortId) (refused : Bool) (b : Byte) : Prop where
  reqPending : b.getLsbD 7 = true ↔
    (∃ r, (s.port p).mailbox = .waiting r) ∨ (∃ r, (s.port p).mailbox = .taken r) ∨ (s.port p).mailbox = .storeWait
  respReady : b.getLsbD 6 = (s.port p).respReady
  event : b.getLsbD 5 = true ↔
    ∃ i : Fin 10, (s.port p).status.getLsbD i.val = true ∧ (s.port p).enable.getLsbD i.val = true
  refused : b.getLsbD 4 = refused
  mode : b.toNat / 4 % 4 = if s.mode = .starting then 0 else if s.mode = .configure then 1 else 2
  owner : b.getLsbD 1 = true ↔ s.owner = some p
  lapsed : b.getLsbD 0 = (s.port p).lapse

/-- A lamp test holds (R105, R150): the port-started timer runs, or outside STARTING a BUTTON_TEST line is asserted. -/
def State.LampTestHolds (s : State) : Prop :=
  s.display.lampTimer ≠ none ∨ (s.mode ≠ .starting ∧ ∃ n, (s.lineCfg n).role = .buttonTest
    ∧ (s.line n).qualified = (s.lineCfg n).activeHigh)

/-- What port `p` reads at the addresses of the window that show state (Table 9-6, R158, R180). -/
structure State.WindowShows (s : State) (p : PortId) (v : Half → Byte) : Prop where
  identification : v 0x0000 = 0x4F ∧ v 0x0001 = 0x96 ∧ v 0x0002 = 0x40 ∧ v 0x0003 = 0x01
  mode : v 0x0004 = if s.mode = .starting then 0 else if s.mode = .configure then 1 else 2
  owner : v 0x0005 = if s.owner = none then 0 else if s.owner = some .a then 1 else 2
  store : v 0x0006 = (if s.storeOp = .idle then 0 else 1) + (if s.storeFault = true then 2 else 0)
  thisPort : v 0x0007 = if p = .a then 1 else 2
  status : v 0x0011 ++ v 0x0010 = (s.port p).status.setWidth 16
  enable : v 0x0013 ++ v 0x0012 = (s.port p).enable.setWidth 16
  period : (v 0x0014).toNat = (s.config.period.get p).val
  interrupt : v 0x0015 = (if (s.config.interrupt.get p).activeHigh = true then 1 else 0)
    + (if (s.config.interrupt.get p).pushPull = true then 2 else 0)
  totals : v 0x0020 = BitVec.ofNat 8 s.table.counts.liveUser ∧ v 0x0021 = BitVec.ofNat 8 s.table.counts.liveSystem
    ∧ v 0x0022 = BitVec.ofNat 8 s.table.counts.waitingLength
  states : v 0x0023 = BitVec.ofNat 8 s.table.counts.new ∧ v 0x0024 = BitVec.ofNat 8 s.table.counts.acked
    ∧ v 0x0025 = BitVec.ofNat 8 s.table.counts.returned ∧ v 0x0026 = BitVec.ofNat 8 s.table.counts.ringback
    ∧ v 0x0027 = BitVec.ofNat 8 s.table.counts.held ∧ v 0x0028 = BitVec.ofNat 8 s.table.counts.shelved
  sounding : v 0x0029 = BitVec.ofNat 8 s.table.counts.alertSounding
    ∧ v 0x002A = BitVec.ofNat 8 s.table.counts.returnSounding
  present : ∀ k : Fin 8, v (0x002B + BitVec.ofNat 16 k.val) = BitVec.ofNat 8 (s.table.counts.presentByClass.get k)
  pool : v 0x0033 = BitVec.ofNat 8 s.table.counts.poolEligible ∧ v 0x0034 = BitVec.ofNat 8 s.table.counts.poolHidden
  flags : v 0x0035 = (if s.table.counts.hiddenUnacked = true then 1 else 0)
    + (if s.table.counts.sensorFault = true then 2 else 0)
  counter : ∀ i : Fin 4, v (0x0038 + BitVec.ofNat 16 i.val) = (s.latch >>> (8 * i.val)).setWidth 8
  levels : ∀ n : Fin 16, (v (0x003C + BitVec.ofNat 16 (n.val / 8))).getLsbD (n.val % 8) = (s.line n).raw
    ∧ (v (0x003E + BitVec.ofNat 16 (n.val / 8))).getLsbD (n.val % 8) = (s.line n).qualified
  resetCause : v 0x0040 = (if s.resetCause.power = true then 1 else 0) + (if s.resetCause.pin = true then 2 else 0)
    + (if s.resetCause.restart = true then 4 else 0)
  brightLevels : (v 0x0288).toNat = s.display.level.val ∧ (v 0x0289).toNat = s.display.sensed.val
    ∧ (v 0x028B).toNat = s.display.failed.val
  latest : (s.display.latest = .none → v 0x028A = 0xFF) ∧ (s.display.latest = .noDischarge → v 0x028A = 0x80)
    ∧ ∀ t, s.display.latest = .discharged t → (v 0x028A).toNat = t.val
  brightFlags : (v 0x028C).getLsbD 0 = s.display.sensorFault
    ∧ ((v 0x028C).getLsbD 1 = true ↔ s.display.lampTimer ≠ none)
    ∧ ((v 0x028C).getLsbD 2 = true ↔ s.mode ≠ .starting ∧ ∃ n, (s.lineCfg n).role = .buttonTest
      ∧ (s.line n).qualified = (s.lineCfg n).activeHigh)
    ∧ (v 0x028C).getLsbD 3 = s.display.stepLow ∧ (v 0x028C).toNat < 16

/-- What port `p` reads at the addresses that hold configuration (the field codings after Table 9-6, in the orders of
Table 5-1 and of that paragraph), and at every other address 0. -/
structure ConfigMem.WindowShows (c : ConfigMem) (v : Half → Byte) : Prop where
  lines : ∀ n : Fin 16, ∀ a : Half, a = 0x0100 + 8 * BitVec.ofNat 16 n.val →
    (v a).toNat = (c.lines.get n).role.code
      ∧ (v (a + 1)).toNat = (c.lines.get n).pull.code + 4 * (c.lines.get n).senseMode.code
        + (if (c.lines.get n).activeHigh = true then 128 else 0)
      ∧ v (a + 2) = (c.lines.get n).onDelay ∧ v (a + 3) = (c.lines.get n).offDelay
      ∧ v (a + 4) = (if (c.lines.get n).pushPull = true then 1 else 0)
        + (if (c.lines.get n).driveHigh = true then 2 else 0) + (if (c.lines.get n).pulsed = true then 4 else 0)
      ∧ (v (a + 5)).toNat = (c.lines.get n).threshold.val ∧ v (a + 6) = 0 ∧ v (a + 7) = 0
  slots : ∀ i : Fin 64, (v (0x0200 + 2 * BitVec.ofNat 16 i.val)).toNat = (c.slots.get i).role.code
    ∧ v (0x0200 + 2 * BitVec.ofNat 16 i.val + 1) = (c.slots.get i).operand
  brightness : (v 0x0280).toNat = c.brightness.mode.code ∧ (v 0x0281).toNat = c.brightness.fixed.val
    ∧ (v 0x0282).toNat = c.brightness.minimum.val ∧ (v 0x0283).toNat = c.brightness.maximum.val
    ∧ (v 0x0284).toNat = c.brightness.sensePeriod.val ∧ (v 0x0285).toNat = c.brightness.window.val
  points : ∀ x : Point, ∀ a : Half, a = 0x0400 + 4 * BitVec.ofNat 16 x.val →
    (v a).toNat = (c.point x).source.code
      ∧ (v (a + 1)).toNat = (c.point x).cls.val + 16 * (c.point x).group.val
      ∧ (v (a + 2)).toNat = (if (c.point x).latch = true then 1 else 0)
        + (if (c.point x).ringback = true then 2 else 0) + (if (c.point x).sound = true then 4 else 0)
        + (if (c.point x).pool = true then 8 else 0) + (if (c.point x).shelvable = true then 16 else 0)
        + (if (c.point x).enabled = true then 32 else 0)
      ∧ v (a + 3) = 0
  unused : ∀ a : Half, (8 ≤ a.toNat ∧ a.toNat < 0x0010) ∨ (0x0016 ≤ a.toNat ∧ a.toNat < 0x0020)
    ∨ (0x0036 ≤ a.toNat ∧ a.toNat < 0x0038) ∨ (0x0041 ≤ a.toNat ∧ a.toNat < 0x0100)
    ∨ (0x0180 ≤ a.toNat ∧ a.toNat < 0x0200) ∨ (0x0286 ≤ a.toNat ∧ a.toNat < 0x0288)
    ∨ (0x028D ≤ a.toNat ∧ a.toNat < 0x0400) ∨ 0x07F0 ≤ a.toNat → v a = 0

/-! Validation and refusals. -/

/-- Check `i + 1` of R187 passes. -/
def ConfigMem.Passes (c : ConfigMem) : Fin 7 → Prop
  | 0 => ∀ x n, (c.point x).source = .line n → (c.lines.get n).role = .sense
  | 1 => ∀ x y n, (c.point x).source = .line n → (c.point y).source = .line n → x = y
  | 2 => ∀ i j x, c.slots.get i = ⟨.dedicated, byteOfPoint x⟩ → c.slots.get j = ⟨.dedicated, byteOfPoint x⟩ → i = j
  | 3 => ∀ i, (c.slots.get i).role = .dedicated →
      ∃ x, (c.slots.get i).operand = byteOfPoint x ∧ (isSystem x = true ∨ (c.point x).source ≠ .none)
  | 4 => (∀ i, (c.slots.get i).role = .pool → (c.slots.get i).operand.toNat < c.poolSlots)
      ∧ ∀ i j, (c.slots.get i).role = .pool → (c.slots.get j).role = .pool →
        (c.slots.get i).operand = (c.slots.get j).operand → i = j
  | 5 => ∀ i j, (c.slots.get i).role = (c.slots.get j).role →
      (c.slots.get i).role = .overflow ∨ (c.slots.get i).role = .health ∨ (c.slots.get i).role = .sensor → i = j
  | 6 => c.brightness.minimum ≤ c.brightness.maximum
      ∧ (c.brightness.mode = .ambient → ∃ i, (c.slots.get i).role = .sensor)

/-- The lengths that a request code accepts (Table 9-2). -/
def lengthsOf (code : Byte) : List Nat :=
  if code ∈ [0x21, 0x22, 0x23, 0x29, 0x42, 0x51, 0x52, 0x58, 0x59, 0x5F] then [0]
  else if code ∈ [0x10, 0x11, 0x12, 0x34, 0x35, 0x38, 0x48, 0x50] then [1]
  else if code ∈ [0x20, 0x28, 0x2A, 0x31] then [1, 3]
  else if code = 0x30 then [3, 5]
  else if code = 0x40 then [2]
  else [4]

/-- The request passes the form check (R71): a length that its code accepts, and operands in their ranges. -/
def Request.FormFits (r : Request) : Prop :=
  r.len.toNat ∈ lengthsOf r.code ∧ (r.code = 0x30 → r.half 1 ≠ 0) ∧ (r.code = 0x40 → (r.byte 1).toNat ≤ 1)
    ∧ (r.code = 0x41 → (r.byte 1).toNat < 32 ∧ (r.byte 2).toNat ≤ 7 ∧ (r.byte 3).toNat ≤ 2)
    ∧ (r.code = 0x38 → 1 ≤ (r.byte 0).toNat ∧ (r.byte 0).toNat ≤ 7) ∧ (r.code = 0x48 → (r.byte 0).toNat ≤ 10)
    ∧ (r.code = 0x50 → (r.byte 0).toNat ≤ 1)

/-- The codes of the requests that name a point (Table 9-2). -/
def pointCodes : List Byte := [0x10, 0x11, 0x12, 0x20, 0x28, 0x2A, 0x30, 0x31, 0x34, 0x35, 0x40, 0x41]

/-- A request that names point `x`, granted in OPERATE, that passes the point and form checks (R69 to R71). -/
structure State.Asks (s : State) (p : PortId) (r : Request) (x : Point) : Prop where
  granted : s.Grants p r
  operate : s.mode = .operate
  names : r.Names x
  defined : s.config.defined x = true
  form : r.FormFits

/-- The expected revision of the request, behind `n` operand bytes, is that of point `x`, or none is carried (R84). -/
def State.RevisionFits (s : State) (r : Request) (n : Nat) (x : Point) : Prop :=
  r.len.toNat = n + 2 → r.half n = (s.table.live x).revision

/-- The request was refused with `x` and changed nothing but the answer of its port (R68, R69, R72). -/
structure State.Refused (s t : State) (p : PortId) (x : Result) : Prop where
  answered : t.Answered p x 0
  table : s.table.Same t.table
  news : s.News t False False False False
  watches : ∀ q, (t.port q).watch = (s.port q).watch
  mode : t.mode = s.mode
  owner : t.owner = s.owner
  config : t.config = s.config
  lines : t.lines = s.lines
  display : t.display = s.display
  store : t.store = s.store
  storeOp : t.storeOp = s.storeOp

/-! The grant (R64). -/

/-- Mailbox `p` is WAITING. -/
def State.Waits (s : State) (p : PortId) : Prop := ∃ r, (s.port p).mailbox = .waiting r

end Sys2Proof.Machine
end

