-- ==== Sys2Proof/Certificates/Slice0/Obligations.lean ====
section
/-! DEFINITION. The statements for the provers. -/

open Sys2Proof Sys2Proof.Machine

/-! The queue, the resets and the end of STARTING. -/

/-- Every step runs the command at the front of the queue on the queue's rest. On an empty queue a row period of the
scan passes, up to that of row 7, and a reading in progress moves with it (R149, R156); that an idle step is a row
period is the model's choice: log 2; that a reading's charge waits for the next row period of its row is its reading of
R156: log 20. -/
def Obligations.StepRunsFrontCommand : Prop :=
  (∀ (c : Instr) (rest : List Instr) (s : State),
    s.pending = c :: rest → step s = exec c { s with pending := rest })
  ∧ ∀ s : State, s.pending = [] →
    (s.resetHeld = true ∨ s.display.row = 7 → step s = .next s)
    ∧ (s.resetHeld = false → ∀ r : Fin 8, r.val = s.display.row.val + 1 →
        step s = .next { s with display := { s.display with
          row := r
          reading := s.display.reading.map fun x => { x with
            stage := if x.stage ≠ .toCharge then .looking
              else if s.config.sensorSlot.map (·.val / 8) = some r.val then .charging else .toCharge } } })

/-- Every command answers a next state and leaves the queue of commands alone; while the reset input is held every
piece of state stays as it is (R183). -/
def Obligations.EveryCommandAnswersNext : Prop :=
  (∀ (c : Instr) (s : State), ∃ t, exec c s = .next t ∧ t.pending = s.pending)
  ∧ (∀ (c : Instr) (s : State), s.resetHeld = true → (∀ l, c ≠ .powerReset l) → c ≠ .pinReset →
    (∀ l, c ≠ .pinResetRelease l) → exec c s = .next s)

/-- R196: what a power reset leaves. That the reset input is not held afterwards is the model's choice: log 14. -/
def Obligations.PowerResetStartsThePart : Prop :=
  ∀ (levels : BitVec 16) (s : State), ∃ t, exec (.powerReset levels) s = .next t
    ∧ t.resetHeld = false ∧ t.AtReset ∧ t.StartUpDone levels ∧ t.resetCause = ⟨true, false, false⟩
    ∧ t.saveMark = s.saveMark ∧ (s.interrupts = false → t.store = s.store)

/-- R183, R196: a pin reset sets and holds the reset values, and its release does the start-up work. -/
def Obligations.PinResetHoldsThenStarts : Prop :=
  (∀ s : State, ∃ t, exec .pinReset s = .next t ∧ t.resetHeld = true ∧ t.AtReset ∧ t.config = ConfigMem.default
    ∧ t.storeFault = false ∧ t.resetCause = s.resetCause ∧ t.saveMark = s.saveMark
    ∧ (s.interrupts = false → t.store = s.store))
  ∧ ∀ (levels : BitVec 16) (s : State), s.resetHeld = true → s.AtReset → s.config = ConfigMem.default →
    ∃ t, exec (.pinResetRelease levels) s = .next t ∧ t.resetHeld = false ∧ t.AtReset ∧ t.StartUpDone levels
      ∧ t.resetCause = { s.resetCause with pin := true } ∧ t.saveMark = s.saveMark ∧ t.store = s.store

/-- R197: how each kind of reset, and a pair at 0x0040, changes the Reset Cause. -/
def Obligations.ResetCauseRecordsResets : Prop :=
  (∀ levels s, ∃ t, exec (.powerReset levels) s = .next t ∧ t.resetCause = ⟨true, false, false⟩)
  ∧ (∀ levels s, s.resetHeld = true →
      ∃ t, exec (.pinResetRelease levels) s = .next t ∧ t.resetCause = { s.resetCause with pin := true })
  ∧ (∀ (s : State) (p : PortId) (r : Request), s.Grants p r → r.code = 0x5F → r.len = 0 → s.mode ≠ .starting →
      s.storeBusy = false →
      ∃ t, exec (.restart p) s = .next t ∧ t.resetCause = { s.resetCause with restart := true })
  ∧ (∀ (s : State) (p : PortId) (refused : Bool) (mask data : Byte), s.resetHeld = false →
      (s.port p).frame = some (.write 0x0040 refused) → s.mode ≠ .starting →
      ∃ t, exec (.resetCauseClear p mask data) s = .next t
        ∧ t.resetCause.power = (s.resetCause.power && !(mask.getLsbD 0 && data.getLsbD 0))
        ∧ t.resetCause.pin = (s.resetCause.pin && !(mask.getLsbD 1 && data.getLsbD 1))
        ∧ t.resetCause.restart = (s.resetCause.restart && !(mask.getLsbD 2 && data.getLsbD 2))
        ∧ (t.port p).frame = some (.write 0x0041 refused))
  ∧ ∀ (s : State) (p : PortId) (refused : Bool) (mask data : Byte), s.resetHeld = false →
      (s.port p).frame = some (.write 0x0040 refused) → s.mode = .starting → mask ≠ 0 →
      ∃ t, exec (.resetCauseClear p mask data) s = .next t ∧ t.resetCause = s.resetCause
        ∧ (t.port p).frame = some (.write 0x0041 true)

/-- R195: what a reset leaves of a store operation that it ends; a pin reset is followed by its release. -/
def Obligations.ResetEndsStoreOperation : Prop :=
  ∀ (levels : BitVec 16) (s : State) (cs : List Instr),
    cs = [.powerReset levels] ∨ cs = [.pinReset, .pinResetRelease levels] →
    (∀ p, s.storeOp = .reading p ∨ (∃ x, s.storeOp = .ended p (.loaded x)) →
      ∃ t, runAll cs s = .next t ∧ t.store = s.store ∧ t.storeOp = .idle ∧ t.queue = []
        ∧ (t.port p).mailbox = .empty)
    ∧ (∀ p image, s.saveMark = true →
        s.storeOp = .erasing p image ∨ s.storeOp = .programming p image ∨ s.storeOp = .verifying p image
          ∨ s.storeOp = .ended p (.saved false) →
        ∃ t, runAll cs s = .next t ∧ t.saveMark = true ∧ classify t.saveMark t.store = .corrupt
          ∧ t.storeFault = true ∧ t.config = ConfigMem.default ∧ t.startOperate = false ∧ t.storeOp = .idle
          ∧ t.queue = [] ∧ (t.port p).mailbox = .empty)
    ∧ ∀ p c, s.storeOp = .ended p (.saved true) → s.saveMark = false → c.FieldsLegal →
        s.store = Memory.ofBytes 0 (imageBytes c) →
        ∃ t, runAll cs s = .next t ∧ t.store = s.store ∧ t.config = c ∧ t.storeFault = false ∧ t.storeOp = .idle
          ∧ t.queue = [] ∧ (t.port p).mailbox = .empty

/-- R183, R189, R196, R198: the end of STARTING, in whichever mode was decided; a HELD mailbox becomes EMPTY, and a
store fault found at start-up raises point 251 at the entry to OPERATE. That MODE_CHANGE alone is set afterwards, also
where the entry creates records, is the model's reading: log 13. -/
def Obligations.EndOfStartingEntersTheMode : Prop :=
  (∀ (levels : BitVec 16) (s : State), s.resetHeld = false → s.mode = .starting →
    ∃ t, exec (.endOfStarting levels) s = .next t
      ∧ t.mode = (if s.startOperate then .operate else .configure)
      ∧ t.engine = .free ∧ t.pointer = s.pointer ∧ t.config = s.config
      ∧ (∀ p, (t.port p).status = Event.modeChange.mask ∧ ((s.port p).mailbox = .held → (t.port p).mailbox = .empty)
          ∧ ((s.port p).mailbox ≠ .held → (t.port p).mailbox = (s.port p).mailbox)
          ∧ (t.port p).enable = (s.port p).enable
          ∧ (t.port p).timer = (if s.config.period.get p = 0 then none else some (s.config.period.get p)))
      ∧ (∀ n : Fin 16, t.line n = ⟨levels.getLsbD n.val, levels.getLsbD n.val, none, false, false⟩)
      ∧ (t.display.reading ≠ none ↔ s.config.sensorSlot ≠ none ∨ s.display.reading ≠ none)
      ∧ (s.startOperate = true → ∀ n : Fin 16, (s.config.lines.get n).role = .sense → .line n ∈ t.queue)
      ∧ (s.display.sensorFault = true → .sensor ∈ t.queue))
  ∧ (∀ (levels : BitVec 16) (s : State), s.resetHeld = false → s.mode = .starting → s.startOperate = true →
    s.table = Table.reset → (∀ p, (s.port p).lapse = false) → s.storeFault = true →
    ∃ t r, exec (.endOfStarting levels) s = .next t ∧ t.table.recordOf storeFaultPoint = some r
      ∧ r.state = .new ∧ r.count = 1 ∧ r.sounding = (s.config.point storeFaultPoint).sound
      ∧ (t.table.live storeFaultPoint).condition = true ∧ (t.table.live storeFaultPoint).revision = 1
      ∧ t.table.rank = [storeFaultPoint])

/-! Frames and pairs. -/

/-- R161, R162, R163, R169, Table 9-1: a complete request frame is submitted to an EMPTY mailbox, and is otherwise not
taken; every byte shifts out the status byte, with the decision in its REFUSED position from the second byte on. -/
def Obligations.RequestFrameSubmitsOrIsRefused : Prop :=
  (∀ (s : State) (p : PortId) (code len : Byte) (operands : List Byte),
    s.resetHeld = false → (s.port p).frame = none → min len.toNat 5 ≤ operands.length →
    ∃ t, exec (.requestFrame p (.whole (code :: len :: operands))) s = .next t ∧ s.FrameEnded t p
      ∧ (t.port p).buffer = (s.port p).buffer
      ∧ ((s.port p).mailbox = .empty →
          (t.port p).mailbox = .waiting ⟨code, len, operands.take (min len.toNat 5)⟩
          ∧ (t.port p).respReady = false ∧ (t.port p).refused = false
          ∧ (t.port p).out = s.status p :: List.replicate (2 + operands.length) (s.statusWith p false))
      ∧ ((s.port p).mailbox ≠ .empty →
          (t.port p).mailbox = (s.port p).mailbox ∧ (t.port p).respReady = (s.port p).respReady
          ∧ (t.port p).refused = true
          ∧ (t.port p).out = s.status p :: List.replicate (2 + operands.length) (s.statusWith p true)))
  ∧ ∀ (s : State) (p : PortId), s.StatusShows p (s.port p).refused (s.status p)
      ∧ ∀ x, s.StatusShows p x (s.statusWith p x)

/-- R160, R161, R165, R166: each kind of frame sent whole is its parts one after the other, with the kind byte that
selects its kind; of a window frame's bytes the first two are its address, most significant byte first, and the bytes
of a window write after its address are its pairs. -/
def Obligations.WholeFrameIsItsParts : Prop :=
  (∀ (s : State) (p : PortId) (bs : List Byte), (s.port p).frame = none → s.resetHeld = false →
    (∀ cs : FramePart → Instr,
      cs = .requestFrame p ∨ cs = .windowRead p ∨ cs = .windowWrite p ∨ cs = .responseRead p →
      exec (cs (.whole bs)) s = runAll [cs .select, cs .kind, cs (.bytes bs), cs .finish] s)
    ∧ ∀ kind, kind ≠ 0xA1 → kind ≠ 0xA2 → kind ≠ 0xA4 → kind ≠ 0xA8 →
      exec (.statusOnlyFrame p kind (.whole bs)) s = runAll [.statusOnlyFrame p kind .select,
        .statusOnlyFrame p kind .kind, .statusOnlyFrame p kind (.bytes bs), .statusOnlyFrame p kind .finish] s)
  ∧ (∀ (s : State) (p : PortId), (s.port p).frame = none → s.resetHeld = false →
      ∃ t, exec (.windowRead p .select) s = .next t ∧ exec (.windowWrite p .select) s = .next t
        ∧ exec (.requestFrame p .select) s = .next t ∧ exec (.responseRead p .select) s = .next t
        ∧ exec (.windowRead p .finish) t = .next (s.onPort p fun x => { x with out := [s.status p] }))
  ∧ (∀ (s : State) (p : PortId), (s.port p).frame = some .selected → s.resetHeld = false →
      (∃ t, exec (.windowRead p .kind) s = .next t ∧ (t.port p).frame = some (.address false none)
        ∧ (t.port p).out = (s.port p).out)
      ∧ (∃ t, exec (.windowWrite p .kind) s = .next t ∧ (t.port p).frame = some (.address true none)
        ∧ (t.port p).out = (s.port p).out)
      ∧ (∃ t, exec (.requestFrame p .kind) s = .next t
        ∧ (t.port p).frame = some (.request (decide ((s.port p).mailbox = .empty)) [])
        ∧ (t.port p).out = (s.port p).out)
      ∧ (∃ t, exec (.responseRead p .kind) s = .next t ∧ (t.port p).frame = some (.response none 0 false)
        ∧ (t.port p).out = (s.port p).out)
      ∧ frameKindOf 0xA1 = some .windowRead ∧ frameKindOf 0xA2 = some .windowWrite
      ∧ frameKindOf 0xA4 = some .request ∧ frameKindOf 0xA8 = some .responseRead)
  ∧ ∀ (s : State) (p : PortId) (high low mask data : Byte), s.resetHeld = false →
      ((s.port p).frame = some (.address false none) →
        ∃ t, exec (.windowRead p (.bytes [high, low])) s = .next t ∧ (t.port p).frame = some (.read (high ++ low))
          ∧ (t.port p).out = (s.port p).out ++ [s.status p, s.status p])
      ∧ ((s.port p).frame = some (.address true none) →
        ∃ t, exec (.windowWrite p (.bytes [high, low])) s = .next t
          ∧ (t.port p).frame = some (.write (high ++ low) false)
          ∧ (t.port p).out = (s.port p).out ++ [s.status p, s.status p])
      ∧ ∀ addr refused, (s.port p).frame = some (.write addr refused) →
        exec (.windowWrite p (.bytes [mask, data])) s = exec (.windowWritePair p mask data) s

/-- R158, R161, R165, R180, Table 9-6: a window read shifts out the status byte three times and then the window's
bytes. That the bits of a used byte which its layout does not name read 0 is the model's reading: log 12. -/
def Obligations.WindowReadShiftsOutTheWindow : Prop :=
  ∀ (s : State) (p : PortId) (high low : Byte) (data : List Byte), s.resetHeld = false → (s.port p).frame = none →
    (∀ i, i < data.length → high ++ low + BitVec.ofNat 16 i ≠ 0x0038) →
    ∃ t v, exec (.windowRead p (.whole (high :: low :: data))) s = .next t ∧ s.FrameEnded t p
      ∧ s.WindowShows p v ∧ s.config.WindowShows v
      ∧ (t.port p).out = [s.status p, s.status p, s.status p]
          ++ (List.range data.length).map (fun i => v (high ++ low + BitVec.ofNat 16 i))
      ∧ (t.port p).mailbox = (s.port p).mailbox ∧ (t.port p).status = (s.port p).status
      ∧ (t.port p).respReady = (s.port p).respReady ∧ t.table = s.table ∧ t.config = s.config
      ∧ t.latch = s.latch ∧ t.counter = s.counter ∧ t.lines = s.lines ∧ t.display = s.display

/-- R119: the latch of the Second Counter. -/
def Obligations.LatchHoldsTheCounterAsRead : Prop :=
  (∀ (s : State) (p : PortId), s.resetHeld = false → (s.port p).frame = some (.read 0x0038) →
    ∃ t, exec (.secondCounterLatch p) s = .next t ∧ (∀ b, exec (.windowRead p (.bytes [b])) s = .next t)
      ∧ t.latch = s.counter ∧ t.counter = s.counter
      ∧ (t.port p).out = (s.port p).out ++ [s.counter.setWidth 8] ∧ (t.port p).frame = some (.read 0x0039))
  ∧ (∀ (s : State) (p : PortId) (i : Nat), s.resetHeld = false → 1 ≤ i → i ≤ 3 →
      (s.port p).frame = some (.read (0x0038 + BitVec.ofNat 16 i)) →
      ∃ t, (∀ b, exec (.windowRead p (.bytes [b])) s = .next t) ∧ t.latch = s.latch ∧ t.counter = s.counter
        ∧ (t.port p).out = (s.port p).out ++ [(s.latch >>> (8 * i)).setWidth 8])
  ∧ (∀ (s : State) (p : PortId) (i : Nat) (refused : Bool) (mask data : Byte), s.resetHeld = false → i ≤ 3 →
      (s.port p).frame = some (.write (0x0038 + BitVec.ofNat 16 i) refused) →
      exec (.windowWritePair p mask data) s =
        .next (s.pairAt s p (0x0038 + BitVec.ofNat 16 i) refused))
  ∧ (∀ (c : Instr) (s t : State), exec c s = .next t → (∀ p x, c ≠ .windowRead p x) →
      (∀ p, c ≠ .secondCounterLatch p) → (∀ l, c ≠ .powerReset l) → c ≠ .pinReset → (∀ p, c ≠ .restart p) →
      t.latch = s.latch)
  ∧ (∀ levels s, ∃ t, exec (.powerReset levels) s = .next t ∧ t.latch = 0)
  ∧ (∀ s, ∃ t, exec .pinReset s = .next t ∧ t.latch = 0)
  ∧ ∀ (s : State) (p : PortId) (r : Request), s.Grants p r → r.code = 0x5F → r.len = 0 → s.mode ≠ .starting →
      s.storeBusy = false → ∃ t, exec (.restart p) s = .next t ∧ t.latch = 0

/-- R166, R167, Table 9-7: a pair that is not to be applied changes nothing; a refused one is remembered and reported
once, at the end of the frame. -/
def Obligations.PairsNotAppliedChangeNothing : Prop :=
  (∀ (s : State) (p : PortId) (addr : Half) (refused : Bool) (mask data : Byte), s.resetHeld = false →
    (s.port p).frame = some (.write addr refused) →
    (mask = 0 → exec (.windowWritePair p mask data) s = .next (s.pairAt s p addr refused))
    ∧ (mask ≠ 0 →
        (0x0100 ≤ addr.toNat ∧ addr.toNat ≤ 0x017F ∧ addr.toNat % 8 < 6
          ∨ 0x0200 ≤ addr.toNat ∧ addr.toNat ≤ 0x027F
          ∨ 0x0400 ≤ addr.toNat ∧ addr.toNat ≤ 0x07EF ∧ addr.toNat % 4 < 3) →
        ¬ s.OwnsConfiguration p →
        exec (.windowWritePair p mask data) s = .next (s.pairAt s p addr true))
    ∧ (mask ≠ 0 → 0x0280 ≤ addr.toNat → addr.toNat ≤ 0x0285 → ¬ s.OwnsConfiguration p → s.mode ≠ .operate →
        exec (.windowWritePair p mask data) s = .next (s.pairAt s p addr true))
    ∧ (mask ≠ 0 → (0x0010 ≤ addr.toNat ∧ addr.toNat ≤ 0x0015 ∨ addr.toNat = 0x0040) → s.mode = .starting →
        exec (.windowWritePair p mask data) s = .next (s.pairAt s p addr true))
    ∧ (mask ≠ 0 → (addr.toNat = 0x0014 ∨ addr.toNat = 0x0015) → s.storeOp ≠ .idle →
        exec (.windowWritePair p mask data) s = .next (s.pairAt s p addr true))
    ∧ ((addr.toNat < 0x0010 ∨ 0x0016 ≤ addr.toNat ∧ addr.toNat < 0x0040 ∨ 0x0041 ≤ addr.toNat ∧ addr.toNat < 0x0100
          ∨ 0x0100 ≤ addr.toNat ∧ addr.toNat ≤ 0x017F ∧ 6 ≤ addr.toNat % 8
          ∨ 0x0180 ≤ addr.toNat ∧ addr.toNat < 0x0200 ∨ 0x0286 ≤ addr.toNat ∧ addr.toNat < 0x0400
          ∨ 0x0400 ≤ addr.toNat ∧ addr.toNat ≤ 0x07EF ∧ addr.toNat % 4 = 3 ∨ 0x07F0 ≤ addr.toNat) →
        exec (.windowWritePair p mask data) s = .next (s.pairAt s p addr refused)))
  ∧ (∀ (s : State) (p : PortId) (addr : Half) (refused : Bool), s.resetHeld = false →
    (s.port p).frame = some (.write addr refused) →
    ∃ t, exec (.windowWrite p .finish) s = .next t ∧ s.FrameEnded t p
      ∧ (t.port p).status = (if refused then (s.port p).status ||| Event.writeRefused.mask else (s.port p).status)
      ∧ t.config = s.config ∧ t.table = s.table ∧ t.lines = s.lines ∧ (t.port p).mailbox = (s.port p).mailbox)

/-- R168: the event status and the Reset Cause are cleared by writing 1. -/
def Obligations.StatusAndCauseClearByWritingOne : Prop :=
  (∀ (s : State) (p : PortId) (high refused : Bool) (mask data : Byte), s.resetHeld = false →
    (s.port p).frame = some (.write (if high then 0x0011 else 0x0010) refused) → s.mode ≠ .starting →
    ∃ t, exec (.eventStatusClear p mask data) s = .next t
      ∧ (∀ i : Fin 10, (t.port p).status.getLsbD i.val =
          ((s.port p).status.getLsbD i.val &&
            !(if high then decide (8 ≤ i.val) && mask.getLsbD (i.val - 8) && data.getLsbD (i.val - 8)
              else decide (i.val < 8) && mask.getLsbD i.val && data.getLsbD i.val)))
      ∧ (t.port (other p)).status = (s.port (other p)).status ∧ t.resetCause = s.resetCause)
  ∧ (∀ (s : State) (p : PortId) (refused : Bool) (mask data : Byte), s.resetHeld = false →
      (s.port p).frame = some (.write 0x0040 refused) → s.mode ≠ .starting →
      ∃ t, exec (.resetCauseClear p mask data) s = .next t
        ∧ t.resetCause = ⟨s.resetCause.power && !(mask &&& data).getLsbD 0,
            s.resetCause.pin && !(mask &&& data).getLsbD 1, s.resetCause.restart && !(mask &&& data).getLsbD 2⟩
        ∧ ∀ q, (t.port q).status = (s.port q).status)
  ∧ ∀ (s : State) (p : PortId) (refused : Bool) (mask data : Byte), s.resetHeld = false → s.mode = .starting →
      mask ≠ 0 →
      (∀ high : Bool, (s.port p).frame = some (.write (if high then 0x0011 else 0x0010) refused) →
        exec (.eventStatusClear p mask data) s =
          .next (s.pairAt s p (if high then 0x0011 else 0x0010) true))
      ∧ ((s.port p).frame = some (.write 0x0040 refused) →
          exec (.resetCauseClear p mask data) s = .next (s.pairAt s p 0x0040 true))

/-- R172, R173: the port's own event enable takes the bits of the mask, and an interrupt line configuration takes effect
on the pin at once. -/
def Obligations.EnableAndInterruptPairsDriveThePin : Prop :=
  (∀ (s : State) (p : PortId) (high refused : Bool) (mask data : Byte), s.resetHeld = false →
    (s.port p).frame = some (.write (if high then 0x0013 else 0x0012) refused) → s.mode ≠ .starting →
    ∃ t, exec (.eventEnableWrite p mask data) s = .next t
        ∧ exec (.windowWritePair p mask data) s = .next t
      ∧ (∀ i : Fin 10, (t.port p).enable.getLsbD i.val =
          if high = decide (8 ≤ i.val) then
            (if mask.getLsbD (i.val % 8) then data.getLsbD (i.val % 8) else (s.port p).enable.getLsbD i.val)
          else (s.port p).enable.getLsbD i.val)
      ∧ (t.port p).status = (s.port p).status ∧ t.port (other p) = s.port (other p)
      ∧ t.interruptPin p = drivePin (decide ((s.port p).status &&& (t.port p).enable ≠ 0))
          (s.config.interrupt.get p).activeHigh (s.config.interrupt.get p).pushPull)
  ∧ (∀ (s : State) (p : PortId) (refused : Bool) (data : Byte), s.resetHeld = false →
    (s.port p).frame = some (.write 0x0015 refused) → s.mode ≠ .starting → s.storeOp = .idle →
    ∃ t, exec (.interruptLineConfigWrite p 0xFF data) s = .next t
        ∧ exec (.windowWritePair p 0xFF data) s = .next t
      ∧ t.config.interrupt.get p = ⟨data.getLsbD 0, data.getLsbD 1⟩
      ∧ t.config.interrupt.get (other p) = s.config.interrupt.get (other p)
      ∧ t.interruptPin p =
          (if (s.port p).event = data.getLsbD 0 then (if data.getLsbD 1 then .high else .released) else .low))

/-- R174: a change of the supervision period restarts the timer; a value out of range, and the same value, change
nothing. -/
def Obligations.PeriodPairRestartsSupervision : Prop :=
  ∀ (s : State) (p : PortId) (refused : Bool) (data : Byte), s.resetHeld = false →
    (s.port p).frame = some (.write 0x0014 refused) → s.mode ≠ .starting → s.storeOp = .idle →
    (∀ h : data.toNat < 8, s.config.period.get p ≠ ⟨data.toNat, h⟩ →
      ∃ t, exec (.supervisionPeriodWrite p 0xFF data) s = .next t
        ∧ exec (.windowWritePair p 0xFF data) s = .next t
        ∧ t.config.period.get p = ⟨data.toNat, h⟩
        ∧ (t.port p).timer = (if data = 0 then none else some ⟨data.toNat, h⟩)
        ∧ t.config.period.get (other p) = s.config.period.get (other p) ∧ t.port (other p) = s.port (other p)
        ∧ t.config.points = s.config.points ∧ t.config.lines = s.config.lines ∧ t.config.slots = s.config.slots)
    ∧ ((8 ≤ data.toNat ∨ data.toNat = (s.config.period.get p).val) →
        exec (.supervisionPeriodWrite p 0xFF data) s = .next (s.pairAt s p 0x0014 refused))

/-- R97, R167: a pair to a line's configuration: what each of its bytes holds, a value that a field cannot take being
kept out of it; a change takes effect at once and restarts the line's input handling. -/
def Obligations.LineConfigurationPairRestartsTheLine : Prop :=
  ∀ (s : State) (p : PortId) (n : Fin 16) (i : Nat) (refused : Bool) (mask data : Byte), s.resetHeld = false →
    s.OwnsConfiguration p → i < 6 →
    (s.port p).frame = some (.write (0x0100 + 8 * BitVec.ofNat 16 n.val + BitVec.ofNat 16 i) refused) →
    ∃ t, exec (.lineConfigurationWrite p mask data) s = .next t ∧ exec (.windowWritePair p mask data) s = .next t
      ∧ (t.lineCfg n ≠ s.lineCfg n → t.line n = ⟨(s.line n).raw, (s.line n).raw, none, false, false⟩)
      ∧ (t.lineCfg n = s.lineCfg n → t.line n = s.line n)
      ∧ (∀ m, m ≠ n → t.line m = s.line m ∧ t.lineCfg m = s.lineCfg m)
      ∧ (i = 0 → mask = 0xFF → t.lineCfg n = { s.lineCfg n with
          role := (LineRole.ofCode data.toNat).getD (s.lineCfg n).role })
      ∧ (i = 1 → mask = 0xFF → t.lineCfg n = { s.lineCfg n with
          pull := if data.toNat % 4 = 0 then .none else if data.toNat % 4 = 1 then .up
            else if data.toNat % 4 = 2 then .down else (s.lineCfg n).pull
          senseMode := if data.toNat / 4 % 8 = 0 then .levelHigh else if data.toNat / 4 % 8 = 1 then .levelLow
            else if data.toNat / 4 % 8 = 2 then .rise else if data.toNat / 4 % 8 = 3 then .fall
            else if data.toNat / 4 % 8 = 4 then .both else (s.lineCfg n).senseMode
          activeHigh := data.getLsbD 7 })
      ∧ (i = 2 → t.lineCfg n = { s.lineCfg n with onDelay := merge (s.lineCfg n).onDelay mask data })
      ∧ (i = 3 → t.lineCfg n = { s.lineCfg n with offDelay := merge (s.lineCfg n).offDelay mask data })
      ∧ (i = 4 → mask = 0xFF → t.lineCfg n = { s.lineCfg n with
          pushPull := data.getLsbD 0, driveHigh := data.getLsbD 1, pulsed := data.getLsbD 2 })
      ∧ (i = 5 → mask = 0xFF → ∀ k : Fin 8, data.toNat = k.val →
          t.lineCfg n = { s.lineCfg n with threshold := k })
      ∧ (i = 5 → mask = 0xFF → 8 ≤ data.toNat → t.lineCfg n = s.lineCfg n)

/-- R129, R155: a Slot Map pair changes its entry, and sensing follows the map at once. That the reading begun waits for
its charge is the model's reading: log 20. -/
def Obligations.SlotMapPairTakesEffect : Prop :=
  ∀ (s : State) (p : PortId) (n : Fin 64) (refused : Bool) (mask data : Byte), s.resetHeld = false →
    s.OwnsConfiguration p →
    ((s.port p).frame = some (.write (0x0200 + 2 * BitVec.ofNat 16 n.val) refused) → mask = 0xFF →
      ∃ t, exec (.slotMapWrite p mask data) s = .next t
        ∧ (t.config.slots.get n).role = (SlotRole.ofCode data.toNat).getD (s.config.slots.get n).role
        ∧ (t.config.slots.get n).operand = (s.config.slots.get n).operand
        ∧ (∀ m, m ≠ n → t.config.slots.get m = s.config.slots.get m)
        ∧ t.table = s.table ∧ t.config.points = s.config.points ∧ t.config.lines = s.config.lines
        ∧ (s.config.sensorSlot = none → data = 5 →
            t.display.reading = some ⟨s.config.brightness.window, .toCharge⟩)
        ∧ (s.config.sensorSlot ≠ none → t.config.sensorSlot = none →
            t.display.reading = none ∧ t.display.failed = 0 ∧ t.display.sensorFault = false))
    ∧ ((s.port p).frame = some (.write (0x0200 + 2 * BitVec.ofNat 16 n.val + 1) refused) →
        ∃ t, exec (.slotMapWrite p mask data) s = .next t
          ∧ (t.config.slots.get n).operand = merge (s.config.slots.get n).operand mask data
          ∧ (t.config.slots.get n).role = (s.config.slots.get n).role)

/-- R3, R4, R5: a point definition pair of the owner. -/
def Obligations.PointDefinitionPairKeepsFixedFields : Prop :=
  ∀ (s : State) (p : PortId) (x : Point) (refused : Bool) (data : Byte), s.resetHeld = false →
    s.OwnsConfiguration p →
    ((s.port p).frame = some (.write (0x0400 + 4 * BitVec.ofNat 16 x.val) refused) →
      ∃ t, exec (.pointDefinitionWrite p 0xFF data) s = .next t
        ∧ exec (.windowWritePair p 0xFF data) s = .next t ∧ t.table = s.table
        ∧ (∀ y, y ≠ x → t.config.point y = s.config.point y)
        ∧ (t.config.point x).cls = (s.config.point x).cls
        ∧ (isSystem x = true ∨ data = 0x30 → t.config.point x = s.config.point x)
        ∧ (isSystem x = false → data = 0 → (t.config.point x).source = .none)
        ∧ (isSystem x = false → data = 0x20 → (t.config.point x).source = .port)
        ∧ ∀ n : Fin 16, isSystem x = false → data = 0x10 + BitVec.ofNat 8 n.val →
            (t.config.point x).source = .line n)
    ∧ ((s.port p).frame = some (.write (0x0400 + 4 * BitVec.ofNat 16 x.val + 1) refused) →
        ∃ t, exec (.pointDefinitionWrite p 0xFF data) s = .next t ∧ t.table = s.table
          ∧ (t.config.point x).cls.val = data.toNat % 8 ∧ (t.config.point x).group.val = data.toNat / 16 % 8
          ∧ (t.config.point x).source = (s.config.point x).source)
    ∧ ((s.port p).frame = some (.write (0x0400 + 4 * BitVec.ofNat 16 x.val + 2) refused) →
        ∃ t, exec (.pointDefinitionWrite p 0xFF data) s = .next t ∧ t.table = s.table
          ∧ (t.config.point x).sound = data.getLsbD 2 ∧ (t.config.point x).pool = data.getLsbD 3
          ∧ (isSystem x = false → (t.config.point x).latch = data.getLsbD 0
              ∧ (t.config.point x).ringback = data.getLsbD 1 ∧ (t.config.point x).shelvable = data.getLsbD 4
              ∧ (t.config.point x).enabled = data.getLsbD 5)
          ∧ (isSystem x = true → (t.config.point x).latch = (s.config.point x).latch
              ∧ (t.config.point x).ringback = (s.config.point x).ringback
              ∧ (t.config.point x).shelvable = (s.config.point x).shelvable
              ∧ (t.config.point x).enabled = (s.config.point x).enabled))

/-- R152, R154: a brightness pair, in OPERATE from either port and in CONFIGURE from the owner. -/
def Obligations.BrightnessPairTakesEffect : Prop :=
  ∀ (s : State) (p : PortId) (refused : Bool) (data : Byte), s.resetHeld = false →
    s.mode = .operate ∨ s.OwnsConfiguration p →
    ((s.port p).frame = some (.write 0x0281 refused) →
      ∃ t, exec (.brightnessConfigurationWrite p 0xFF data) s = .next t
        ∧ (t.config.brightness.fixed.val = if data.toNat < 16 then data.toNat else s.config.brightness.fixed.val)
        ∧ t.config.brightness.mode = s.config.brightness.mode ∧ t.display.level = s.display.level
        ∧ t.table = s.table)
    ∧ ((s.port p).frame = some (.write 0x0280 refused) →
        ∃ t, exec (.brightnessConfigurationWrite p 0xFF data) s = .next t
          ∧ t.config.brightness.mode = (BrightMode.ofCode data.toNat).getD s.config.brightness.mode
          ∧ (data = 2 → s.config.brightness.mode ≠ .step → t.display.stepLow = false)
          ∧ (data ≠ 2 ∨ s.config.brightness.mode = .step → t.display.stepLow = s.display.stepLow))
    ∧ ((s.port p).frame = some (.write 0x0285 refused) →
        ∃ t, exec (.brightnessConfigurationWrite p 0xFF data) s = .next t
          ∧ (t.config.brightness.window.val =
              if 1 ≤ data.toNat ∧ data.toNat ≤ 63 then data.toNat else s.config.brightness.window.val)
          ∧ t.display.reading = s.display.reading)

/-- R171: a response read shifts out the buffer, and its end clears RESP_READY unless no data byte was clocked; a
response delivered after the first data byte began keeps RESP_READY. -/
def Obligations.ResponseReadShiftsOutTheBuffer : Prop :=
  (∀ (s : State) (p : PortId) (data : List Byte), s.resetHeld = false → (s.port p).frame = none →
    ∃ t, exec (.responseRead p (.whole data)) s = .next t ∧ s.FrameEnded t p
      ∧ (t.port p).out =
          s.status p :: (List.range data.length).map (fun i => (s.port p).buffer.items.getD i 0)
      ∧ (t.port p).respReady = (if data = [] then (s.port p).respReady else false)
      ∧ (t.port p).buffer = (s.port p).buffer ∧ (t.port p).mailbox = (s.port p).mailbox
      ∧ (t.port p).status = (s.port p).status)
  ∧ (∀ (s : State) (p : PortId) (copy : Bank Byte 24) (k : Nat) (data : List Byte), s.resetHeld = false →
    (s.port p).frame = some (.response (some copy) k false) → (s.port p).respReady = true →
    ∃ t u, exec (.responseRead p (.bytes data)) s = .next t ∧ exec (.responseRead p .finish) t = .next u
      ∧ (u.port p).out = (s.port p).out ++ (List.range data.length).map (fun i => copy.items.getD (k + i) 0)
      ∧ (u.port p).respReady = true ∧ (u.port p).frame = none)

/-- R161, R164, R167: a status-only frame posts FRAME_ERROR and is otherwise complete; a frame cut short posts
FRAME_ERROR, restarts nothing and submits nothing: a request frame before its last operand, a window frame within its
address, a window write within a pair. That the command to cut short a request frame with all its operands, where no
such step occurs, leaves the state as it is, is the model's choice: log 1. -/
def Obligations.BadFramesPostFrameError : Prop :=
  (∀ (s : State) (p : PortId) (kind : Byte) (bs : List Byte), s.resetHeld = false → (s.port p).frame = none →
    kind ≠ 0xA1 → kind ≠ 0xA2 → kind ≠ 0xA4 → kind ≠ 0xA8 →
    ∃ t, exec (.statusOnlyFrame p kind (.whole bs)) s = .next t ∧ s.FrameEnded t p
      ∧ (t.port p).status = (s.port p).status ||| Event.frameError.mask
      ∧ (t.port p).mailbox = (s.port p).mailbox ∧ (t.port p).respReady = (s.port p).respReady
      ∧ (t.port p).out.head? = some (s.status p) ∧ (t.port p).out.length = bs.length + 1)
  ∧ (∀ (s : State) (p : PortId) (bs : List Byte), s.resetHeld = false → (s.port p).frame = none →
      bs.length < 2 ∨ (∃ code len operands, bs = code :: len :: operands ∧ operands.length < min len.toNat 5) →
      ∃ t, exec (.frameCutShort p .request bs) s = .next t ∧ s.FrameCut t p
        ∧ (t.port p).status = (s.port p).status ||| Event.frameError.mask
        ∧ exec (.requestFrame p (.whole bs)) s = .next t)
  ∧ (∀ (s : State) (p : PortId) (take : Bool) (code len : Byte) (operands bs : List Byte), s.resetHeld = false →
      (s.port p).frame = some (.request take (code :: len :: operands)) →
      (operands.length + bs.length < min len.toNat 5 →
        ∃ t, exec (.frameCutShort p .request bs) s = .next t ∧ s.FrameCut t p
          ∧ (t.port p).status = (s.port p).status ||| Event.frameError.mask)
      ∧ (operands.length < min len.toNat 5 → min len.toNat 5 ≤ operands.length + bs.length →
          exec (.frameCutShort p .request bs) s = .next s
          ∧ ∃ t u, exec (.requestFrame p (.bytes bs)) s = .next t ∧ exec (.requestFrame p .finish) t = .next u
            ∧ (u.port p).frame = none
            ∧ (take = true → (u.port p).mailbox =
                .waiting ⟨code, len, (operands ++ bs).take (min len.toNat 5)⟩)
            ∧ (take = false → (u.port p).refused = true ∧ (u.port p).mailbox = (s.port p).mailbox)))
  ∧ (∀ (s : State) (p : PortId) (bs : List Byte) (kind : FrameKind), s.resetHeld = false →
      (s.port p).frame = none → bs.length < 2 → kind = .windowRead ∨ kind = .windowWrite →
      ∃ t, exec (.frameCutShort p kind bs) s = .next t ∧ s.FrameCut t p
        ∧ (t.port p).status = (s.port p).status ||| Event.frameError.mask)
  ∧ ∀ (s : State) (p : PortId) (addr : Half) (refused : Bool) (mask : Byte), s.resetHeld = false →
      (s.port p).frame = some (.write addr refused) →
      ∃ t, exec (.frameCutShort p .windowWrite [mask]) s = .next t ∧ s.FrameCut t p
        ∧ (t.port p).status = (s.port p).status ||| Event.frameError.mask
            ||| (if refused then Event.writeRefused.mask else 0)

/-- R176: the expiry of a port's supervision timer. -/
def Obligations.SupervisionExpiryLapsesThePort : Prop :=
  ∀ (s : State) (p : PortId), s.resetHeld = false → (s.port p).timer ≠ none →
    ∃ t, exec (.supervisionExpiry p) s = .next t
      ∧ (t.port p).lapse = true ∧ (t.port p).timer = none ∧ t.mode = s.mode
      ∧ (t.port p).mailbox = (s.port p).mailbox ∧ (t.port p).buffer = (s.port p).buffer
      ∧ (t.port p).watch = (s.port p).watch ∧ (t.port p).status = (s.port p).status
      ∧ (t.port p).enable = (s.port p).enable
      ∧ ((s.port p).lapse = false → .lapse p ∈ t.queue
          ∧ (.lapse p ∈ s.queue → t.queue = s.queue) ∧ (.lapse p ∉ s.queue → t.queue = s.queue ++ [.lapse p])
          ∧ (t.port (other p)).status = (s.port (other p)).status ||| Event.peerLapse.mask
          ∧ (s.owner = some p → t.owner = none) ∧ (s.owner ≠ some p → t.owner = s.owner))
      ∧ ((s.port p).lapse = true → t.queue = s.queue ∧ t.port (other p) = s.port (other p) ∧ t.owner = s.owner)


/-! Record requests. -/

/-- R25, R46, R73: RAISE of a quiet point with room in the table creates its record, and PULSE leaves it RETURNED with
the condition absent again. -/
def Obligations.RaiseAndPulseCreateTheRecord : Prop :=
  (∀ (s : State) (p : PortId) (r : Request) (x : Point),
    s.PointRequest p r 0x10 x 1 false → (s.config.point x).source = .port → s.Quiet x → s.table.Linked →
    s.table.hasRoom = true →
    ∃ t, exec (.raise p) s = .next t ∧ t.Answered p .ok 3 ∧ s.OnlyTouches t x ∧ s.News t True True False False
      ∧ (t.table.live x).condition = true ∧ s.table.Created t.table s.config x .new s.counter
      ∧ t.table.waiting = s.table.waiting)
  ∧ (∀ (s : State) (p : PortId) (r : Request) (x : Point),
    s.PointRequest p r 0x12 x 1 false → (s.config.point x).source = .port → s.Quiet x → s.table.Linked →
    s.table.hasRoom = true →
    ∃ t, exec (.pulse p) s = .next t ∧ t.Answered p .ok 3 ∧ s.OnlyTouches t x ∧ s.News t True True False False
      ∧ (t.table.live x).condition = false ∧ s.table.Created t.table s.config x .returned s.counter
      ∧ t.table.waiting = s.table.waiting)

/-- R18, R49, R51, R53: a full table makes a raised point wait, and a retirement admits the point at the head. -/
def Obligations.WaitingQueueFillsAndDrains : Prop :=
  (∀ (s : State) (p : PortId) (r : Request) (x : Point),
    s.PointRequest p r 0x10 x 1 false → (s.config.point x).source = .port → s.Quiet x → s.table.Linked →
    s.table.WithinCapacity → s.table.hasRoom = false →
    ∃ t, exec (.raise p) s = .next t ∧ t.Answered p .ok 5 ∧ t.table.waiting = s.table.waiting ++ [x]
      ∧ (t.table.live x).waiting = true ∧ (t.table.live x).condition = true ∧ t.table.recordOf x = none
      ∧ (t.table.live x).revision = (s.table.live x).revision + 1
      ∧ (s.table.waiting ≠ [] → s.OnlyTouches t x ∧ s.News t False True False False ∧ t.table.rank = s.table.rank)
      ∧ (s.table.waiting = [] → s.News t ((s.table.live tableFullPoint).link = none
            ∨ ∃ rec, s.table.recordOf tableFullPoint = some rec ∧ rec.state.standing = false) True True False
          ∧ (t.table.live tableFullPoint).condition = true
          ∧ ((s.table.live tableFullPoint).link = none →
              s.table.Created t.table s.config tableFullPoint .new s.counter)))
  ∧ ∀ (s : State) (p : PortId) (r : Request) (x y : Point) (rec : Record) (rest : List Point),
      s.PointRequest p r 0x28 x 1 true → s.table.Linked → s.table.WithinCapacity → isSystem x = false →
      s.table.recordOf x = some rec → rec.state = .held → s.table.waiting = y :: rest →
      ∃ t rec', exec (.reset p) s = .next t ∧ t.Answered p .ok 1 ∧ t.table.recordOf x = none
        ∧ t.table.waiting = rest ∧ (t.table.live y).waiting = false ∧ t.table.recordOf y = some rec'
        ∧ rec'.state = (if (s.table.live y).condition then .new else .returned) ∧ rec'.count = 1
        ∧ rec'.sounding = (s.config.point y).sound ∧ rec'.createdAt = s.counter
        ∧ (t.table.live y).revision = (s.table.live y).revision + 1
        ∧ (t.table.live tableFullPoint).condition = (if rest = [] then false else true)
        ∧ t.table.liveUsers = 92

/-- R26, R27: what RETURN leaves of a record whose condition stands, and RAISE of one whose condition is gone. -/
def Obligations.ReturnAndRaiseMoveTheRecord : Prop :=
  (∀ (s : State) (p : PortId) (r : Request) (x : Point) (rec : Record),
    s.PointRequest p r 0x11 x 1 false → (s.config.point x).source = .port → isSystem x = false → s.table.Linked →
    (s.table.live x).condition = true → s.table.recordOf x = some rec →
    rec.state = .new ∨ (rec.state = .acked ∧ ((s.config.point x).latch = true ∨ (s.config.point x).ringback = true)) →
    ∃ t, exec (.returnPoint p) s = .next t ∧ t.Answered p .ok 3 ∧ s.OnlyTouches t x
      ∧ s.News t False True False False ∧ s.table.SameLists t.table ∧ (t.table.live x).condition = false
      ∧ (rec.state = .new →
          t.table.recordOf x = some { rec with state := .returned, changedAt := s.counter })
      ∧ (rec.state = .acked → (s.config.point x).latch = true →
          t.table.recordOf x = some { rec with state := .held, changedAt := s.counter })
      ∧ (rec.state = .acked → (s.config.point x).latch = false →
          t.table.recordOf x = some { rec with
            state := .ringback, changedAt := s.counter
            sounding := rec.sounding || ((s.config.point x).sound && rec.shelf.isNone) }))
  ∧ ∀ (s : State) (p : PortId) (r : Request) (x : Point) (rec : Record),
      s.PointRequest p r 0x10 x 1 false → (s.config.point x).source = .port → isSystem x = false →
      s.table.Linked → (s.table.live x).condition = false → s.table.recordOf x = some rec →
      rec.state.standing = false →
      ∃ t, exec (.raise p) s = .next t ∧ t.Answered p .ok 3 ∧ s.OnlyTouches t x
        ∧ s.News t True True False False ∧ s.table.SameLists t.table ∧ (t.table.live x).condition = true
        ∧ t.table.recordOf x = some (realerted (s.config.point x) s.counter rec)

/-- R29, R74: ACK changes an unacknowledged record, and changes nothing of an acknowledged one. -/
def Obligations.AckFollowsTheTable : Prop :=
  ∀ (s : State) (p : PortId) (r : Request) (x : Point) (rec : Record),
    s.PointRequest p r 0x20 x 1 true → s.table.Linked → s.table.waiting = [] → s.table.recordOf x = some rec →
    ∃ t, exec (.ack p) s = .next t
      ∧ t.table.recordOf x = acknowledged (s.config.point x).latch s.counter (.port p) rec
      ∧ (rec.state.unacked = true → t.Answered p .ok (128 + rec.state.code) ∧ s.OnlyTouches t x
          ∧ s.News t False True False False)
      ∧ (rec.state.unacked = false → t.Answered p .ok rec.state.code ∧ s.News t False False False False
          ∧ s.table.Same t.table)
      ∧ ((t.table.recordOf x).isSome = true → s.table.SameLists t.table)
      ∧ (t.table.recordOf x = none → s.table.Retired t.table s.config x)
      ∧ (t.table.live x).condition = (s.table.live x).condition

/-- R27, R30, R31, R32, R39: the requests that retire a record, with nothing waiting to take its room. -/
def Obligations.RetiringRequestsFreeTheRecord : Prop :=
  ∀ (s : State) (p : PortId) (r : Request) (x : Point) (rec : Record),
    s.table.Linked → s.table.waiting = [] → s.table.recordOf x = some rec →
    (s.PointRequest p r 0x28 x 1 true → rec.state = .held →
      ∃ t, exec (.reset p) s = .next t ∧ t.Answered p .ok 1 ∧ s.OnlyTouches t x ∧ s.News t False True False False
        ∧ s.table.Retired t.table s.config x)
    ∧ (s.PointRequest p r 0x2A x 1 true → isSystem x = false → (s.table.live x).condition = false →
        ∃ t, exec (.forceRetire p) s = .next t ∧ t.Answered p .ok 1 ∧ s.OnlyTouches t x
          ∧ s.News t False True False False ∧ s.table.Retired t.table s.config x)
    ∧ (s.PointRequest p r 0x34 x 1 false → isSystem x = false → (s.table.live x).inhibited = false →
        ∃ t, exec (.inhibit p) s = .next t ∧ t.Answered p .ok 1 ∧ s.OnlyTouches t x
          ∧ s.News t False True False False ∧ s.table.Retired t.table s.config x
          ∧ (t.table.live x).inhibited = true ∧ (t.table.live x).condition = (s.table.live x).condition)
    ∧ (s.PointRequest p r 0x11 x 1 false → isSystem x = false → (s.config.point x).source = .port →
        (s.table.live x).condition = true → rec.state = .acked → (s.config.point x).latch = false →
        (s.config.point x).ringback = false →
        ∃ t, exec (.returnPoint p) s = .next t ∧ t.Answered p .ok 1 ∧ s.OnlyTouches t x
          ∧ s.News t False True False False ∧ s.table.Retired t.table s.config x
          ∧ (t.table.live x).condition = false)

/-- R75, R76, R78: the requests that act on every record of their selection, with nothing waiting. -/
def Obligations.SelectionRequestsActOnEachRecord : Prop :=
  ∀ (s : State) (p : PortId) (r : Request), s.table.Linked → s.table.waiting = [] →
    (s.TableRequest p r 0x21 0 →
      ∃ t, exec (.ackVisible p) s = .next t
        ∧ t.Answered p .ok (s.table.rank.filter fun x => (s.table.recordOf x).any
            fun rec => rec.state.unacked && s.table.shows x).length
        ∧ (∀ x rec, s.table.recordOf x = some rec → t.table.recordOf x =
            if s.table.shows x then acknowledged (s.config.point x).latch s.counter (.port p) rec else some rec)
        ∧ ∀ x, s.table.recordOf x = none → t.table.recordOf x = none ∧ t.table.live x = s.table.live x)
    ∧ (s.TableRequest p r 0x22 0 →
      ∃ t, exec (.ackAll p) s = .next t
        ∧ t.Answered p .ok (s.table.rank.filter fun x => (s.table.recordOf x).any
            fun rec => rec.state.unacked && rec.shelf.isNone).length
        ∧ (∀ x rec, s.table.recordOf x = some rec → t.table.recordOf x =
            if rec.shelf.isNone then acknowledged (s.config.point x).latch s.counter (.port p) rec else some rec)
        ∧ ∀ x, s.table.recordOf x = none → t.table.recordOf x = none ∧ t.table.live x = s.table.live x)
    ∧ (s.TableRequest p r 0x23 0 →
      ∃ t, exec (.silence p) s = .next t
        ∧ t.Answered p .ok (s.table.rank.filter fun x => (s.table.recordOf x).any (·.sounding)).length
        ∧ (∀ x, t.table.recordOf x = (s.table.recordOf x).map fun rec => { rec with sounding := false })
        ∧ s.table.SameLists t.table ∧ ∀ x rec, s.table.recordOf x = some rec →
            (t.table.live x).revision = if rec.sounding then (s.table.live x).revision + 1
              else (s.table.live x).revision)
    ∧ (s.TableRequest p r 0x29 0 →
      ∃ t, exec (.resetAll p) s = .next t
        ∧ t.Answered p .ok (s.table.rank.filter fun x => (s.table.recordOf x).any
            fun rec => rec.state == .held).length
        ∧ (∀ x rec, s.table.recordOf x = some rec →
            t.table.recordOf x = if rec.state = .held then none else some rec)
        ∧ ∀ x, s.table.recordOf x = none → t.table.recordOf x = none ∧ t.table.live x = s.table.live x)

/-- R34, R35, R81, R82, R122: SHELVE and UNSHELVE. -/
def Obligations.ShelveAndUnshelveMoveTheShelf : Prop :=
  (∀ (s : State) (p : PortId) (r : Request) (x : Point) (rec : Record) (d : Word),
    s.PointRequest p r 0x30 x 3 true → s.table.Linked → isSystem x = false →
    (s.config.point x).shelvable = true → s.table.recordOf x = some rec → r.half 1 ≠ 0 →
    d = s.counter + (r.half 1).setWidth 32 →
    (rec.shelf ≠ some ⟨d, p⟩ →
      ∃ t front back, exec (.shelve p) s = .next t ∧ t.Answered p .ok 1 ∧ s.OnlyTouches t x
        ∧ s.News t False True False False
        ∧ t.table.recordOf x = some { rec with shelf := some ⟨d, p⟩, sounding := false }
        ∧ t.table.shelf = front ++ ⟨d, x⟩ :: back
        ∧ (s.table.shelf.filter fun e => decide (e.point ≠ x)) = front ++ back
        ∧ (∀ e ∈ back, 2 ^ 31 ≤ (d - e.deadline).toNat)
        ∧ (∀ e, front.getLast? = some e → (d - e.deadline).toNat < 2 ^ 31)
        ∧ t.table.rank = s.table.rank ∧ t.table.waiting = s.table.waiting ∧ t.table.groups = s.table.groups)
    ∧ (rec.shelf = some ⟨d, p⟩ →
        ∃ t, exec (.shelve p) s = .next t ∧ t.Answered p .ok 0 ∧ s.News t False False False False
          ∧ s.table.Same t.table))
  ∧ ∀ (s : State) (p : PortId) (r : Request) (x : Point) (rec : Record),
      s.PointRequest p r 0x31 x 1 true → s.table.Linked → isSystem x = false →
      (s.config.point x).shelvable = true → s.table.recordOf x = some rec → rec.shelf ≠ none →
      ∃ t, exec (.unshelve p) s = .next t ∧ t.Answered p .ok 1 ∧ s.OnlyTouches t x
        ∧ s.News t False True False False
        ∧ t.table.recordOf x = some { rec with
            shelf := none, sounding := rec.sounding || (rec.state.unacked && (s.config.point x).sound) }
        ∧ t.table.shelf = s.table.shelf.filter (fun e => decide (e.point ≠ x))
        ∧ t.table.rank = s.table.rank ∧ t.table.waiting = s.table.waiting ∧ t.table.groups = s.table.groups

/-- R32, R33, R80: INHIBIT and ENABLE of a user point without a record. -/
def Obligations.InhibitAndEnableMoveTheFlag : Prop :=
  ∀ (s : State) (p : PortId) (r : Request) (x : Point), isSystem x = false → s.table.Linked →
    (s.table.live x).link = none → (s.table.live x).waiting = false →
    (s.PointRequest p r 0x34 x 1 false →
      ∃ t, exec (.inhibit p) s = .next t ∧ (t.table.live x).inhibited = true
        ∧ (t.table.live x).condition = (s.table.live x).condition ∧ t.table.recordOf x = none
        ∧ s.table.SameLists t.table ∧ s.News t False False False False
        ∧ ((s.table.live x).inhibited = false → t.Answered p .ok 1 ∧ s.OnlyTouches t x)
        ∧ ((s.table.live x).inhibited = true → t.Answered p .ok 0 ∧ s.table.Same t.table))
    ∧ (s.PointRequest p r 0x35 x 1 false →
        ∃ t, exec (.enable p) s = .next t ∧ (t.table.live x).inhibited = false
          ∧ (t.table.live x).condition = (s.table.live x).condition
          ∧ ((s.table.live x).inhibited = false → t.Answered p .ok 0 ∧ s.table.Same t.table)
          ∧ ((s.table.live x).inhibited = true → (s.table.live x).condition = false →
              t.Answered p .ok 1 ∧ s.OnlyTouches t x ∧ s.table.SameLists t.table
              ∧ s.News t False False False False)
          ∧ ((s.table.live x).inhibited = true → (s.table.live x).condition = true →
              (s.config.point x).enabled = true → s.table.hasRoom = true →
              t.Answered p .ok 1 ∧ s.OnlyTouches t x ∧ s.News t True True False False
              ∧ s.table.Created t.table s.config x .new s.counter))

/-- R44, R83: FIRST_OUT_RESET re-arms the group and takes the flag of the record it marked. -/
def Obligations.FirstOutResetRearmsTheGroup : Prop :=
  ∀ (s : State) (p : PortId) (r : Request) (g : Fin 7), s.TableRequest p r 0x38 1 → s.table.Linked →
    (r.byte 0).toNat = g.val + 1 →
    ((s.table.groups.get g).mark = none →
      ∃ t, exec (.firstOutReset p) s = .next t ∧ t.Answered p .ok 255
        ∧ t.table.groups.get g = ⟨none, true, (s.table.groups.get g).live⟩
        ∧ (∀ h, h ≠ g → t.table.groups.get h = s.table.groups.get h)
        ∧ (∀ y, t.table.live y = s.table.live y ∧ t.table.recordOf y = s.table.recordOf y)
        ∧ t.table.rank = s.table.rank ∧ s.News t False False False False)
    ∧ ∀ x rec, (s.table.groups.get g).mark = some x → s.table.recordOf x = some rec → rec.firstOut = true →
      ∃ t, exec (.firstOutReset p) s = .next t ∧ t.Answered p .ok x.val ∧ s.OnlyTouches t x
        ∧ t.table.groups.get g = ⟨none, true, (s.table.groups.get g).live⟩
        ∧ (∀ h, h ≠ g → t.table.groups.get h = s.table.groups.get h)
        ∧ t.table.recordOf x = some { rec with firstOut := false }
        ∧ t.table.rank = s.table.rank ∧ s.News t False True False False

/-- R85, R88, R126, R137, Table 9-4: LOOKUP reports the record of the point with its optional parts, which follow one
another from byte 19 on, and sets the watch when it is asked to. That bit 7 of the flags, which Table 9-4 does not name,
reads 0 is the model's reading: log 12. -/
def Obligations.LookupReportsTheRecord : Prop :=
  ∀ (s : State) (p : PortId) (r : Request) (x : Point), s.PointRequest p r 0x40 x 2 false → s.table.Linked →
    (r.byte 1).toNat ≤ 1 →
    (∀ rec, s.table.recordOf x = some rec →
      ∃ t, exec (.lookup p) s = .next t ∧ t.Answered p .ok 0 ∧ s.table.Same t.table
        ∧ s.News t False False False False
        ∧ (t.port p).watch = (if r.byte 1 = 1 then some x else (s.port p).watch)
        ∧ (t.port p).buffer.get 3 = byteOfPoint x
        ∧ ((t.port p).buffer.get 4).toNat = rec.state.code
        ∧ ((t.port p).buffer.get 5).toNat = (s.config.point x).cls.val
        ∧ ((t.port p).buffer.get 6).getLsbD 0 = (s.table.live x).condition
        ∧ ((t.port p).buffer.get 6).getLsbD 1 = rec.sounding
        ∧ ((t.port p).buffer.get 6).getLsbD 2 = rec.shelf.isSome
        ∧ ((t.port p).buffer.get 6).getLsbD 3 = rec.firstOut
        ∧ ((t.port p).buffer.get 6).getLsbD 4 = rec.saturated
        ∧ ((t.port p).buffer.get 6).getLsbD 5 = t.table.shows x
        ∧ ((t.port p).buffer.get 6).getLsbD 6 = rec.ackedBy.isSome
        ∧ ((t.port p).buffer.get 6).getLsbD 7 = false
        ∧ (t.port p).buffer.get 7 = rec.count
        ∧ (t.port p).buffer.get 9 ++ (t.port p).buffer.get 8 = (s.table.live x).revision
        ∧ (t.port p).buffer.get 10 = BitVec.ofNat 8 (s.table.rank.idxOf x)
        ∧ (t.port p).buffer.get 14 ++ (t.port p).buffer.get 13 ++ (t.port p).buffer.get 12
            ++ (t.port p).buffer.get 11 = s.counter - rec.createdAt
        ∧ (t.port p).buffer.get 18 ++ (t.port p).buffer.get 17 ++ (t.port p).buffer.get 16
            ++ (t.port p).buffer.get 15 = s.counter - rec.changedAt
        ∧ ((t.port p).buffer.get 2).toNat =
            16 + (if rec.shelf.isSome then 3 else 0) + (if t.table.shows x then 1 else 0)
              + (if rec.ackedBy.isSome then 1 else 0)
        ∧ (∀ d q, rec.shelf = some ⟨d, q⟩ →
            (t.port p).buffer.get 20 ++ (t.port p).buffer.get 19 =
                (if (s.counter - d).toNat < 2 ^ 31 then 0 else (d - s.counter).setWidth 16)
              ∧ (t.port p).buffer.get 21 = if q = .a then 1 else 2)
        ∧ (t.table.shows x = true → ∃ i, (t.table.slots.get i).map (·.point) = some x
            ∧ ((t.port p).buffer.get (if rec.shelf.isSome then 22 else 19)).toNat = i.val)
        ∧ (∀ src, rec.ackedBy = some src →
            (t.port p).buffer.get (if rec.shelf.isSome then (if t.table.shows x then 23 else 22)
                else if t.table.shows x then 20 else 19) =
              if src = .port .a then 1 else if src = .port .b then 2 else 3))
    ∧ (s.table.recordOf x = none →
        ∃ t, exec (.lookup p) s = .next t ∧ t.Answered p .noRecord 0 ∧ (t.port p).buffer.get 2 = 0
          ∧ s.table.Same t.table
          ∧ (t.port p).watch = (if r.byte 1 = 1 then some x else (s.port p).watch))

/-- R89: FIND_NEXT answers the first record that matches, from the head or after a point of the Rank List, or END. -/
def Obligations.FindNextFindsTheFirstMatch : Prop :=
  ∀ (s : State) (p : PortId) (r : Request) (front rest : List Point), s.TableRequest p r 0x41 4 → s.table.Linked →
    (r.byte 1).toNat < 32 → (r.byte 2).toNat ≤ 7 → (r.byte 3).toNat ≤ 2 → s.table.rank = front ++ rest →
    (r.operands.head? = some 255 ∧ front = []
      ∨ ∃ x, r.Names x ∧ s.config.defined x = true ∧ front.getLast? = some x) →
    (∀ skipped y after, rest = skipped ++ y :: after → s.Matches r y → (∀ z ∈ skipped, ¬ s.Matches r z) →
      ∃ t, exec (.findNext p) s = .next t ∧ t.Answered p .ok 0 ∧ (t.port p).buffer.get 3 = byteOfPoint y
        ∧ s.table.Same t.table ∧ s.News t False False False False)
    ∧ ((∀ z ∈ rest, ¬ s.Matches r z) →
        ∃ t, exec (.findNext p) s = .next t ∧ t.Answered p .endOfList 0 ∧ (t.port p).buffer.get 2 = 0
          ∧ s.table.Same t.table ∧ s.News t False False False False)

/-- R68 to R71, R73, R74, R77, R79 to R82, R84, R89, R93: the refusals of the twenty-five requests, in the order of the
checks. A refused request is answered with its code and changes nothing; a LOOKUP refused with NO_RECORD, an
ENTER_CONFIGURE refused with TABLE_NOT_EMPTY or NOT_OWNER, a RELEASE_CONFIG refused with NOT_OWNER, INVALID_CONFIG and
the STORE_BUSY of the store requests and of RESTART stand with their requests. -/
def Obligations.RefusedRequestsChangeNothing : Prop :=
  (∀ (s : State) (p : PortId) (r : Request), s.Grants p r →
    (s.mode = .starting ∨ (s.mode ≠ .operate ∧ requestCommand p r ∈ recordCommands p)
        ∨ (s.mode ≠ .configure ∧ r.code ∈ [0x51, 0x52, 0x58, 0x59]) →
      ∃ t, exec (requestCommand p r) s = .next t ∧ s.Refused t p .wrongMode ∧ (t.port p).buffer.get 2 = 0)
    ∧ (s.mode ≠ .starting → r.code ∉ requestCodes →
        ∃ t, exec (.unknownRequest p) s = .next t ∧ s.Refused t p .badRequest ∧ (t.port p).buffer.get 2 = 0)
    ∧ (s.mode = .operate → r.code ∈ pointCodes → (∀ x, r.Names x → s.config.defined x = false) →
        r.operands ≠ [] → ¬ (r.code = 0x41 ∧ r.operands.head? = some 255) →
        ∃ t, exec (requestCommand p r) s = .next t ∧ s.Refused t p .badPoint ∧ (t.port p).buffer.get 2 = 0)
    ∧ (¬ r.FormFits →
        (s.mode = .operate ∧ requestCommand p r ∈ recordCommands p
            ∧ (r.code ∈ pointCodes → (∃ x, r.Names x ∧ s.config.defined x = true)
              ∨ (r.code = 0x41 ∧ r.operands.head? = some 255) ∨ r.operands = []))
          ∨ (s.mode = .configure ∧ r.code ∈ [0x51, 0x52, 0x58, 0x59])
          ∨ (s.mode ≠ .starting ∧ r.code ∈ [0x42, 0x48, 0x50, 0x5F]) →
        ∃ t, exec (requestCommand p r) s = .next t ∧ s.Refused t p .badRequest ∧ (t.port p).buffer.get 2 = 0)
    ∧ (s.mode = .configure → r.code ∈ [0x52, 0x58, 0x59] → r.FormFits → s.owner ≠ some p →
        ∃ t, exec (requestCommand p r) s = .next t ∧ s.Refused t p .notOwner ∧ (t.port p).buffer.get 2 = 0)
    ∧ (s.mode = .configure → r.code = 0x52 → r.FormFits → s.owner = some p → s.storeOp ≠ .idle →
        ∃ t, exec (.leaveConfigure p) s = .next t ∧ s.Refused t p .storeBusy ∧ (t.port p).buffer.get 2 = 0))
  ∧ ∀ (s : State) (p : PortId) (r : Request) (x : Point), s.Asks p r x →
    (r.code ∈ [0x10, 0x11, 0x12] → (s.config.point x).source ≠ .port →
      ∃ t, exec (requestCommand p r) s = .next t ∧ s.Refused t p .sourceMismatch ∧ (t.port p).buffer.get 2 = 0)
    ∧ (r.code ∈ [0x2A, 0x34, 0x35] ∧ isSystem x = true
        ∨ r.code ∈ [0x30, 0x31] ∧ (isSystem x = true ∨ (s.config.point x).shelvable = false) →
      ∃ t, exec (requestCommand p r) s = .next t ∧ s.Refused t p .notPermitted ∧ (t.port p).buffer.get 2 = 0)
    ∧ (s.table.recordOf x = none →
        r.code ∈ [0x20, 0x28, 0x41]
          ∨ (r.code ∈ [0x30, 0x31] ∧ isSystem x = false ∧ (s.config.point x).shelvable = true)
          ∨ (r.code = 0x2A ∧ isSystem x = false ∧ (s.table.live x).waiting = false) →
      ∃ t, exec (requestCommand p r) s = .next t ∧ s.Refused t p .noRecord ∧ (t.port p).buffer.get 2 = 0)
    ∧ (∀ n, n = (if r.code = 0x30 then 3 else 1) → r.len.toNat = n + 2 → r.half n ≠ (s.table.live x).revision →
        (r.code ∈ [0x20, 0x28] ∧ s.table.recordOf x ≠ none)
          ∨ (r.code ∈ [0x30, 0x31] ∧ isSystem x = false ∧ (s.config.point x).shelvable = true
            ∧ s.table.recordOf x ≠ none)
          ∨ (r.code = 0x2A ∧ isSystem x = false
            ∧ (s.table.recordOf x ≠ none ∨ (s.table.live x).waiting = true)) →
      ∃ t, exec (requestCommand p r) s = .next t ∧ s.Refused t p .stale
        ∧ (s.table.recordOf x = none → (t.port p).buffer.get 2 = 0)
        ∧ (s.table.recordOf x ≠ none →
            (t.port p).buffer.get 9 ++ (t.port p).buffer.get 8 = (s.table.live x).revision))
    ∧ (s.RevisionFits r 1 x → ∀ rec, s.table.recordOf x = some rec →
        (r.code = 0x28 ∧ rec.state ≠ .held)
          ∨ (r.code = 0x31 ∧ isSystem x = false ∧ (s.config.point x).shelvable = true ∧ rec.shelf = none) →
      ∃ t, exec (requestCommand p r) s = .next t ∧ s.Refused t p .wrongState ∧ (t.port p).buffer.get 2 = 0)
    ∧ (s.RevisionFits r 1 x → r.code = 0x2A → isSystem x = false →
        s.table.recordOf x ≠ none ∨ (s.table.live x).waiting = true → (s.table.live x).condition = true →
      ∃ t, exec (requestCommand p r) s = .next t ∧ s.Refused t p .conditionPresent
        ∧ (t.port p).buffer.get 2 = 0)

/-- R64, R65, R66, R69: the claimant that the engine grants is the first with work in the cyclic order from the one that
the pointer names, and the pointer then names the one after it; a record request leaves everything but the engine, the
two ports' news and its own port's answer. That its command on an EMPTY mailbox, where no such step occurs, leaves the
state as it is, is the model's choice: log 1. -/
def Obligations.RecordRequestsLeaveTheRest : Prop :=
  (∀ (s : State) (p : PortId) (c : Instr), c ∈ recordCommands p →
    ∃ t, exec c s = .next t ∧ s.SameOutsideEngine t ∧ s.QueueKept t
      ∧ (s.port (other p)).SameButNews (t.port (other p)) ∧ (s.port p).SameButAnswer (t.port p)
      ∧ (t.engine = s.engine ∨ t.engine = .free)
      ∧ ((s.port p).mailbox = .empty → t = s))
  ∧ (∀ (s : State) (r : Request), s.resetHeld = false → s.engine = .free →
      (s.Grants .a r ↔ (s.port .a).mailbox = .waiting r
        ∧ (s.pointer = .mailbox .a ∨ (s.pointer = .mailbox .b ∧ ¬ s.Waits .b ∧ s.queue = [])
          ∨ (s.pointer = .workQueue ∧ s.queue = [])))
      ∧ (s.Grants .b r ↔ (s.port .b).mailbox = .waiting r
        ∧ (s.pointer = .mailbox .b ∨ (s.pointer = .workQueue ∧ s.queue = [] ∧ ¬ s.Waits .a)
          ∨ (s.pointer = .mailbox .a ∧ ¬ s.Waits .a)))
      ∧ ∀ x, s.GrantsItem x ↔ s.queue.head? = some x
        ∧ (s.pointer = .workQueue ∨ (s.pointer = .mailbox .a ∧ ¬ s.Waits .a ∧ ¬ s.Waits .b)
          ∨ (s.pointer = .mailbox .b ∧ ¬ s.Waits .b)))
  ∧ (∀ (s : State) (p : PortId) (r : Request), s.Grants p r → r.code ≠ 0x5F →
      ∃ t, exec (requestCommand p r) s = .next t ∧ t.engine = .free
        ∧ t.pointer = if p = .a then .mailbox .b else .workQueue)
  ∧ (∀ (s : State) (x : WorkSource) (c : Instr), s.GrantsItem x →
      (x, c) ∈ [(.shelfDue, .shelfDueItem), (.lapse .a, .lapseItem .a), (.lapse .b, .lapseItem .b),
        (.sensor, .sensorItem)] →
      ∃ t, exec c s = .next t ∧ t.engine = .free ∧ t.pointer = .mailbox .a)
  ∧ ∀ (s : State) (p : PortId) (x : StoreResult), s.GrantsItem .store → s.storeOp = .ended p x →
      ∃ t, exec .storeItem s = .next t ∧ t.engine = .free ∧ t.pointer = .mailbox .a

/-! Port, mode and store requests. -/

/-- R85, R92, R150: CLEAR_WATCH and LAMP_TEST, in CONFIGURE and in OPERATE. -/
def Obligations.ClearWatchAndLampTestAct : Prop :=
  ∀ (s : State) (p : PortId) (r : Request), s.Grants p r → s.mode ≠ .starting →
    (r.code = 0x42 → r.len = 0 →
      ∃ t, exec (.clearWatch p) s = .next t ∧ t.Answered p .ok (if (s.port p).watch = none then 0 else 1)
        ∧ (t.port p).watch = none ∧ (t.port (other p)).watch = (s.port (other p)).watch
        ∧ s.table.Same t.table ∧ s.News t False False False False ∧ t.display = s.display ∧ t.mode = s.mode)
    ∧ (r.code = 0x48 → r.len = 1 → (r.byte 0).toNat ≤ 10 →
        ∃ t, exec (.lampTest p) s = .next t ∧ t.Answered p .ok 0
          ∧ t.display = { s.display with
              lampTimer := if (r.byte 0).toNat = 0 then none else some (r.byte 0).toNat }
          ∧ (∀ q, (t.port q).watch = (s.port q).watch) ∧ s.table.Same t.table
          ∧ s.News t False False False False ∧ t.mode = s.mode)
    ∧ (r.code = 0x48 → r.len = 1 → 10 < (r.byte 0).toNat →
        ∃ t, exec (.lampTest p) s = .next t ∧ t.Answered p .badRequest 0 ∧ t.display = s.display)

/-- R40, R108, R186: ENTER_CONFIGURE in OPERATE tears the table down and makes the requester owner. -/
def Obligations.EnterConfigureTearsDown : Prop :=
  ∀ (s : State) (p : PortId) (r : Request), s.Grants p r → r.code = 0x50 → r.len = 1 → s.mode = .operate →
    (r.byte 0 = 1 ∨ (r.byte 0 = 0 ∧ s.table.rank = [] ∧ s.table.waiting = []) →
      ∃ t, exec (.enterConfigure p) s = .next t ∧ t.Answered p .ok 0
        ∧ t.mode = .configure ∧ t.owner = (if (s.port p).lapse then none else some p)
        ∧ t.table.rank = [] ∧ t.table.waiting = [] ∧ t.table.shelf = []
        ∧ (∀ i, t.table.entries.get i = none) ∧ (∀ g, t.table.groups.get g = ⟨none, true, 0⟩)
        ∧ (∀ x, (t.table.live x).inhibited = false ∧ (t.table.live x).condition = false
            ∧ (t.table.live x).link = none ∧ (t.table.live x).waiting = false
            ∧ (t.table.live x).revision =
              if (s.table.live x).link ≠ none ∨ (s.table.live x).waiting = true ∨ (s.table.live x).inhibited = true
                ∨ (s.table.live x).condition = true
              then (s.table.live x).revision + 1 else (s.table.live x).revision)
        ∧ t.queue = s.queue.filter (fun w => !w.isLine)
        ∧ (∀ n, (t.line n).assertSeen = false ∧ (t.line n).pressSeen = false
            ∧ (t.line n).qualified = (s.line n).qualified)
        ∧ (∀ q, (t.port q).watch = none)
        ∧ s.News t False (s.table.rank ≠ [] ∨ s.table.waiting ≠ []) False True
        ∧ t.config = s.config ∧ t.display = s.display ∧ t.counter = s.counter)
    ∧ (r.byte 0 = 0 → s.table.rank ≠ [] →
        ∃ t, exec (.enterConfigure p) s = .next t ∧ t.Answered p .tableNotEmpty 0 ∧ t.mode = .operate
          ∧ s.table.Same t.table ∧ t.lines = s.lines)

/-- R184, R185: ownership within CONFIGURE. -/
def Obligations.OwnershipPassesInConfigure : Prop :=
  ∀ (s : State) (p : PortId) (r : Request), s.Grants p r → s.mode = .configure →
    (r.code = 0x50 → r.len = 1 → (r.byte 0).toNat ≤ 1 → s.owner ≠ some (other p) →
      ∃ t, exec (.enterConfigure p) s = .next t ∧ t.Answered p .ok 0 ∧ t.mode = .configure
        ∧ t.owner = (if (s.port p).lapse then none else some p) ∧ s.table.Same t.table ∧ t.config = s.config
        ∧ t.storeOp = s.storeOp ∧ s.News t False False False False)
    ∧ (r.code = 0x50 → r.len = 1 → (r.byte 0).toNat ≤ 1 → s.owner = some (other p) →
        ∃ t, exec (.enterConfigure p) s = .next t ∧ t.Answered p .notOwner 0 ∧ t.owner = s.owner)
    ∧ (r.code = 0x51 → r.len = 0 → s.owner = some p →
        ∃ t, exec (.releaseConfig p) s = .next t ∧ t.Answered p .ok 0 ∧ t.mode = .configure ∧ t.owner = none
          ∧ s.table.Same t.table ∧ t.config = s.config ∧ t.storeOp = s.storeOp ∧ t.store = s.store
          ∧ s.News t False False False False)
    ∧ (r.code = 0x51 → r.len = 0 → s.owner ≠ some p →
        ∃ t, exec (.releaseConfig p) s = .next t ∧ t.Answered p .notOwner 0 ∧ t.owner = s.owner)

/-- R187, R188, R189: LEAVE_CONFIGURE by the owner validates, and enters OPERATE when every check passes. -/
def Obligations.LeaveConfigureValidates : Prop :=
  ∀ (s : State) (p : PortId) (r : Request), s.Grants p r → r.code = 0x52 → r.len = 0 → s.OwnsConfiguration p →
    (∀ i : Fin 7, (∀ j : Fin 7, j < i → s.config.Passes j) → ¬ s.config.Passes i →
      ∃ t, exec (.leaveConfigure p) s = .next t ∧ t.Answered p .invalidConfig (i.val + 1) ∧ t.mode = .configure
        ∧ t.owner = some p ∧ t.config = s.config ∧ s.table.Same t.table ∧ s.News t False False False False)
    ∧ ((∀ i : Fin 7, s.config.Passes i) →
        ∃ t, exec (.leaveConfigure p) s = .next t ∧ t.Answered p .ok 0 ∧ t.mode = .operate ∧ t.owner = none
          ∧ t.config = s.config ∧ (∀ q, (t.port q).Posted .modeChange)
          ∧ (∀ n, (t.line n).pressSeen = false ∧ (t.line n).qualified = (s.line n).qualified)
          ∧ (∀ n, .line n ∈ t.queue ↔ (s.lineCfg n).role = .sense)
          ∧ (s.EmptyOutsideOperate → (∀ q, (s.port q).lapse = false) → s.storeFault = false →
              t.table.rank = [] ∧ t.table.waiting = []))

/-- R94, R192, R193, R194: SAVE_STORE and LOAD_STORE by the owner begin their operation and write no response; while
an operation runs both are refused with STORE_BUSY. -/
def Obligations.StoreRequestsBeginTheirOperation : Prop :=
  ∀ (s : State) (p : PortId) (r : Request), s.Grants p r → r.len = 0 → s.mode = .configure → s.owner = some p →
    (r.code = 0x58 → s.storeOp = .idle →
      ∃ t, exec (.saveStore p) s = .next t ∧ t.storeOp = .erasing p (imageBytes t.config) ∧ t.saveMark = true
        ∧ t.config = { s.config with autoRun := s.config.valid } ∧ t.store = s.store
        ∧ (t.port p).mailbox = .storeWait ∧ (t.port p).respReady = (s.port p).respReady
        ∧ (t.port p).buffer = (s.port p).buffer ∧ (t.port p).status = (s.port p).status
        ∧ s.table.Same t.table ∧ t.engine = .free)
    ∧ (r.code = 0x59 → s.storeOp = .idle →
        ∃ t, exec (.loadStore p) s = .next t ∧ t.storeOp = .reading p ∧ t.saveMark = s.saveMark
          ∧ t.config = s.config ∧ t.store = s.store
          ∧ (t.port p).mailbox = .storeWait ∧ (t.port p).respReady = (s.port p).respReady
          ∧ (t.port p).buffer = (s.port p).buffer ∧ (t.port p).status = (s.port p).status
          ∧ s.table.Same t.table ∧ t.engine = .free)
    ∧ (s.storeOp ≠ .idle →
        (r.code = 0x58 → ∃ t, exec (.saveStore p) s = .next t ∧ t.Answered p .storeBusy 0 ∧ t.storeOp = s.storeOp)
        ∧ (r.code = 0x59 →
          ∃ t, exec (.loadStore p) s = .next t ∧ t.Answered p .storeBusy 0 ∧ t.storeOp = s.storeOp))

/-- R191, R193, R194: the phases of a store operation, with the bytes that the memory failed to take. -/
def Obligations.StorePhasesRunInOrder : Prop :=
  ∀ s : State, s.resetHeld = false →
    (∀ p image, s.storeOp = .erasing p image → ∀ defects : List (Nat × Byte),
      ∃ t, exec (.erasingDone defects) s = .next t ∧ t.storeOp = .programming p image ∧ t.saveMark = s.saveMark
        ∧ t.config = s.config ∧ t.queue = s.queue
        ∧ ∀ a, (∀ d ∈ defects, d.1 ≠ a) → t.store.read a = 0xFF)
    ∧ (∀ p image, s.storeOp = .programming p image → image.length = 1280 → s.store = [] →
        ∀ defects : List (Nat × Byte),
        ∃ t, exec (.programmingDone defects) s = .next t ∧ t.storeOp = .verifying p image
          ∧ t.saveMark = s.saveMark ∧ t.config = s.config ∧ t.queue = s.queue
          ∧ ∀ a, (∀ d ∈ defects, d.1 ≠ a) → t.store.read a = image.getD a 0xFF)
    ∧ (∀ p image, s.storeOp = .verifying p image → image.length = 1280 → s.StoreCanonical →
        ∃ t, exec .verifyingDone s = .next t ∧ t.store = s.store ∧ .store ∈ t.queue
          ∧ ((∀ a, a < 2048 → s.store.read a = image.getD a 0xFF) →
              t.saveMark = false ∧ t.storeOp = .ended p (.saved true))
          ∧ ((∃ a, a < 2048 ∧ s.store.read a ≠ image.getD a 0xFF) →
              t.saveMark = s.saveMark ∧ t.storeOp = .ended p (.saved false)))
    ∧ ∀ p, s.storeOp = .reading p →
        ∃ t, exec .storeReadDone s = .next t
          ∧ t.storeOp = .ended p (.loaded (classify s.saveMark s.store)) ∧ .store ∈ t.queue
          ∧ t.store = s.store ∧ t.config = s.config ∧ t.saveMark = s.saveMark

/-- R94, R193, R194: the service of the STORE item completes the request. -/
def Obligations.StoreItemCompletesTheRequest : Prop :=
  ∀ (s : State) (p : PortId) (x : StoreResult), s.GrantsItem .store → s.storeOp = .ended p x →
    ∃ t, exec .storeItem s = .next t ∧ t.storeOp = .idle ∧ (∀ q, (t.port q).Posted .storeDone)
      ∧ s.table.Same t.table ∧ t.store = s.store ∧ t.saveMark = s.saveMark
      ∧ (x = .saved true → t.Answered p .ok 0 ∧ t.storeFault = false ∧ t.config = s.config)
      ∧ (x = .saved false → t.Answered p .storeFault 0 ∧ t.storeFault = true ∧ t.config = s.config)
      ∧ (x = .loaded .blank ∨ x = .loaded .corrupt →
          t.Answered p .storeFault 0 ∧ t.storeFault = s.storeFault ∧ t.config = s.config ∧ t.lines = s.lines)
      ∧ (x = .loaded .valid → t.Answered p .ok 0 ∧ t.storeFault = s.storeFault ∧ t.config = loadImage s.store
          ∧ (∀ n, t.line n = ⟨(s.line n).raw, (s.line n).raw, none, false, false⟩)
          ∧ t.display.stepLow = false
          ∧ ∀ q, (t.port q).timer =
              if t.config.period.get q = 0 then none else some (t.config.period.get q))

/-- R95, R178, R198: a RESTART taken begins STARTING and keeps what a restart keeps. -/
def Obligations.RestartBeginsStarting : Prop :=
  ∀ (s : State) (p : PortId) (r : Request), s.Grants p r → r.code = 0x5F → r.len = 0 → s.mode ≠ .starting →
    (s.storeOp = .idle →
      ∃ t, exec (.restart p) s = .next t ∧ t.mode = .starting ∧ t.owner = none ∧ t.engine = .serving
        ∧ t.pointer = .mailbox .a ∧ t.queue = [] ∧ t.table = Table.reset ∧ t.counter = 0 ∧ t.latch = 0
        ∧ t.config = s.config ∧ t.store = s.store ∧ t.storeFault = s.storeFault ∧ t.saveMark = s.saveMark
        ∧ (t.startOperate = true ↔ s.mode = .operate ∧ s.config.valid = true)
        ∧ (∀ q, (t.port q).mailbox = .held ∧ (t.port q).enable = (s.port q).enable ∧ (t.port q).status = 0
            ∧ (t.port q).respReady = false ∧ (t.port q).refused = false ∧ (t.port q).watch = none
            ∧ (t.port q).timer = none ∧ (t.port q).lapse = false ∧ (∀ i, (t.port q).buffer.get i = 0)
            ∧ ((t.port q).frame = none ↔ (s.port q).frame = none))
        ∧ (∀ n, t.line n = ⟨(s.line n).raw, (s.line n).raw, none, false, false⟩)
        ∧ t.display.phase = 0 ∧ t.display.row = 0 ∧ t.display.lampTimer = none ∧ t.display.stepLow = false
        ∧ t.display.reading = none
        ∧ t.display.sensed = s.display.sensed ∧ t.display.latest = s.display.latest
        ∧ t.display.failed = s.display.failed ∧ t.display.sensorFault = s.display.sensorFault)
    ∧ (s.storeOp ≠ .idle →
        ∃ t, exec (.restart p) s = .next t ∧ t.Answered p .storeBusy 0 ∧ t.mode = s.mode ∧ t.config = s.config)

/-! The items of the Work Queue. -/

/-- R65, R109: the service of a SENSE line's item. -/
def Obligations.SenseLineItemDelivers : Prop :=
  ∀ (s : State) (n : Fin 16), s.GrantsItem (.line n) → (s.lineCfg n).role = .sense →
    (s.mode ≠ .operate ∨ s.config.pointOfLine n = none →
      ∃ t, exec (.senseLineItem n) s = .next t ∧ s.LineItemTaken t n ∧ s.table.Same t.table
        ∧ s.News t False False False False)
    ∧ ∀ x, s.mode = .operate → s.config.pointOfLine n = some x → isSystem x = false → s.table.Linked →
      ((s.lineCfg n).senseMode.isLevel = true → (s.line n).qualified = (s.lineCfg n).assertedLevel →
        s.Quiet x → s.table.hasRoom = true →
        ∃ t, exec (.senseLineItem n) s = .next t ∧ s.LineItemTaken t n ∧ s.OnlyTouches t x
          ∧ s.News t True True False False ∧ s.table.Created t.table s.config x .new s.counter
          ∧ (t.table.live x).condition = true)
      ∧ ((s.lineCfg n).senseMode.isLevel = true → (s.line n).qualified = (s.lineCfg n).assertedLevel →
        (s.table.live x).condition = true →
        ∃ t, exec (.senseLineItem n) s = .next t ∧ s.LineItemTaken t n ∧ s.table.Same t.table
          ∧ s.News t False False False False)
      ∧ (∀ rec, (s.lineCfg n).senseMode.isLevel = true → (s.line n).qualified ≠ (s.lineCfg n).assertedLevel →
        (s.line n).assertSeen = false → (s.table.live x).condition = true → s.table.recordOf x = some rec →
        rec.state = .new →
        ∃ t, exec (.senseLineItem n) s = .next t ∧ s.LineItemTaken t n ∧ s.OnlyTouches t x
          ∧ s.News t False True False False ∧ (t.table.live x).condition = false
          ∧ t.table.recordOf x = some { rec with state := .returned, changedAt := s.counter })
      ∧ ((s.line n).assertSeen = true →
        (s.lineCfg n).senseMode.isLevel = false ∨ (s.line n).qualified ≠ (s.lineCfg n).assertedLevel →
        s.Quiet x → s.table.hasRoom = true →
        ∃ t, exec (.senseLineItem n) s = .next t ∧ s.LineItemTaken t n ∧ s.OnlyTouches t x
          ∧ s.News t True True False False ∧ s.table.Created t.table s.config x .returned s.counter
          ∧ (t.table.live x).condition = false)

/-- R91, R110, R142, R143: the service of a button's item. -/
def Obligations.ButtonItemsAct : Prop :=
  ∀ (s : State) (n : Fin 16), s.GrantsItem (.line n) →
    (s.mode ≠ .operate ∨ (s.line n).pressSeen = false →
      ((s.lineCfg n).role = .buttonAck → ∃ t, exec (.buttonAckItem n) s = .next t ∧ s.LineItemTaken t n
        ∧ s.table.Same t.table ∧ s.News t False False False False)
      ∧ ((s.lineCfg n).role = .buttonSilence → ∃ t, exec (.buttonSilenceItem n) s = .next t
        ∧ s.LineItemTaken t n ∧ s.table.Same t.table ∧ s.News t False False False False)
      ∧ ((s.lineCfg n).role = .buttonReset → ∃ t, exec (.buttonResetItem n) s = .next t
        ∧ s.LineItemTaken t n ∧ s.table.Same t.table ∧ s.News t False False False False))
    ∧ (s.mode = .operate → (s.line n).pressSeen = true → s.table.Linked → s.table.waiting = [] →
      ((s.lineCfg n).role = .buttonAck → ∃ t, exec (.buttonAckItem n) s = .next t ∧ s.LineItemTaken t n
        ∧ (∀ x, t.table.recordOf x = (s.table.recordOf x).bind fun rec =>
            if s.table.shows x then acknowledged (s.config.point x).latch s.counter .panel rec else some rec))
      ∧ ((s.lineCfg n).role = .buttonSilence → ∃ t, exec (.buttonSilenceItem n) s = .next t
        ∧ s.LineItemTaken t n ∧ s.table.SameLists t.table
        ∧ (∀ x, t.table.recordOf x = (s.table.recordOf x).map fun rec => { rec with sounding := false }))
      ∧ ((s.lineCfg n).role = .buttonReset → ∃ t, exec (.buttonResetItem n) s = .next t
        ∧ s.LineItemTaken t n
        ∧ (∀ x, t.table.recordOf x = (s.table.recordOf x).bind fun rec =>
            if s.table.shows x ∧ rec.state = .held then none else some rec)))

/-- R19, R111, R125: the SHELF_DUE, LAPSE and SENSOR items. -/
def Obligations.UnitItemsAct : Prop :=
  (∀ s : State, s.GrantsItem .shelfDue → s.table.Linked → s.table.RecordsSound s.config →
    ∃ t, exec .shelfDueItem s = .next t ∧ t.engine = .free
      ∧ t.table.shelf = s.table.shelf.dropWhile (fun e : ShelfEntry => decide ((s.counter - e.deadline).toNat < 2 ^ 31))
      ∧ (∀ x rec, s.table.recordOf x = some rec → t.table.recordOf x =
          if x ∈ (s.table.shelf.takeWhile
            fun e : ShelfEntry => decide ((s.counter - e.deadline).toNat < 2 ^ 31)).map (·.point)
          then some { rec with
            shelf := none, sounding := rec.sounding || (rec.state.unacked && (s.config.point x).sound) }
          else some rec)
      ∧ t.table.rank = s.table.rank ∧ t.table.waiting = s.table.waiting ∧ t.table.groups = s.table.groups)
  ∧ (∀ (s : State) (p : PortId), s.GrantsItem (.lapse p) →
      (s.mode = .operate → s.table.Linked → s.table.WithinCapacity → (s.port p).lapse = true →
        (s.table.live (lapsePoint p)).condition = false → s.table.recordOf (lapsePoint p) = none →
        ∃ t, exec (.lapseItem p) s = .next t ∧ s.OnlyTouches t (lapsePoint p) ∧ s.News t True True False False
          ∧ s.table.Created t.table s.config (lapsePoint p) .new s.counter
          ∧ (t.table.live (lapsePoint p)).condition = true)
      ∧ (∀ rec, s.mode = .operate → s.table.Linked → (s.port p).lapse = false →
        (s.table.live (lapsePoint p)).condition = true → s.table.recordOf (lapsePoint p) = some rec →
        rec.state = .new →
        ∃ t, exec (.lapseItem p) s = .next t ∧ s.OnlyTouches t (lapsePoint p) ∧ s.News t False True False False
          ∧ t.table.recordOf (lapsePoint p) = some { rec with state := .returned, changedAt := s.counter }
          ∧ (t.table.live (lapsePoint p)).condition = false)
      ∧ (s.mode ≠ .operate ∨ (s.port p).lapse = (s.table.live (lapsePoint p)).condition →
        ∃ t, exec (.lapseItem p) s = .next t ∧ s.table.Same t.table ∧ s.News t False False False False))
  ∧ ∀ s : State, s.GrantsItem .sensor →
      ∃ t, exec .sensorItem s = .next t ∧ t.table.counts.sensorFault = s.display.sensorFault
        ∧ s.table.Same t.table ∧ s.News t False False False False ∧ t.display = s.display

/-! Lines. -/

/-- R99, R100: a sample of a raw level, and the expiry of a qualification timer. -/
def Obligations.LinesQualifyTheirLevels : Prop :=
  ∀ (s : State) (n : Fin 16) (level : Bool), s.resetHeld = false →
    ((s.line n).raw = level → exec (.rawLevelChange n level) s = .next s)
    ∧ ((s.line n).raw ≠ level → s.mode = .starting ∨ (s.lineCfg n).role.qualifies = false →
        ∃ t, exec (.rawLevelChange n level) s = .next t ∧ t.queue = s.queue
          ∧ t.line n = { s.line n with raw := level, qualified := level, timer := none }
          ∧ ∀ m, m ≠ n → t.line m = s.line m)
    ∧ ((s.line n).raw ≠ level → s.mode ≠ .starting → (s.lineCfg n).role.qualifies = true →
        level = (s.line n).qualified →
        ∃ t, exec (.rawLevelChange n level) s = .next t ∧ t.queue = s.queue
          ∧ t.line n = { s.line n with raw := level, timer := none } ∧ ∀ m, m ≠ n → t.line m = s.line m)
    ∧ (∀ d : Byte, (s.line n).raw ≠ level → s.mode ≠ .starting → (s.lineCfg n).role.qualifies = true →
        level ≠ (s.line n).qualified →
        d = (if ((s.lineCfg n).role = .sense ∧ (s.lineCfg n).senseMode.isLevel = false)
              ∨ level = (s.lineCfg n).assertedLevel then (s.lineCfg n).onDelay else (s.lineCfg n).offDelay) →
        d ≠ 0 →
        ∃ t, exec (.rawLevelChange n level) s = .next t ∧ t.queue = s.queue
          ∧ t.line n = { s.line n with raw := level, timer := some d } ∧ ∀ m, m ≠ n → t.line m = s.line m)
    ∧ ((s.line n).raw ≠ level → s.mode ≠ .starting → (s.lineCfg n).role.qualifies = true →
        level ≠ (s.line n).qualified → (s.lineCfg n).onDelay = 0 → (s.lineCfg n).offDelay = 0 →
        ∃ t, exec (.rawLevelChange n level) s = .next t ∧ (t.line n).raw = level ∧ (t.line n).qualified = level
          ∧ (t.line n).timer = none ∧ ∀ m, m ≠ n → t.line m = s.line m)
    ∧ ((s.line n).timer ≠ none →
        ∃ t, exec (.qualificationTimerExpiry n) s = .next t ∧ (t.line n).timer = none
          ∧ (t.line n).raw = (s.line n).raw ∧ (t.line n).qualified = (s.line n).raw
          ∧ (∀ m, m ≠ n → t.line m = s.line m) ∧ t.table = s.table ∧ t.config = s.config ∧ t.ports = s.ports)

/-- R102 to R106: the consequences of a qualified change, at the expiry of the qualification timer. -/
def Obligations.QualifiedChangesHaveTheirConsequences : Prop :=
  ∀ (s : State) (n : Fin 16), s.resetHeld = false → (s.line n).timer ≠ none →
    ∃ t, exec (.qualificationTimerExpiry n) s = .next t
      ∧ ((s.lineCfg n).role = .sense → s.mode = .operate → (s.lineCfg n).senseMode.isLevel = true →
          .line n ∈ t.queue
          ∧ (t.line n).assertSeen =
              ((s.line n).assertSeen || ((s.line n).raw == (s.lineCfg n).assertedLevel)))
      ∧ ((s.lineCfg n).role = .sense → s.mode = .operate →
          (s.lineCfg n).senseMode = .both ∨ ((s.lineCfg n).senseMode = .rise ∧ (s.line n).raw = true)
            ∨ ((s.lineCfg n).senseMode = .fall ∧ (s.line n).raw = false) →
          .line n ∈ t.queue ∧ (t.line n).assertSeen = true)
      ∧ ((s.lineCfg n).role = .sense → s.mode = .operate →
          ((s.lineCfg n).senseMode = .rise ∧ (s.line n).raw = false)
            ∨ ((s.lineCfg n).senseMode = .fall ∧ (s.line n).raw = true) →
          t.queue = s.queue ∧ (t.line n).assertSeen = (s.line n).assertSeen)
      ∧ ((s.lineCfg n).role = .sense → s.mode ≠ .operate →
          t.queue = s.queue ∧ (t.line n).assertSeen = (s.line n).assertSeen)
      ∧ ((s.lineCfg n).role.postsPress = true → s.mode ≠ .starting → (s.line n).raw = (s.lineCfg n).activeHigh →
          .line n ∈ t.queue ∧ (t.line n).pressSeen = true)
      ∧ ((s.lineCfg n).role.postsPress = true → (s.line n).raw ≠ (s.lineCfg n).activeHigh →
          t.queue = s.queue ∧ (t.line n).pressSeen = (s.line n).pressSeen)
      ∧ ((s.lineCfg n).role = .buttonBright → s.mode ≠ .starting → t.queue = s.queue
          ∧ t.display.stepLow = (if s.config.brightness.mode = .step
              ∧ (s.line n).raw = (s.lineCfg n).activeHigh then !s.display.stepLow else s.display.stepLow))
      ∧ ((s.lineCfg n).role = .buttonTest → t.queue = s.queue ∧ t.display = s.display)

/-! Time and light. -/

/-- R118, R124, R145, R150: an increment of the Second Counter, the end of the lamp test, a change of flash phase. -/
def Obligations.TimeStepsMoveTheirCounters : Prop :=
  ∀ s : State, s.resetHeld = false →
    (∃ t, exec .secondCounterIncrement s = .next t ∧ t.counter = s.counter + 1 ∧ t.latch = s.latch
      ∧ t.table = s.table ∧ t.ports = s.ports
      ∧ (∀ e, s.table.shelf.head? = some e → (s.counter + 1 - e.deadline).toNat < 2 ^ 31 → .shelfDue ∈ t.queue)
      ∧ ((∀ e, s.table.shelf.head? = some e → 2 ^ 31 ≤ (s.counter + 1 - e.deadline).toNat) → t.queue = s.queue))
    ∧ (∃ t, exec .lampTestTimerExpiry s = .next t ∧ t.display = { s.display with lampTimer := none }
      ∧ t.counter = s.counter ∧ t.table = s.table)
    ∧ ∃ t, exec .flashPhaseChange s = .next t ∧ t.display.phase.val = (s.display.phase.val + 1) % 8
      ∧ t.counter = s.counter ∧ t.table = s.table ∧ t.display.frame = s.display.frame

/-- R105, R148, R149, R150, R153, R156: what a frame takes at its start, and what each column of the matrix does in each
fifteenth of the row period that runs: a lit slot is on for its level, and the SENSOR slot during a reading takes no
on-time and is charged in the row period that its reading has for it. That it takes none in the frame in progress either
where a Slot Map write made it the SENSOR slot is the model's choice: log 31; the row period of its charge is that of
log 20. -/
def Obligations.FrameStartTakesLevelAndPatterns : Prop :=
  (∀ s : State, s.resetHeld = false →
    ∃ t, exec .scanFrameStart s = .next t ∧ t.table = s.table ∧ t.queue = s.queue
      ∧ t.display.phase = s.display.phase ∧ t.display.row = 0
      ∧ (s.mode = .starting → t.display.level = 0)
      ∧ (s.mode ≠ .starting → s.config.brightness.maximum < s.config.brightness.minimum →
          t.display.level = s.config.brightness.maximum)
      ∧ (s.mode ≠ .starting → s.config.brightness.minimum ≤ s.config.brightness.maximum →
          (s.config.brightness.mode = .fixed → t.display.level.val = max s.config.brightness.minimum.val
              (min s.config.brightness.fixed.val s.config.brightness.maximum.val))
          ∧ (s.config.brightness.mode = .ambient → s.display.sensorFault = true ∨ s.config.sensorSlot = none →
              t.display.level = s.config.brightness.maximum)
          ∧ (s.config.brightness.mode = .ambient → s.display.sensorFault = false → s.config.sensorSlot ≠ none →
              t.display.level.val = max s.config.brightness.minimum.val
                (min s.display.sensed.val s.config.brightness.maximum.val))
          ∧ (s.config.brightness.mode = .step → t.display.level =
              if s.display.stepLow then s.config.brightness.minimum else s.config.brightness.maximum))
      ∧ ∀ i : Fin 64,
          ((s.config.slots.get i).role = .sensor → t.display.frame.get i = none)
          ∧ ((s.config.slots.get i).role ≠ .sensor → s.LampTestHolds →
              t.display.frame.get i = some .steady)
          ∧ (¬ s.LampTestHolds →
              (s.config.slots.get i).role = .dedicated ∨ (s.config.slots.get i).role = .pool →
              t.display.frame.get i = (s.table.slots.get i).map (·.pattern))
          ∧ (¬ s.LampTestHolds → (s.config.slots.get i).role = .overflow →
              t.display.frame.get i = if s.table.counts.poolHidden = 0 then none
                else if s.table.counts.hiddenUnacked then some .fast else some .steady)
          ∧ (¬ s.LampTestHolds → (s.config.slots.get i).role = .health →
              t.display.frame.get i = if s.mode = .starting then none
                else if s.mode = .configure then some .slow else some .steady)
          ∧ (¬ s.LampTestHolds → (s.config.slots.get i).role = .unused → t.display.frame.get i = none))
  ∧ ∀ (s : State) (c : Fin 8) (k : Fin 15) (i : Fin 64), i.val / 8 = s.display.row.val → i.val % 8 = c.val →
      (s.display.reading = none ∨ s.config.sensorSlot ≠ some i →
        (s.display.frame.get i = none → s.columnDrive c k = .dark)
        ∧ ∀ x, s.display.frame.get i = some x → s.columnDrive c k =
            if x.lit s.display.phase = true ∧ k.val < x.level s.display.level then .lit else .dark)
      ∧ ∀ x, s.display.reading = some x → s.config.sensorSlot = some i →
          s.columnDrive c k = if x.stage = .charging then .charge else .dark

/-- R146: the phases and the level of the five patterns. -/
def Obligations.PatternsLightTheirPhases : Prop :=
  ∀ (ph : Fin 8) (level : Fin 16),
    (Pattern.fast.lit ph = true ↔ ph = 0 ∨ ph = 2 ∨ ph = 4 ∨ ph = 6)
    ∧ (Pattern.first.lit ph = true ↔ ph = 0 ∨ ph = 2)
    ∧ (Pattern.slow.lit ph = true ↔ ph = 0 ∨ ph = 1 ∨ ph = 2 ∨ ph = 3)
    ∧ Pattern.steady.lit ph = true ∧ Pattern.dim.lit ph = true
    ∧ Pattern.fast.level level = level.val ∧ Pattern.first.level level = level.val
    ∧ Pattern.slow.level level = level.val ∧ Pattern.steady.level level = level.val
    ∧ Pattern.dim.level level =
      (if level.val = 0 then 0 else if level.val / 2 = 0 then 1 else level.val / 2)

/-- R155, R156, R157: the start of a reading with the discharge window W in force, and its three outcomes: the lamp
found discharged at the look 0, at a look from 1 to W, or still charged at the look W, which a discharge at a later look
is as well. That READING_COMPLETE ends a reading at whatever stage it stands, its charge done or not, is the model's
choice: log 8; that a reading starts by waiting for its charge is its reading of R156: log 20. -/
def Obligations.ReadingsJudgeTheSensorLamp : Prop :=
  ∀ s : State, s.resetHeld = false →
    (s.mode ≠ .starting → s.config.sensorSlot ≠ none → s.display.reading = none →
      ∃ t, exec .readingStart s = .next t
        ∧ t.display = { s.display with reading := some ⟨s.config.brightness.window, .toCharge⟩ }
        ∧ t.queue = s.queue)
    ∧ (∀ (w : Fin 64) (stage : ReadingStage) (look : Option Nat), s.display.reading = some ⟨w, stage⟩ →
      ∃ t, exec (.readingComplete look) s = .next t ∧ t.display.reading = none ∧ t.table = s.table
        ∧ (∀ k : Fin 64, look = some k.val → k = 0 → t.display.latest = .discharged 0
            ∧ t.display.sensed = s.display.sensed
            ∧ t.display.failed.val = min (s.display.failed.val + 1) 4
            ∧ t.display.sensorFault = (s.display.sensorFault || decide (3 ≤ s.display.failed.val))
            ∧ (3 ≤ s.display.failed.val → s.display.sensorFault = false → .sensor ∈ t.queue)
            ∧ (s.display.failed.val < 3 → t.queue = s.queue))
        ∧ (∀ k : Fin 64, look = some k.val → 0 < k → k ≤ w → t.display.latest = .discharged k
            ∧ t.display.sensed.val = 15 - 15 * k.val / w.val ∧ t.display.failed = 0
            ∧ t.display.sensorFault = false ∧ (s.display.sensorFault = true → .sensor ∈ t.queue)
            ∧ (s.display.sensorFault = false → t.queue = s.queue))
        ∧ (look = none ∨ (∃ k, look = some k ∧ w.val < k) →
            t.display.latest = .noDischarge ∧ t.display.sensed = 0 ∧ t.display.failed = 0
            ∧ t.display.sensorFault = false ∧ (s.display.sensorFault = true → .sensor ∈ t.queue)
            ∧ (s.display.sensorFault = false → t.queue = s.queue)))

/-- R112, R113: the pin of a drive line outside STARTING. -/
def Obligations.DrivePinFollowsTheLogicalState : Prop :=
  ∀ (s : State) (n : Fin 16) (on high : Bool), s.mode ≠ .starting → (s.lineCfg n).role.isDrive = true →
    (on = true ↔ driveActive (s.lineCfg n) s.table.counts s.mode = true
      ∧ ((s.lineCfg n).pulsed = false ∨ s.display.phase.val < 4)) →
    (high = true ↔ (on = true ↔ (s.lineCfg n).driveHigh = true)) →
    s.linePin n = (if high then (if (s.lineCfg n).pushPull then .high else .released) else .low)
    ∧ s.linePull n = (if (s.lineCfg n).pushPull then .none else (s.lineCfg n).pull)
    ∧ ((s.lineCfg n).role = .driveAlert →
        (driveActive (s.lineCfg n) s.table.counts s.mode = true ↔ 0 < s.table.counts.alertSounding))
    ∧ ((s.lineCfg n).role = .driveReturn →
        (driveActive (s.lineCfg n) s.table.counts s.mode = true ↔ 0 < s.table.counts.returnSounding))
    ∧ ((s.lineCfg n).role = .driveRelay →
        (driveActive (s.lineCfg n) s.table.counts s.mode = true ↔
          ∃ k : Fin 8, (s.lineCfg n).threshold ≤ k ∧ 0 < s.table.counts.presentByClass.get k))
    ∧ ((s.lineCfg n).role = .driveFault →
        (driveActive (s.lineCfg n) s.table.counts s.mode = true ↔
          0 < s.table.counts.liveSystem ∨ s.table.counts.sensorFault = true))
    ∧ ((s.lineCfg n).role = .driveHealth →
        (driveActive (s.lineCfg n) s.table.counts s.mode = true ↔ s.mode = .operate))

/-! The image of configuration memory. -/

/-- R191, R193, R194: an image saved from configuration memory is VALID and loads back as it was saved. -/
def Obligations.SavedImageLoadsBack : Prop :=
  ∀ c : ConfigMem, c.FieldsLegal → ∀ m : Memory, m = Memory.ofBytes 0 (imageBytes c) →
    (imageBytes c).length = 1280 ∧ m.wf = true ∧ classify false m = .valid ∧ classify true m = .corrupt
      ∧ loadImage m = c

/-! Invariants. -/

/-- R3, R57 to R61, R63, R107, R131 to R136, R183, R184, R191: the state after reset meets every invariant. -/
def Obligations.InvariantsHoldAtReset : Prop :=
  State.reset.StoreCanonical ∧ State.reset.QueueNoRepeats ∧ State.reset.OwnedInConfigure
    ∧ State.reset.MailboxesAgree ∧ State.reset.EmptyOutsideOperate ∧ State.reset.QuietInStarting
    ∧ State.reset.config.FieldsLegal ∧ State.reset.MapSoundInOperate ∧ State.reset.LinesAgree
    ∧ State.reset.SensingAgrees
    ∧ State.reset.TablesAgree ∧ State.reset.DisplayAgrees ∧ State.reset.DueIsPosted ∧ State.reset.HeldAtReset

/-- R7, R24, R40, R63, R87, R107, R174, R183, R184, R191, R192: every step keeps the store canonical, the Work Queue
without repeats, ownership and store operations within CONFIGURE, the mailboxes in agreement, the table empty outside
OPERATE, and the part quiet in STARTING. -/
def Obligations.StepKeepsControl : Prop :=
  ∀ s t : State, s.StoreCanonical → s.QueueNoRepeats → s.OwnedInConfigure → s.MailboxesAgree →
    s.EmptyOutsideOperate → s.QuietInStarting → step s = .next t →
    t.StoreCanonical ∧ t.QueueNoRepeats ∧ t.OwnedInConfigure ∧ t.MailboxesAgree ∧ t.EmptyOutsideOperate
      ∧ t.QuietInStarting

/-- R3, R4, R99, R100, R102, R104, R130, R152, R155, R157, R183, R187: every step keeps configuration memory legal, its
map sound in OPERATE, the lines and sensing in agreement with it, and what a pin reset sets while its input is held. -/
def Obligations.StepKeepsConfigurationAndLines : Prop :=
  ∀ s t : State, s.OwnedInConfigure → s.config.FieldsLegal → s.MapSoundInOperate → s.LinesAgree → s.SensingAgrees →
    s.HeldAtReset → step s = .next t →
    t.config.FieldsLegal ∧ t.MapSoundInOperate ∧ t.LinesAgree ∧ t.SensingAgrees ∧ t.HeldAtReset

/-- R8, R13, R15, R18, R23, R37, R38, R41, R45, R49, R50, R122, R183: every step keeps the tables of the engine in
agreement, and what a pin reset sets while its input is held. -/
def Obligations.StepKeepsTables : Prop :=
  ∀ s t : State, s.OwnedInConfigure → s.config.FieldsLegal → s.TablesAgree → s.HeldAtReset →
    step s = .next t → t.TablesAgree ∧ t.HeldAtReset

/-- R57 to R61, R124, R131 to R136, R147, R183: every step keeps the Slot Contents what the allocation shows of the
table, the Summary Counts what they count of it, a due head of the Shelf List posted, and what a pin reset sets while
its input is held. -/
def Obligations.StepKeepsDisplay : Prop :=
  ∀ s t : State, s.OwnedInConfigure → s.EmptyOutsideOperate → s.DisplayAgrees → s.DueIsPosted → s.HeldAtReset →
    step s = .next t → t.DisplayAgrees ∧ t.DueIsPosted ∧ t.HeldAtReset

/-! Frames: what the commands leave unchanged. -/

/-- R66, R160, R183, R193: what each kind of command leaves unchanged. -/
def Obligations.CommandsLeaveTheRest : Prop :=
  (∀ (s : State) (p : PortId) (mask data : Byte) (c : Instr), frameCommands p c ∨ c ∈ pairCommands p mask data →
    ∃ t, exec c s = .next t ∧ s.SameOutsidePorts t ∧ t.port (other p) = s.port (other p)
      ∧ (t.port p).buffer = (s.port p).buffer ∧ (t.port p).watch = (s.port p).watch
      ∧ (c ∈ pairCommands p mask data → (t.port p).mailbox = (s.port p).mailbox
          ∧ (t.port p).refused = (s.port p).refused
          ∧ (t.port p).respReady = (s.port p).respReady ∧ (t.port p).lapse = (s.port p).lapse))
  ∧ (∀ (s : State) (c : Instr), c ∈ itemCommands →
      ∃ t, exec c s = .next t ∧ (∀ p, (s.port p).SameButNews (t.port p)) ∧ t.config = s.config ∧ t.mode = s.mode
        ∧ t.owner = s.owner ∧ t.display = s.display ∧ t.store = s.store ∧ t.storeOp = s.storeOp
        ∧ t.counter = s.counter ∧ t.latch = s.latch ∧ t.resetCause = s.resetCause ∧ t.storeFault = s.storeFault
        ∧ t.saveMark = s.saveMark ∧ t.freeCount = s.freeCount
        ∧ ∀ n, (t.line n).raw = (s.line n).raw ∧ (t.line n).qualified = (s.line n).qualified
            ∧ (t.line n).timer = (s.line n).timer)
  ∧ (∀ (s : State) (p : PortId) (c : Instr), c ∈ modeCommands p →
      ∃ t, exec c s = .next t ∧ (s.port (other p)).SameButNews (t.port (other p))
        ∧ (s.port p).SameButAnswer (t.port p) ∧ t.store = s.store ∧ t.counter = s.counter ∧ t.latch = s.latch
        ∧ t.resetCause = s.resetCause ∧ t.storeFault = s.storeFault ∧ t.freeCount = s.freeCount
        ∧ t.config.points = s.config.points ∧ t.config.lines = s.config.lines ∧ t.config.slots = s.config.slots
        ∧ t.config.brightness = s.config.brightness ∧ t.config.period = s.config.period
        ∧ t.config.interrupt = s.config.interrupt
        ∧ ∀ n, (t.line n).raw = (s.line n).raw ∧ (t.line n).qualified = (s.line n).qualified
            ∧ (t.line n).timer = (s.line n).timer)
  ∧ (∀ (s : State) (c : Instr), (∃ d, c = .erasingDone d ∨ c = .programmingDone d) ∨ c = .verifyingDone
        ∨ c = .storeReadDone →
      ∃ t, exec c s = .next t ∧ t.table = s.table ∧ t.ports = s.ports ∧ t.config = s.config ∧ t.mode = s.mode
        ∧ t.lines = s.lines ∧ t.display = s.display ∧ t.counter = s.counter ∧ t.latch = s.latch
        ∧ t.owner = s.owner ∧ t.storeFault = s.storeFault ∧ t.resetCause = s.resetCause ∧ t.engine = s.engine)
  ∧ ∀ (s : State) (n : Fin 16) (level : Bool) (look : Option Nat) (c : Instr), c ∈ unitCommands n level look →
      ∃ t, exec c s = .next t ∧ t.table = s.table ∧ t.ports = s.ports ∧ t.config = s.config ∧ t.mode = s.mode
        ∧ t.store = s.store ∧ t.saveMark = s.saveMark ∧ t.storeOp = s.storeOp ∧ t.latch = s.latch
        ∧ t.owner = s.owner ∧ t.storeFault = s.storeFault ∧ t.resetCause = s.resetCause ∧ t.engine = s.engine
        ∧ t.pointer = s.pointer
        ∧ (c ≠ .secondCounterIncrement → t.counter = s.counter)
        ∧ (c ≠ .rawLevelChange n level → c ≠ .qualificationTimerExpiry n → t.lines = s.lines)
end

