-- ==== Sys2Proof/Laws/Bank.lean ====
section
/-! SUPPORT. Reading a bank after each operation on it. -/

namespace Sys2Proof

variable {α β : Type} {n : Nat}

theorem Bank.get_eq_getElem (b : Bank α n) (i : Fin n) :
    b.get i = b.items[i.val]'(by rw [b.size]; exact i.isLt) := by
  simp [Bank.get]

theorem Bank.ext_get {a b : Bank α n} (h : ∀ i, a.get i = b.get i) : a = b := by
  obtain ⟨xs, hx⟩ := a
  obtain ⟨ys, hy⟩ := b
  have : xs = ys := by
    apply List.ext_getElem (by omega)
    intro i h1 h2
    have := h ⟨i, by omega⟩
    simpa [Bank.get_eq_getElem] using this
  subst this
  rfl

@[simp] theorem Bank.get_set_self (b : Bank α n) (i : Fin n) (x : α) : (b.set i x).get i = x := by
  simp [Bank.get_eq_getElem, Bank.set]

theorem Bank.get_set_ne (b : Bank α n) {i j : Fin n} (x : α) (h : j ≠ i) : (b.set i x).get j = b.get j := by
  have : i.val ≠ j.val := fun e => h (Fin.ext e.symm)
  simp [Bank.get_eq_getElem, Bank.set, List.getElem_set_ne this]

theorem Bank.get_set (b : Bank α n) (i j : Fin n) (x : α) :
    (b.set i x).get j = if j = i then x else b.get j := by
  split
  · next h => subst h; exact b.get_set_self j x
  · next h => exact b.get_set_ne x h

@[simp] theorem Bank.set_set (b : Bank α n) (i : Fin n) (x y : α) : (b.set i x).set i y = b.set i y := by
  simp [Bank.set]

@[simp] theorem Bank.set_get (b : Bank α n) (i : Fin n) : b.set i (b.get i) = b := by
  apply Bank.ext_get
  intro j
  rw [Bank.get_set]
  split
  · next h => rw [h]
  · rfl

@[simp] theorem Bank.get_fill (i : Fin n) (x : α) : (Bank.fill n x).get i = x := by
  simp [Bank.get_eq_getElem, Bank.fill]

@[simp] theorem Bank.get_build (i : Fin n) (f : Nat → α) : (Bank.build n f).get i = f i.val := by
  simp [Bank.get_eq_getElem, Bank.build]

@[simp] theorem Bank.get_map (f : α → β) (b : Bank α n) (i : Fin n) : (b.map f).get i = f (b.get i) := by
  simp [Bank.get_eq_getElem, Bank.map]

@[simp] theorem Bank.get_mapIdx (f : Nat → α → β) (b : Bank α n) (i : Fin n) :
    (b.mapIdx f).get i = f i.val (b.get i) := by
  simp [Bank.get_eq_getElem, Bank.mapIdx]

/-- A thing of the bank is one of its items. -/
theorem Bank.get_mem (b : Bank α n) (i : Fin n) : b.get i ∈ b.items := by
  rw [Bank.get_eq_getElem]
  exact List.getElem_mem _

theorem Bank.mem_items (b : Bank α n) (x : α) : x ∈ b.items ↔ ∃ i, b.get i = x := by
  constructor
  · intro h
    obtain ⟨i, hi, e⟩ := List.mem_iff_getElem.mp h
    exact ⟨⟨i, by rw [← b.size]; exact hi⟩, by simpa [Bank.get_eq_getElem] using e⟩
  · rintro ⟨i, rfl⟩
    exact b.get_mem i

theorem Bank.items_eq_map (b : Bank α n) : b.items = (List.finRange n).map b.get := by
  apply List.ext_getElem (by simp [b.size])
  intro i h1 h2
  simp [Bank.get_eq_getElem]

/-- How many things satisfy `q`, by index. -/
theorem Bank.length_filter_items (b : Bank α n) (q : α → Bool) :
    (b.items.filter q).length = ((List.finRange n).filter fun i => q (b.get i)).length := by
  rw [b.items_eq_map, List.filter_map, List.length_map]
  rfl

/-- What the search for the lowest index finds satisfies the test. -/
theorem Bank.get_of_find? {q : α → Bool} {b : Bank α n} {i : Fin n} (h : b.find? q = some i) :
    q (b.get i) = true := by
  unfold Bank.find? at h
  split at h
  · cases h
  · next k hk =>
    split at h
    · next hn =>
      cases h
      rw [Bank.get_eq_getElem]
      exact (List.findIdx?_eq_some_iff_getElem.mp hk).2.1
    · cases h

/-- Nothing below the lowest index satisfies the test. -/
theorem Bank.not_of_lt_find? {q : α → Bool} {b : Bank α n} {i j : Fin n} (h : b.find? q = some i) (hj : j < i) :
    q (b.get j) = false := by
  unfold Bank.find? at h
  split at h
  · cases h
  · next k hk =>
    split at h
    · next hn =>
      cases h
      rw [Bank.get_eq_getElem]
      have := (List.findIdx?_eq_some_iff_getElem.mp hk).2.2 j.val hj
      simpa using this
    · cases h

theorem Bank.find?_eq_none {q : α → Bool} {b : Bank α n} :
    b.find? q = none ↔ ∀ i, q (b.get i) = false := by
  unfold Bank.find?
  split
  · next h =>
    simp only [true_iff]
    intro i
    rw [List.findIdx?_eq_none_iff] at h
    exact h _ (b.get_mem i)
  · next k hk =>
    have hlt : k < n := by
      have := (List.findIdx?_eq_some_iff_getElem.mp hk).1
      rw [b.size] at this
      exact this
    simp only [hlt, dite_true, reduceCtorEq, false_iff, not_forall, Bool.not_eq_false]
    refine ⟨⟨k, hlt⟩, ?_⟩
    rw [Bank.get_eq_getElem]
    exact (List.findIdx?_eq_some_iff_getElem.mp hk).2.1

end Sys2Proof
end

