-- ==== Sys2Proof/Laws/State.lean ====
section
/-! SUPPORT. One lemma for each field of the state under each named update of it. -/

namespace Sys2Proof.Machine

/-! `State.setPort` changes ports only. -/

@[simp] theorem State.setPort_pending (s : State) (p : PortId) (x : Port) : (s.setPort p x).pending = s.pending := rfl
@[simp] theorem State.setPort_resetHeld (s : State) (p : PortId) (x : Port) : (s.setPort p x).resetHeld = s.resetHeld := rfl
@[simp] theorem State.setPort_mode (s : State) (p : PortId) (x : Port) : (s.setPort p x).mode = s.mode := rfl
@[simp] theorem State.setPort_owner (s : State) (p : PortId) (x : Port) : (s.setPort p x).owner = s.owner := rfl
@[simp] theorem State.setPort_resetCause (s : State) (p : PortId) (x : Port) : (s.setPort p x).resetCause = s.resetCause := rfl
@[simp] theorem State.setPort_storeFault (s : State) (p : PortId) (x : Port) : (s.setPort p x).storeFault = s.storeFault := rfl
@[simp] theorem State.setPort_startOperate (s : State) (p : PortId) (x : Port) : (s.setPort p x).startOperate = s.startOperate := rfl
@[simp] theorem State.setPort_config (s : State) (p : PortId) (x : Port) : (s.setPort p x).config = s.config := rfl
@[simp] theorem State.setPort_store (s : State) (p : PortId) (x : Port) : (s.setPort p x).store = s.store := rfl
@[simp] theorem State.setPort_saveMark (s : State) (p : PortId) (x : Port) : (s.setPort p x).saveMark = s.saveMark := rfl
@[simp] theorem State.setPort_storeOp (s : State) (p : PortId) (x : Port) : (s.setPort p x).storeOp = s.storeOp := rfl
@[simp] theorem State.setPort_engine (s : State) (p : PortId) (x : Port) : (s.setPort p x).engine = s.engine := rfl
@[simp] theorem State.setPort_pointer (s : State) (p : PortId) (x : Port) : (s.setPort p x).pointer = s.pointer := rfl
@[simp] theorem State.setPort_queue (s : State) (p : PortId) (x : Port) : (s.setPort p x).queue = s.queue := rfl
@[simp] theorem State.setPort_table (s : State) (p : PortId) (x : Port) : (s.setPort p x).table = s.table := rfl
@[simp] theorem State.setPort_lines (s : State) (p : PortId) (x : Port) : (s.setPort p x).lines = s.lines := rfl
@[simp] theorem State.setPort_counter (s : State) (p : PortId) (x : Port) : (s.setPort p x).counter = s.counter := rfl
@[simp] theorem State.setPort_latch (s : State) (p : PortId) (x : Port) : (s.setPort p x).latch = s.latch := rfl
@[simp] theorem State.setPort_display (s : State) (p : PortId) (x : Port) : (s.setPort p x).display = s.display := rfl
@[simp] theorem State.setPort_freeCount (s : State) (p : PortId) (x : Port) : (s.setPort p x).freeCount = s.freeCount := rfl

/-! `State.onPort` changes ports only. -/

@[simp] theorem State.onPort_pending (s : State) (p : PortId) (f : Port → Port) : (s.onPort p f).pending = s.pending := rfl
@[simp] theorem State.onPort_resetHeld (s : State) (p : PortId) (f : Port → Port) : (s.onPort p f).resetHeld = s.resetHeld := rfl
@[simp] theorem State.onPort_mode (s : State) (p : PortId) (f : Port → Port) : (s.onPort p f).mode = s.mode := rfl
@[simp] theorem State.onPort_owner (s : State) (p : PortId) (f : Port → Port) : (s.onPort p f).owner = s.owner := rfl
@[simp] theorem State.onPort_resetCause (s : State) (p : PortId) (f : Port → Port) : (s.onPort p f).resetCause = s.resetCause := rfl
@[simp] theorem State.onPort_storeFault (s : State) (p : PortId) (f : Port → Port) : (s.onPort p f).storeFault = s.storeFault := rfl
@[simp] theorem State.onPort_startOperate (s : State) (p : PortId) (f : Port → Port) : (s.onPort p f).startOperate = s.startOperate := rfl
@[simp] theorem State.onPort_config (s : State) (p : PortId) (f : Port → Port) : (s.onPort p f).config = s.config := rfl
@[simp] theorem State.onPort_store (s : State) (p : PortId) (f : Port → Port) : (s.onPort p f).store = s.store := rfl
@[simp] theorem State.onPort_saveMark (s : State) (p : PortId) (f : Port → Port) : (s.onPort p f).saveMark = s.saveMark := rfl
@[simp] theorem State.onPort_storeOp (s : State) (p : PortId) (f : Port → Port) : (s.onPort p f).storeOp = s.storeOp := rfl
@[simp] theorem State.onPort_engine (s : State) (p : PortId) (f : Port → Port) : (s.onPort p f).engine = s.engine := rfl
@[simp] theorem State.onPort_pointer (s : State) (p : PortId) (f : Port → Port) : (s.onPort p f).pointer = s.pointer := rfl
@[simp] theorem State.onPort_queue (s : State) (p : PortId) (f : Port → Port) : (s.onPort p f).queue = s.queue := rfl
@[simp] theorem State.onPort_table (s : State) (p : PortId) (f : Port → Port) : (s.onPort p f).table = s.table := rfl
@[simp] theorem State.onPort_lines (s : State) (p : PortId) (f : Port → Port) : (s.onPort p f).lines = s.lines := rfl
@[simp] theorem State.onPort_counter (s : State) (p : PortId) (f : Port → Port) : (s.onPort p f).counter = s.counter := rfl
@[simp] theorem State.onPort_latch (s : State) (p : PortId) (f : Port → Port) : (s.onPort p f).latch = s.latch := rfl
@[simp] theorem State.onPort_display (s : State) (p : PortId) (f : Port → Port) : (s.onPort p f).display = s.display := rfl
@[simp] theorem State.onPort_freeCount (s : State) (p : PortId) (f : Port → Port) : (s.onPort p f).freeCount = s.freeCount := rfl

/-! `State.onPorts` changes ports only. -/

@[simp] theorem State.onPorts_pending (s : State) (f : Port → Port) : (s.onPorts f).pending = s.pending := rfl
@[simp] theorem State.onPorts_resetHeld (s : State) (f : Port → Port) : (s.onPorts f).resetHeld = s.resetHeld := rfl
@[simp] theorem State.onPorts_mode (s : State) (f : Port → Port) : (s.onPorts f).mode = s.mode := rfl
@[simp] theorem State.onPorts_owner (s : State) (f : Port → Port) : (s.onPorts f).owner = s.owner := rfl
@[simp] theorem State.onPorts_resetCause (s : State) (f : Port → Port) : (s.onPorts f).resetCause = s.resetCause := rfl
@[simp] theorem State.onPorts_storeFault (s : State) (f : Port → Port) : (s.onPorts f).storeFault = s.storeFault := rfl
@[simp] theorem State.onPorts_startOperate (s : State) (f : Port → Port) : (s.onPorts f).startOperate = s.startOperate := rfl
@[simp] theorem State.onPorts_config (s : State) (f : Port → Port) : (s.onPorts f).config = s.config := rfl
@[simp] theorem State.onPorts_store (s : State) (f : Port → Port) : (s.onPorts f).store = s.store := rfl
@[simp] theorem State.onPorts_saveMark (s : State) (f : Port → Port) : (s.onPorts f).saveMark = s.saveMark := rfl
@[simp] theorem State.onPorts_storeOp (s : State) (f : Port → Port) : (s.onPorts f).storeOp = s.storeOp := rfl
@[simp] theorem State.onPorts_engine (s : State) (f : Port → Port) : (s.onPorts f).engine = s.engine := rfl
@[simp] theorem State.onPorts_pointer (s : State) (f : Port → Port) : (s.onPorts f).pointer = s.pointer := rfl
@[simp] theorem State.onPorts_queue (s : State) (f : Port → Port) : (s.onPorts f).queue = s.queue := rfl
@[simp] theorem State.onPorts_table (s : State) (f : Port → Port) : (s.onPorts f).table = s.table := rfl
@[simp] theorem State.onPorts_lines (s : State) (f : Port → Port) : (s.onPorts f).lines = s.lines := rfl
@[simp] theorem State.onPorts_counter (s : State) (f : Port → Port) : (s.onPorts f).counter = s.counter := rfl
@[simp] theorem State.onPorts_latch (s : State) (f : Port → Port) : (s.onPorts f).latch = s.latch := rfl
@[simp] theorem State.onPorts_display (s : State) (f : Port → Port) : (s.onPorts f).display = s.display := rfl
@[simp] theorem State.onPorts_freeCount (s : State) (f : Port → Port) : (s.onPorts f).freeCount = s.freeCount := rfl

/-! `State.shiftOut` changes ports only. -/

@[simp] theorem State.shiftOut_pending (s : State) (p : PortId) (bs : List Byte) : (s.shiftOut p bs).pending = s.pending := rfl
@[simp] theorem State.shiftOut_resetHeld (s : State) (p : PortId) (bs : List Byte) : (s.shiftOut p bs).resetHeld = s.resetHeld := rfl
@[simp] theorem State.shiftOut_mode (s : State) (p : PortId) (bs : List Byte) : (s.shiftOut p bs).mode = s.mode := rfl
@[simp] theorem State.shiftOut_owner (s : State) (p : PortId) (bs : List Byte) : (s.shiftOut p bs).owner = s.owner := rfl
@[simp] theorem State.shiftOut_resetCause (s : State) (p : PortId) (bs : List Byte) : (s.shiftOut p bs).resetCause = s.resetCause := rfl
@[simp] theorem State.shiftOut_storeFault (s : State) (p : PortId) (bs : List Byte) : (s.shiftOut p bs).storeFault = s.storeFault := rfl
@[simp] theorem State.shiftOut_startOperate (s : State) (p : PortId) (bs : List Byte) : (s.shiftOut p bs).startOperate = s.startOperate := rfl
@[simp] theorem State.shiftOut_config (s : State) (p : PortId) (bs : List Byte) : (s.shiftOut p bs).config = s.config := rfl
@[simp] theorem State.shiftOut_store (s : State) (p : PortId) (bs : List Byte) : (s.shiftOut p bs).store = s.store := rfl
@[simp] theorem State.shiftOut_saveMark (s : State) (p : PortId) (bs : List Byte) : (s.shiftOut p bs).saveMark = s.saveMark := rfl
@[simp] theorem State.shiftOut_storeOp (s : State) (p : PortId) (bs : List Byte) : (s.shiftOut p bs).storeOp = s.storeOp := rfl
@[simp] theorem State.shiftOut_engine (s : State) (p : PortId) (bs : List Byte) : (s.shiftOut p bs).engine = s.engine := rfl
@[simp] theorem State.shiftOut_pointer (s : State) (p : PortId) (bs : List Byte) : (s.shiftOut p bs).pointer = s.pointer := rfl
@[simp] theorem State.shiftOut_queue (s : State) (p : PortId) (bs : List Byte) : (s.shiftOut p bs).queue = s.queue := rfl
@[simp] theorem State.shiftOut_table (s : State) (p : PortId) (bs : List Byte) : (s.shiftOut p bs).table = s.table := rfl
@[simp] theorem State.shiftOut_lines (s : State) (p : PortId) (bs : List Byte) : (s.shiftOut p bs).lines = s.lines := rfl
@[simp] theorem State.shiftOut_counter (s : State) (p : PortId) (bs : List Byte) : (s.shiftOut p bs).counter = s.counter := rfl
@[simp] theorem State.shiftOut_latch (s : State) (p : PortId) (bs : List Byte) : (s.shiftOut p bs).latch = s.latch := rfl
@[simp] theorem State.shiftOut_display (s : State) (p : PortId) (bs : List Byte) : (s.shiftOut p bs).display = s.display := rfl
@[simp] theorem State.shiftOut_freeCount (s : State) (p : PortId) (bs : List Byte) : (s.shiftOut p bs).freeCount = s.freeCount := rfl

/-! `State.postTo` changes ports only. -/

@[simp] theorem State.postTo_pending (s : State) (p : PortId) (e : Event) : (s.postTo p e).pending = s.pending := rfl
@[simp] theorem State.postTo_resetHeld (s : State) (p : PortId) (e : Event) : (s.postTo p e).resetHeld = s.resetHeld := rfl
@[simp] theorem State.postTo_mode (s : State) (p : PortId) (e : Event) : (s.postTo p e).mode = s.mode := rfl
@[simp] theorem State.postTo_owner (s : State) (p : PortId) (e : Event) : (s.postTo p e).owner = s.owner := rfl
@[simp] theorem State.postTo_resetCause (s : State) (p : PortId) (e : Event) : (s.postTo p e).resetCause = s.resetCause := rfl
@[simp] theorem State.postTo_storeFault (s : State) (p : PortId) (e : Event) : (s.postTo p e).storeFault = s.storeFault := rfl
@[simp] theorem State.postTo_startOperate (s : State) (p : PortId) (e : Event) : (s.postTo p e).startOperate = s.startOperate := rfl
@[simp] theorem State.postTo_config (s : State) (p : PortId) (e : Event) : (s.postTo p e).config = s.config := rfl
@[simp] theorem State.postTo_store (s : State) (p : PortId) (e : Event) : (s.postTo p e).store = s.store := rfl
@[simp] theorem State.postTo_saveMark (s : State) (p : PortId) (e : Event) : (s.postTo p e).saveMark = s.saveMark := rfl
@[simp] theorem State.postTo_storeOp (s : State) (p : PortId) (e : Event) : (s.postTo p e).storeOp = s.storeOp := rfl
@[simp] theorem State.postTo_engine (s : State) (p : PortId) (e : Event) : (s.postTo p e).engine = s.engine := rfl
@[simp] theorem State.postTo_pointer (s : State) (p : PortId) (e : Event) : (s.postTo p e).pointer = s.pointer := rfl
@[simp] theorem State.postTo_queue (s : State) (p : PortId) (e : Event) : (s.postTo p e).queue = s.queue := rfl
@[simp] theorem State.postTo_table (s : State) (p : PortId) (e : Event) : (s.postTo p e).table = s.table := rfl
@[simp] theorem State.postTo_lines (s : State) (p : PortId) (e : Event) : (s.postTo p e).lines = s.lines := rfl
@[simp] theorem State.postTo_counter (s : State) (p : PortId) (e : Event) : (s.postTo p e).counter = s.counter := rfl
@[simp] theorem State.postTo_latch (s : State) (p : PortId) (e : Event) : (s.postTo p e).latch = s.latch := rfl
@[simp] theorem State.postTo_display (s : State) (p : PortId) (e : Event) : (s.postTo p e).display = s.display := rfl
@[simp] theorem State.postTo_freeCount (s : State) (p : PortId) (e : Event) : (s.postTo p e).freeCount = s.freeCount := rfl

/-! `State.post` changes queue only. -/

@[simp] theorem State.post_pending (s : State) (x : WorkSource) : (s.post x).pending = s.pending := rfl
@[simp] theorem State.post_resetHeld (s : State) (x : WorkSource) : (s.post x).resetHeld = s.resetHeld := rfl
@[simp] theorem State.post_mode (s : State) (x : WorkSource) : (s.post x).mode = s.mode := rfl
@[simp] theorem State.post_owner (s : State) (x : WorkSource) : (s.post x).owner = s.owner := rfl
@[simp] theorem State.post_resetCause (s : State) (x : WorkSource) : (s.post x).resetCause = s.resetCause := rfl
@[simp] theorem State.post_storeFault (s : State) (x : WorkSource) : (s.post x).storeFault = s.storeFault := rfl
@[simp] theorem State.post_startOperate (s : State) (x : WorkSource) : (s.post x).startOperate = s.startOperate := rfl
@[simp] theorem State.post_config (s : State) (x : WorkSource) : (s.post x).config = s.config := rfl
@[simp] theorem State.post_store (s : State) (x : WorkSource) : (s.post x).store = s.store := rfl
@[simp] theorem State.post_saveMark (s : State) (x : WorkSource) : (s.post x).saveMark = s.saveMark := rfl
@[simp] theorem State.post_storeOp (s : State) (x : WorkSource) : (s.post x).storeOp = s.storeOp := rfl
@[simp] theorem State.post_engine (s : State) (x : WorkSource) : (s.post x).engine = s.engine := rfl
@[simp] theorem State.post_pointer (s : State) (x : WorkSource) : (s.post x).pointer = s.pointer := rfl
@[simp] theorem State.post_table (s : State) (x : WorkSource) : (s.post x).table = s.table := rfl
@[simp] theorem State.post_ports (s : State) (x : WorkSource) : (s.post x).ports = s.ports := rfl
@[simp] theorem State.post_lines (s : State) (x : WorkSource) : (s.post x).lines = s.lines := rfl
@[simp] theorem State.post_counter (s : State) (x : WorkSource) : (s.post x).counter = s.counter := rfl
@[simp] theorem State.post_latch (s : State) (x : WorkSource) : (s.post x).latch = s.latch := rfl
@[simp] theorem State.post_display (s : State) (x : WorkSource) : (s.post x).display = s.display := rfl
@[simp] theorem State.post_freeCount (s : State) (x : WorkSource) : (s.post x).freeCount = s.freeCount := rfl

/-! `State.dropLineItems` changes queue only. -/

@[simp] theorem State.dropLineItems_pending (s : State) : (s.dropLineItems).pending = s.pending := rfl
@[simp] theorem State.dropLineItems_resetHeld (s : State) : (s.dropLineItems).resetHeld = s.resetHeld := rfl
@[simp] theorem State.dropLineItems_mode (s : State) : (s.dropLineItems).mode = s.mode := rfl
@[simp] theorem State.dropLineItems_owner (s : State) : (s.dropLineItems).owner = s.owner := rfl
@[simp] theorem State.dropLineItems_resetCause (s : State) : (s.dropLineItems).resetCause = s.resetCause := rfl
@[simp] theorem State.dropLineItems_storeFault (s : State) : (s.dropLineItems).storeFault = s.storeFault := rfl
@[simp] theorem State.dropLineItems_startOperate (s : State) : (s.dropLineItems).startOperate = s.startOperate := rfl
@[simp] theorem State.dropLineItems_config (s : State) : (s.dropLineItems).config = s.config := rfl
@[simp] theorem State.dropLineItems_store (s : State) : (s.dropLineItems).store = s.store := rfl
@[simp] theorem State.dropLineItems_saveMark (s : State) : (s.dropLineItems).saveMark = s.saveMark := rfl
@[simp] theorem State.dropLineItems_storeOp (s : State) : (s.dropLineItems).storeOp = s.storeOp := rfl
@[simp] theorem State.dropLineItems_engine (s : State) : (s.dropLineItems).engine = s.engine := rfl
@[simp] theorem State.dropLineItems_pointer (s : State) : (s.dropLineItems).pointer = s.pointer := rfl
@[simp] theorem State.dropLineItems_table (s : State) : (s.dropLineItems).table = s.table := rfl
@[simp] theorem State.dropLineItems_ports (s : State) : (s.dropLineItems).ports = s.ports := rfl
@[simp] theorem State.dropLineItems_lines (s : State) : (s.dropLineItems).lines = s.lines := rfl
@[simp] theorem State.dropLineItems_counter (s : State) : (s.dropLineItems).counter = s.counter := rfl
@[simp] theorem State.dropLineItems_latch (s : State) : (s.dropLineItems).latch = s.latch := rfl
@[simp] theorem State.dropLineItems_display (s : State) : (s.dropLineItems).display = s.display := rfl
@[simp] theorem State.dropLineItems_freeCount (s : State) : (s.dropLineItems).freeCount = s.freeCount := rfl

/-! `State.setLine` changes lines only. -/

@[simp] theorem State.setLine_pending (s : State) (n : Fin 16) (l : LineState) : (s.setLine n l).pending = s.pending := rfl
@[simp] theorem State.setLine_resetHeld (s : State) (n : Fin 16) (l : LineState) : (s.setLine n l).resetHeld = s.resetHeld := rfl
@[simp] theorem State.setLine_mode (s : State) (n : Fin 16) (l : LineState) : (s.setLine n l).mode = s.mode := rfl
@[simp] theorem State.setLine_owner (s : State) (n : Fin 16) (l : LineState) : (s.setLine n l).owner = s.owner := rfl
@[simp] theorem State.setLine_resetCause (s : State) (n : Fin 16) (l : LineState) : (s.setLine n l).resetCause = s.resetCause := rfl
@[simp] theorem State.setLine_storeFault (s : State) (n : Fin 16) (l : LineState) : (s.setLine n l).storeFault = s.storeFault := rfl
@[simp] theorem State.setLine_startOperate (s : State) (n : Fin 16) (l : LineState) : (s.setLine n l).startOperate = s.startOperate := rfl
@[simp] theorem State.setLine_config (s : State) (n : Fin 16) (l : LineState) : (s.setLine n l).config = s.config := rfl
@[simp] theorem State.setLine_store (s : State) (n : Fin 16) (l : LineState) : (s.setLine n l).store = s.store := rfl
@[simp] theorem State.setLine_saveMark (s : State) (n : Fin 16) (l : LineState) : (s.setLine n l).saveMark = s.saveMark := rfl
@[simp] theorem State.setLine_storeOp (s : State) (n : Fin 16) (l : LineState) : (s.setLine n l).storeOp = s.storeOp := rfl
@[simp] theorem State.setLine_engine (s : State) (n : Fin 16) (l : LineState) : (s.setLine n l).engine = s.engine := rfl
@[simp] theorem State.setLine_pointer (s : State) (n : Fin 16) (l : LineState) : (s.setLine n l).pointer = s.pointer := rfl
@[simp] theorem State.setLine_queue (s : State) (n : Fin 16) (l : LineState) : (s.setLine n l).queue = s.queue := rfl
@[simp] theorem State.setLine_table (s : State) (n : Fin 16) (l : LineState) : (s.setLine n l).table = s.table := rfl
@[simp] theorem State.setLine_ports (s : State) (n : Fin 16) (l : LineState) : (s.setLine n l).ports = s.ports := rfl
@[simp] theorem State.setLine_counter (s : State) (n : Fin 16) (l : LineState) : (s.setLine n l).counter = s.counter := rfl
@[simp] theorem State.setLine_latch (s : State) (n : Fin 16) (l : LineState) : (s.setLine n l).latch = s.latch := rfl
@[simp] theorem State.setLine_display (s : State) (n : Fin 16) (l : LineState) : (s.setLine n l).display = s.display := rfl
@[simp] theorem State.setLine_freeCount (s : State) (n : Fin 16) (l : LineState) : (s.setLine n l).freeCount = s.freeCount := rfl

/-! `State.clearMarks` changes lines only. -/

@[simp] theorem State.clearMarks_pending (s : State) : (s.clearMarks).pending = s.pending := rfl
@[simp] theorem State.clearMarks_resetHeld (s : State) : (s.clearMarks).resetHeld = s.resetHeld := rfl
@[simp] theorem State.clearMarks_mode (s : State) : (s.clearMarks).mode = s.mode := rfl
@[simp] theorem State.clearMarks_owner (s : State) : (s.clearMarks).owner = s.owner := rfl
@[simp] theorem State.clearMarks_resetCause (s : State) : (s.clearMarks).resetCause = s.resetCause := rfl
@[simp] theorem State.clearMarks_storeFault (s : State) : (s.clearMarks).storeFault = s.storeFault := rfl
@[simp] theorem State.clearMarks_startOperate (s : State) : (s.clearMarks).startOperate = s.startOperate := rfl
@[simp] theorem State.clearMarks_config (s : State) : (s.clearMarks).config = s.config := rfl
@[simp] theorem State.clearMarks_store (s : State) : (s.clearMarks).store = s.store := rfl
@[simp] theorem State.clearMarks_saveMark (s : State) : (s.clearMarks).saveMark = s.saveMark := rfl
@[simp] theorem State.clearMarks_storeOp (s : State) : (s.clearMarks).storeOp = s.storeOp := rfl
@[simp] theorem State.clearMarks_engine (s : State) : (s.clearMarks).engine = s.engine := rfl
@[simp] theorem State.clearMarks_pointer (s : State) : (s.clearMarks).pointer = s.pointer := rfl
@[simp] theorem State.clearMarks_queue (s : State) : (s.clearMarks).queue = s.queue := rfl
@[simp] theorem State.clearMarks_table (s : State) : (s.clearMarks).table = s.table := rfl
@[simp] theorem State.clearMarks_ports (s : State) : (s.clearMarks).ports = s.ports := rfl
@[simp] theorem State.clearMarks_counter (s : State) : (s.clearMarks).counter = s.counter := rfl
@[simp] theorem State.clearMarks_latch (s : State) : (s.clearMarks).latch = s.latch := rfl
@[simp] theorem State.clearMarks_display (s : State) : (s.clearMarks).display = s.display := rfl
@[simp] theorem State.clearMarks_freeCount (s : State) : (s.clearMarks).freeCount = s.freeCount := rfl

/-! `State.grant` changes engine, pointer only. -/

@[simp] theorem State.grant_pending (s : State) (c : Claimant) : (s.grant c).pending = s.pending := rfl
@[simp] theorem State.grant_resetHeld (s : State) (c : Claimant) : (s.grant c).resetHeld = s.resetHeld := rfl
@[simp] theorem State.grant_mode (s : State) (c : Claimant) : (s.grant c).mode = s.mode := rfl
@[simp] theorem State.grant_owner (s : State) (c : Claimant) : (s.grant c).owner = s.owner := rfl
@[simp] theorem State.grant_resetCause (s : State) (c : Claimant) : (s.grant c).resetCause = s.resetCause := rfl
@[simp] theorem State.grant_storeFault (s : State) (c : Claimant) : (s.grant c).storeFault = s.storeFault := rfl
@[simp] theorem State.grant_startOperate (s : State) (c : Claimant) : (s.grant c).startOperate = s.startOperate := rfl
@[simp] theorem State.grant_config (s : State) (c : Claimant) : (s.grant c).config = s.config := rfl
@[simp] theorem State.grant_store (s : State) (c : Claimant) : (s.grant c).store = s.store := rfl
@[simp] theorem State.grant_saveMark (s : State) (c : Claimant) : (s.grant c).saveMark = s.saveMark := rfl
@[simp] theorem State.grant_storeOp (s : State) (c : Claimant) : (s.grant c).storeOp = s.storeOp := rfl
@[simp] theorem State.grant_queue (s : State) (c : Claimant) : (s.grant c).queue = s.queue := rfl
@[simp] theorem State.grant_table (s : State) (c : Claimant) : (s.grant c).table = s.table := rfl
@[simp] theorem State.grant_ports (s : State) (c : Claimant) : (s.grant c).ports = s.ports := rfl
@[simp] theorem State.grant_lines (s : State) (c : Claimant) : (s.grant c).lines = s.lines := rfl
@[simp] theorem State.grant_counter (s : State) (c : Claimant) : (s.grant c).counter = s.counter := rfl
@[simp] theorem State.grant_latch (s : State) (c : Claimant) : (s.grant c).latch = s.latch := rfl
@[simp] theorem State.grant_display (s : State) (c : Claimant) : (s.grant c).display = s.display := rfl
@[simp] theorem State.grant_freeCount (s : State) (c : Claimant) : (s.grant c).freeCount = s.freeCount := rfl

/-! `State.grantMailbox` changes engine, pointer, ports only. -/

@[simp] theorem State.grantMailbox_pending (s : State) (p : PortId) (r : Request) : (s.grantMailbox p r).pending = s.pending := rfl
@[simp] theorem State.grantMailbox_resetHeld (s : State) (p : PortId) (r : Request) : (s.grantMailbox p r).resetHeld = s.resetHeld := rfl
@[simp] theorem State.grantMailbox_mode (s : State) (p : PortId) (r : Request) : (s.grantMailbox p r).mode = s.mode := rfl
@[simp] theorem State.grantMailbox_owner (s : State) (p : PortId) (r : Request) : (s.grantMailbox p r).owner = s.owner := rfl
@[simp] theorem State.grantMailbox_resetCause (s : State) (p : PortId) (r : Request) : (s.grantMailbox p r).resetCause = s.resetCause := rfl
@[simp] theorem State.grantMailbox_storeFault (s : State) (p : PortId) (r : Request) : (s.grantMailbox p r).storeFault = s.storeFault := rfl
@[simp] theorem State.grantMailbox_startOperate (s : State) (p : PortId) (r : Request) : (s.grantMailbox p r).startOperate = s.startOperate := rfl
@[simp] theorem State.grantMailbox_config (s : State) (p : PortId) (r : Request) : (s.grantMailbox p r).config = s.config := rfl
@[simp] theorem State.grantMailbox_store (s : State) (p : PortId) (r : Request) : (s.grantMailbox p r).store = s.store := rfl
@[simp] theorem State.grantMailbox_saveMark (s : State) (p : PortId) (r : Request) : (s.grantMailbox p r).saveMark = s.saveMark := rfl
@[simp] theorem State.grantMailbox_storeOp (s : State) (p : PortId) (r : Request) : (s.grantMailbox p r).storeOp = s.storeOp := rfl
@[simp] theorem State.grantMailbox_queue (s : State) (p : PortId) (r : Request) : (s.grantMailbox p r).queue = s.queue := rfl
@[simp] theorem State.grantMailbox_table (s : State) (p : PortId) (r : Request) : (s.grantMailbox p r).table = s.table := rfl
@[simp] theorem State.grantMailbox_lines (s : State) (p : PortId) (r : Request) : (s.grantMailbox p r).lines = s.lines := rfl
@[simp] theorem State.grantMailbox_counter (s : State) (p : PortId) (r : Request) : (s.grantMailbox p r).counter = s.counter := rfl
@[simp] theorem State.grantMailbox_latch (s : State) (p : PortId) (r : Request) : (s.grantMailbox p r).latch = s.latch := rfl
@[simp] theorem State.grantMailbox_display (s : State) (p : PortId) (r : Request) : (s.grantMailbox p r).display = s.display := rfl
@[simp] theorem State.grantMailbox_freeCount (s : State) (p : PortId) (r : Request) : (s.grantMailbox p r).freeCount = s.freeCount := rfl

/-! `State.grantItem` changes engine, pointer, queue only. -/

@[simp] theorem State.grantItem_pending (s : State) : (s.grantItem).pending = s.pending := rfl
@[simp] theorem State.grantItem_resetHeld (s : State) : (s.grantItem).resetHeld = s.resetHeld := rfl
@[simp] theorem State.grantItem_mode (s : State) : (s.grantItem).mode = s.mode := rfl
@[simp] theorem State.grantItem_owner (s : State) : (s.grantItem).owner = s.owner := rfl
@[simp] theorem State.grantItem_resetCause (s : State) : (s.grantItem).resetCause = s.resetCause := rfl
@[simp] theorem State.grantItem_storeFault (s : State) : (s.grantItem).storeFault = s.storeFault := rfl
@[simp] theorem State.grantItem_startOperate (s : State) : (s.grantItem).startOperate = s.startOperate := rfl
@[simp] theorem State.grantItem_config (s : State) : (s.grantItem).config = s.config := rfl
@[simp] theorem State.grantItem_store (s : State) : (s.grantItem).store = s.store := rfl
@[simp] theorem State.grantItem_saveMark (s : State) : (s.grantItem).saveMark = s.saveMark := rfl
@[simp] theorem State.grantItem_storeOp (s : State) : (s.grantItem).storeOp = s.storeOp := rfl
@[simp] theorem State.grantItem_table (s : State) : (s.grantItem).table = s.table := rfl
@[simp] theorem State.grantItem_ports (s : State) : (s.grantItem).ports = s.ports := rfl
@[simp] theorem State.grantItem_lines (s : State) : (s.grantItem).lines = s.lines := rfl
@[simp] theorem State.grantItem_counter (s : State) : (s.grantItem).counter = s.counter := rfl
@[simp] theorem State.grantItem_latch (s : State) : (s.grantItem).latch = s.latch := rfl
@[simp] theorem State.grantItem_display (s : State) : (s.grantItem).display = s.display := rfl
@[simp] theorem State.grantItem_freeCount (s : State) : (s.grantItem).freeCount = s.freeCount := rfl

/-! `State.closeFrame` changes ports only. -/

@[simp] theorem State.closeFrame_pending (s : State) (p : PortId) : (s.closeFrame p).pending = s.pending := rfl
@[simp] theorem State.closeFrame_resetHeld (s : State) (p : PortId) : (s.closeFrame p).resetHeld = s.resetHeld := rfl
@[simp] theorem State.closeFrame_mode (s : State) (p : PortId) : (s.closeFrame p).mode = s.mode := rfl
@[simp] theorem State.closeFrame_owner (s : State) (p : PortId) : (s.closeFrame p).owner = s.owner := rfl
@[simp] theorem State.closeFrame_resetCause (s : State) (p : PortId) : (s.closeFrame p).resetCause = s.resetCause := rfl
@[simp] theorem State.closeFrame_storeFault (s : State) (p : PortId) : (s.closeFrame p).storeFault = s.storeFault := rfl
@[simp] theorem State.closeFrame_startOperate (s : State) (p : PortId) : (s.closeFrame p).startOperate = s.startOperate := rfl
@[simp] theorem State.closeFrame_config (s : State) (p : PortId) : (s.closeFrame p).config = s.config := rfl
@[simp] theorem State.closeFrame_store (s : State) (p : PortId) : (s.closeFrame p).store = s.store := rfl
@[simp] theorem State.closeFrame_saveMark (s : State) (p : PortId) : (s.closeFrame p).saveMark = s.saveMark := rfl
@[simp] theorem State.closeFrame_storeOp (s : State) (p : PortId) : (s.closeFrame p).storeOp = s.storeOp := rfl
@[simp] theorem State.closeFrame_engine (s : State) (p : PortId) : (s.closeFrame p).engine = s.engine := rfl
@[simp] theorem State.closeFrame_pointer (s : State) (p : PortId) : (s.closeFrame p).pointer = s.pointer := rfl
@[simp] theorem State.closeFrame_queue (s : State) (p : PortId) : (s.closeFrame p).queue = s.queue := rfl
@[simp] theorem State.closeFrame_table (s : State) (p : PortId) : (s.closeFrame p).table = s.table := rfl
@[simp] theorem State.closeFrame_lines (s : State) (p : PortId) : (s.closeFrame p).lines = s.lines := rfl
@[simp] theorem State.closeFrame_counter (s : State) (p : PortId) : (s.closeFrame p).counter = s.counter := rfl
@[simp] theorem State.closeFrame_latch (s : State) (p : PortId) : (s.closeFrame p).latch = s.latch := rfl
@[simp] theorem State.closeFrame_display (s : State) (p : PortId) : (s.closeFrame p).display = s.display := rfl
@[simp] theorem State.closeFrame_freeCount (s : State) (p : PortId) : (s.closeFrame p).freeCount = s.freeCount := rfl

/-! `State.setFrame` changes ports only. -/

@[simp] theorem State.setFrame_pending (s : State) (p : PortId) (f : OpenFrame) : (s.setFrame p f).pending = s.pending := rfl
@[simp] theorem State.setFrame_resetHeld (s : State) (p : PortId) (f : OpenFrame) : (s.setFrame p f).resetHeld = s.resetHeld := rfl
@[simp] theorem State.setFrame_mode (s : State) (p : PortId) (f : OpenFrame) : (s.setFrame p f).mode = s.mode := rfl
@[simp] theorem State.setFrame_owner (s : State) (p : PortId) (f : OpenFrame) : (s.setFrame p f).owner = s.owner := rfl
@[simp] theorem State.setFrame_resetCause (s : State) (p : PortId) (f : OpenFrame) : (s.setFrame p f).resetCause = s.resetCause := rfl
@[simp] theorem State.setFrame_storeFault (s : State) (p : PortId) (f : OpenFrame) : (s.setFrame p f).storeFault = s.storeFault := rfl
@[simp] theorem State.setFrame_startOperate (s : State) (p : PortId) (f : OpenFrame) : (s.setFrame p f).startOperate = s.startOperate := rfl
@[simp] theorem State.setFrame_config (s : State) (p : PortId) (f : OpenFrame) : (s.setFrame p f).config = s.config := rfl
@[simp] theorem State.setFrame_store (s : State) (p : PortId) (f : OpenFrame) : (s.setFrame p f).store = s.store := rfl
@[simp] theorem State.setFrame_saveMark (s : State) (p : PortId) (f : OpenFrame) : (s.setFrame p f).saveMark = s.saveMark := rfl
@[simp] theorem State.setFrame_storeOp (s : State) (p : PortId) (f : OpenFrame) : (s.setFrame p f).storeOp = s.storeOp := rfl
@[simp] theorem State.setFrame_engine (s : State) (p : PortId) (f : OpenFrame) : (s.setFrame p f).engine = s.engine := rfl
@[simp] theorem State.setFrame_pointer (s : State) (p : PortId) (f : OpenFrame) : (s.setFrame p f).pointer = s.pointer := rfl
@[simp] theorem State.setFrame_queue (s : State) (p : PortId) (f : OpenFrame) : (s.setFrame p f).queue = s.queue := rfl
@[simp] theorem State.setFrame_table (s : State) (p : PortId) (f : OpenFrame) : (s.setFrame p f).table = s.table := rfl
@[simp] theorem State.setFrame_lines (s : State) (p : PortId) (f : OpenFrame) : (s.setFrame p f).lines = s.lines := rfl
@[simp] theorem State.setFrame_counter (s : State) (p : PortId) (f : OpenFrame) : (s.setFrame p f).counter = s.counter := rfl
@[simp] theorem State.setFrame_latch (s : State) (p : PortId) (f : OpenFrame) : (s.setFrame p f).latch = s.latch := rfl
@[simp] theorem State.setFrame_display (s : State) (p : PortId) (f : OpenFrame) : (s.setFrame p f).display = s.display := rfl
@[simp] theorem State.setFrame_freeCount (s : State) (p : PortId) (f : OpenFrame) : (s.setFrame p f).freeCount = s.freeCount := rfl

/-! `State.select` changes ports only. -/

@[simp] theorem State.select_pending (s : State) (p : PortId) : (s.select p).pending = s.pending := rfl
@[simp] theorem State.select_resetHeld (s : State) (p : PortId) : (s.select p).resetHeld = s.resetHeld := rfl
@[simp] theorem State.select_mode (s : State) (p : PortId) : (s.select p).mode = s.mode := rfl
@[simp] theorem State.select_owner (s : State) (p : PortId) : (s.select p).owner = s.owner := rfl
@[simp] theorem State.select_resetCause (s : State) (p : PortId) : (s.select p).resetCause = s.resetCause := rfl
@[simp] theorem State.select_storeFault (s : State) (p : PortId) : (s.select p).storeFault = s.storeFault := rfl
@[simp] theorem State.select_startOperate (s : State) (p : PortId) : (s.select p).startOperate = s.startOperate := rfl
@[simp] theorem State.select_config (s : State) (p : PortId) : (s.select p).config = s.config := rfl
@[simp] theorem State.select_store (s : State) (p : PortId) : (s.select p).store = s.store := rfl
@[simp] theorem State.select_saveMark (s : State) (p : PortId) : (s.select p).saveMark = s.saveMark := rfl
@[simp] theorem State.select_storeOp (s : State) (p : PortId) : (s.select p).storeOp = s.storeOp := rfl
@[simp] theorem State.select_engine (s : State) (p : PortId) : (s.select p).engine = s.engine := rfl
@[simp] theorem State.select_pointer (s : State) (p : PortId) : (s.select p).pointer = s.pointer := rfl
@[simp] theorem State.select_queue (s : State) (p : PortId) : (s.select p).queue = s.queue := rfl
@[simp] theorem State.select_table (s : State) (p : PortId) : (s.select p).table = s.table := rfl
@[simp] theorem State.select_lines (s : State) (p : PortId) : (s.select p).lines = s.lines := rfl
@[simp] theorem State.select_counter (s : State) (p : PortId) : (s.select p).counter = s.counter := rfl
@[simp] theorem State.select_latch (s : State) (p : PortId) : (s.select p).latch = s.latch := rfl
@[simp] theorem State.select_display (s : State) (p : PortId) : (s.select p).display = s.display := rfl
@[simp] theorem State.select_freeCount (s : State) (p : PortId) : (s.select p).freeCount = s.freeCount := rfl

/-! `State.shiftStatus` changes ports only. -/

@[simp] theorem State.shiftStatus_pending (s : State) (p : PortId) : (s.shiftStatus p).pending = s.pending := rfl
@[simp] theorem State.shiftStatus_resetHeld (s : State) (p : PortId) : (s.shiftStatus p).resetHeld = s.resetHeld := rfl
@[simp] theorem State.shiftStatus_mode (s : State) (p : PortId) : (s.shiftStatus p).mode = s.mode := rfl
@[simp] theorem State.shiftStatus_owner (s : State) (p : PortId) : (s.shiftStatus p).owner = s.owner := rfl
@[simp] theorem State.shiftStatus_resetCause (s : State) (p : PortId) : (s.shiftStatus p).resetCause = s.resetCause := rfl
@[simp] theorem State.shiftStatus_storeFault (s : State) (p : PortId) : (s.shiftStatus p).storeFault = s.storeFault := rfl
@[simp] theorem State.shiftStatus_startOperate (s : State) (p : PortId) : (s.shiftStatus p).startOperate = s.startOperate := rfl
@[simp] theorem State.shiftStatus_config (s : State) (p : PortId) : (s.shiftStatus p).config = s.config := rfl
@[simp] theorem State.shiftStatus_store (s : State) (p : PortId) : (s.shiftStatus p).store = s.store := rfl
@[simp] theorem State.shiftStatus_saveMark (s : State) (p : PortId) : (s.shiftStatus p).saveMark = s.saveMark := rfl
@[simp] theorem State.shiftStatus_storeOp (s : State) (p : PortId) : (s.shiftStatus p).storeOp = s.storeOp := rfl
@[simp] theorem State.shiftStatus_engine (s : State) (p : PortId) : (s.shiftStatus p).engine = s.engine := rfl
@[simp] theorem State.shiftStatus_pointer (s : State) (p : PortId) : (s.shiftStatus p).pointer = s.pointer := rfl
@[simp] theorem State.shiftStatus_queue (s : State) (p : PortId) : (s.shiftStatus p).queue = s.queue := rfl
@[simp] theorem State.shiftStatus_table (s : State) (p : PortId) : (s.shiftStatus p).table = s.table := rfl
@[simp] theorem State.shiftStatus_lines (s : State) (p : PortId) : (s.shiftStatus p).lines = s.lines := rfl
@[simp] theorem State.shiftStatus_counter (s : State) (p : PortId) : (s.shiftStatus p).counter = s.counter := rfl
@[simp] theorem State.shiftStatus_latch (s : State) (p : PortId) : (s.shiftStatus p).latch = s.latch := rfl
@[simp] theorem State.shiftStatus_display (s : State) (p : PortId) : (s.shiftStatus p).display = s.display := rfl
@[simp] theorem State.shiftStatus_freeCount (s : State) (p : PortId) : (s.shiftStatus p).freeCount = s.freeCount := rfl

/-! `State.shiftFree` changes ports, freeCount only. -/

@[simp] theorem State.shiftFree_pending (s : State) (p : PortId) : (s.shiftFree p).pending = s.pending := rfl
@[simp] theorem State.shiftFree_resetHeld (s : State) (p : PortId) : (s.shiftFree p).resetHeld = s.resetHeld := rfl
@[simp] theorem State.shiftFree_mode (s : State) (p : PortId) : (s.shiftFree p).mode = s.mode := rfl
@[simp] theorem State.shiftFree_owner (s : State) (p : PortId) : (s.shiftFree p).owner = s.owner := rfl
@[simp] theorem State.shiftFree_resetCause (s : State) (p : PortId) : (s.shiftFree p).resetCause = s.resetCause := rfl
@[simp] theorem State.shiftFree_storeFault (s : State) (p : PortId) : (s.shiftFree p).storeFault = s.storeFault := rfl
@[simp] theorem State.shiftFree_startOperate (s : State) (p : PortId) : (s.shiftFree p).startOperate = s.startOperate := rfl
@[simp] theorem State.shiftFree_config (s : State) (p : PortId) : (s.shiftFree p).config = s.config := rfl
@[simp] theorem State.shiftFree_store (s : State) (p : PortId) : (s.shiftFree p).store = s.store := rfl
@[simp] theorem State.shiftFree_saveMark (s : State) (p : PortId) : (s.shiftFree p).saveMark = s.saveMark := rfl
@[simp] theorem State.shiftFree_storeOp (s : State) (p : PortId) : (s.shiftFree p).storeOp = s.storeOp := rfl
@[simp] theorem State.shiftFree_engine (s : State) (p : PortId) : (s.shiftFree p).engine = s.engine := rfl
@[simp] theorem State.shiftFree_pointer (s : State) (p : PortId) : (s.shiftFree p).pointer = s.pointer := rfl
@[simp] theorem State.shiftFree_queue (s : State) (p : PortId) : (s.shiftFree p).queue = s.queue := rfl
@[simp] theorem State.shiftFree_table (s : State) (p : PortId) : (s.shiftFree p).table = s.table := rfl
@[simp] theorem State.shiftFree_lines (s : State) (p : PortId) : (s.shiftFree p).lines = s.lines := rfl
@[simp] theorem State.shiftFree_counter (s : State) (p : PortId) : (s.shiftFree p).counter = s.counter := rfl
@[simp] theorem State.shiftFree_latch (s : State) (p : PortId) : (s.shiftFree p).latch = s.latch := rfl
@[simp] theorem State.shiftFree_display (s : State) (p : PortId) : (s.shiftFree p).display = s.display := rfl

/-! `State.enterRow` changes display only. -/

@[simp] theorem State.enterRow_pending (s : State) (r : Fin 8) : (s.enterRow r).pending = s.pending := rfl
@[simp] theorem State.enterRow_resetHeld (s : State) (r : Fin 8) : (s.enterRow r).resetHeld = s.resetHeld := rfl
@[simp] theorem State.enterRow_mode (s : State) (r : Fin 8) : (s.enterRow r).mode = s.mode := rfl
@[simp] theorem State.enterRow_owner (s : State) (r : Fin 8) : (s.enterRow r).owner = s.owner := rfl
@[simp] theorem State.enterRow_resetCause (s : State) (r : Fin 8) : (s.enterRow r).resetCause = s.resetCause := rfl
@[simp] theorem State.enterRow_storeFault (s : State) (r : Fin 8) : (s.enterRow r).storeFault = s.storeFault := rfl
@[simp] theorem State.enterRow_startOperate (s : State) (r : Fin 8) : (s.enterRow r).startOperate = s.startOperate := rfl
@[simp] theorem State.enterRow_config (s : State) (r : Fin 8) : (s.enterRow r).config = s.config := rfl
@[simp] theorem State.enterRow_store (s : State) (r : Fin 8) : (s.enterRow r).store = s.store := rfl
@[simp] theorem State.enterRow_saveMark (s : State) (r : Fin 8) : (s.enterRow r).saveMark = s.saveMark := rfl
@[simp] theorem State.enterRow_storeOp (s : State) (r : Fin 8) : (s.enterRow r).storeOp = s.storeOp := rfl
@[simp] theorem State.enterRow_engine (s : State) (r : Fin 8) : (s.enterRow r).engine = s.engine := rfl
@[simp] theorem State.enterRow_pointer (s : State) (r : Fin 8) : (s.enterRow r).pointer = s.pointer := rfl
@[simp] theorem State.enterRow_queue (s : State) (r : Fin 8) : (s.enterRow r).queue = s.queue := rfl
@[simp] theorem State.enterRow_table (s : State) (r : Fin 8) : (s.enterRow r).table = s.table := rfl
@[simp] theorem State.enterRow_ports (s : State) (r : Fin 8) : (s.enterRow r).ports = s.ports := rfl
@[simp] theorem State.enterRow_lines (s : State) (r : Fin 8) : (s.enterRow r).lines = s.lines := rfl
@[simp] theorem State.enterRow_counter (s : State) (r : Fin 8) : (s.enterRow r).counter = s.counter := rfl
@[simp] theorem State.enterRow_latch (s : State) (r : Fin 8) : (s.enterRow r).latch = s.latch := rfl
@[simp] theorem State.enterRow_freeCount (s : State) (r : Fin 8) : (s.enterRow r).freeCount = s.freeCount := rfl

/-! `State.takeLatch` changes latch only. -/

@[simp] theorem State.takeLatch_pending (s : State) : (s.takeLatch).pending = s.pending := rfl
@[simp] theorem State.takeLatch_resetHeld (s : State) : (s.takeLatch).resetHeld = s.resetHeld := rfl
@[simp] theorem State.takeLatch_mode (s : State) : (s.takeLatch).mode = s.mode := rfl
@[simp] theorem State.takeLatch_owner (s : State) : (s.takeLatch).owner = s.owner := rfl
@[simp] theorem State.takeLatch_resetCause (s : State) : (s.takeLatch).resetCause = s.resetCause := rfl
@[simp] theorem State.takeLatch_storeFault (s : State) : (s.takeLatch).storeFault = s.storeFault := rfl
@[simp] theorem State.takeLatch_startOperate (s : State) : (s.takeLatch).startOperate = s.startOperate := rfl
@[simp] theorem State.takeLatch_config (s : State) : (s.takeLatch).config = s.config := rfl
@[simp] theorem State.takeLatch_store (s : State) : (s.takeLatch).store = s.store := rfl
@[simp] theorem State.takeLatch_saveMark (s : State) : (s.takeLatch).saveMark = s.saveMark := rfl
@[simp] theorem State.takeLatch_storeOp (s : State) : (s.takeLatch).storeOp = s.storeOp := rfl
@[simp] theorem State.takeLatch_engine (s : State) : (s.takeLatch).engine = s.engine := rfl
@[simp] theorem State.takeLatch_pointer (s : State) : (s.takeLatch).pointer = s.pointer := rfl
@[simp] theorem State.takeLatch_queue (s : State) : (s.takeLatch).queue = s.queue := rfl
@[simp] theorem State.takeLatch_table (s : State) : (s.takeLatch).table = s.table := rfl
@[simp] theorem State.takeLatch_ports (s : State) : (s.takeLatch).ports = s.ports := rfl
@[simp] theorem State.takeLatch_lines (s : State) : (s.takeLatch).lines = s.lines := rfl
@[simp] theorem State.takeLatch_counter (s : State) : (s.takeLatch).counter = s.counter := rfl
@[simp] theorem State.takeLatch_display (s : State) : (s.takeLatch).display = s.display := rfl
@[simp] theorem State.takeLatch_freeCount (s : State) : (s.takeLatch).freeCount = s.freeCount := rfl

/-! `State.beginReading` changes display only. -/

@[simp] theorem State.beginReading_pending (s : State) : (s.beginReading).pending = s.pending := rfl
@[simp] theorem State.beginReading_resetHeld (s : State) : (s.beginReading).resetHeld = s.resetHeld := rfl
@[simp] theorem State.beginReading_mode (s : State) : (s.beginReading).mode = s.mode := rfl
@[simp] theorem State.beginReading_owner (s : State) : (s.beginReading).owner = s.owner := rfl
@[simp] theorem State.beginReading_resetCause (s : State) : (s.beginReading).resetCause = s.resetCause := rfl
@[simp] theorem State.beginReading_storeFault (s : State) : (s.beginReading).storeFault = s.storeFault := rfl
@[simp] theorem State.beginReading_startOperate (s : State) : (s.beginReading).startOperate = s.startOperate := rfl
@[simp] theorem State.beginReading_config (s : State) : (s.beginReading).config = s.config := rfl
@[simp] theorem State.beginReading_store (s : State) : (s.beginReading).store = s.store := rfl
@[simp] theorem State.beginReading_saveMark (s : State) : (s.beginReading).saveMark = s.saveMark := rfl
@[simp] theorem State.beginReading_storeOp (s : State) : (s.beginReading).storeOp = s.storeOp := rfl
@[simp] theorem State.beginReading_engine (s : State) : (s.beginReading).engine = s.engine := rfl
@[simp] theorem State.beginReading_pointer (s : State) : (s.beginReading).pointer = s.pointer := rfl
@[simp] theorem State.beginReading_queue (s : State) : (s.beginReading).queue = s.queue := rfl
@[simp] theorem State.beginReading_table (s : State) : (s.beginReading).table = s.table := rfl
@[simp] theorem State.beginReading_ports (s : State) : (s.beginReading).ports = s.ports := rfl
@[simp] theorem State.beginReading_lines (s : State) : (s.beginReading).lines = s.lines := rfl
@[simp] theorem State.beginReading_counter (s : State) : (s.beginReading).counter = s.counter := rfl
@[simp] theorem State.beginReading_latch (s : State) : (s.beginReading).latch = s.latch := rfl
@[simp] theorem State.beginReading_freeCount (s : State) : (s.beginReading).freeCount = s.freeCount := rfl

/-! The conditional updates. -/

/-! `State.postBothIf` changes ports only. -/

@[simp] theorem State.postBothIf_pending (s : State) (c : Bool) (e : Event) : (s.postBothIf c e).pending = s.pending := by
  cases c <;> rfl
@[simp] theorem State.postBothIf_resetHeld (s : State) (c : Bool) (e : Event) : (s.postBothIf c e).resetHeld = s.resetHeld := by
  cases c <;> rfl
@[simp] theorem State.postBothIf_mode (s : State) (c : Bool) (e : Event) : (s.postBothIf c e).mode = s.mode := by
  cases c <;> rfl
@[simp] theorem State.postBothIf_owner (s : State) (c : Bool) (e : Event) : (s.postBothIf c e).owner = s.owner := by
  cases c <;> rfl
@[simp] theorem State.postBothIf_resetCause (s : State) (c : Bool) (e : Event) : (s.postBothIf c e).resetCause = s.resetCause := by
  cases c <;> rfl
@[simp] theorem State.postBothIf_storeFault (s : State) (c : Bool) (e : Event) : (s.postBothIf c e).storeFault = s.storeFault := by
  cases c <;> rfl
@[simp] theorem State.postBothIf_startOperate (s : State) (c : Bool) (e : Event) : (s.postBothIf c e).startOperate = s.startOperate := by
  cases c <;> rfl
@[simp] theorem State.postBothIf_config (s : State) (c : Bool) (e : Event) : (s.postBothIf c e).config = s.config := by
  cases c <;> rfl
@[simp] theorem State.postBothIf_store (s : State) (c : Bool) (e : Event) : (s.postBothIf c e).store = s.store := by
  cases c <;> rfl
@[simp] theorem State.postBothIf_saveMark (s : State) (c : Bool) (e : Event) : (s.postBothIf c e).saveMark = s.saveMark := by
  cases c <;> rfl
@[simp] theorem State.postBothIf_storeOp (s : State) (c : Bool) (e : Event) : (s.postBothIf c e).storeOp = s.storeOp := by
  cases c <;> rfl
@[simp] theorem State.postBothIf_engine (s : State) (c : Bool) (e : Event) : (s.postBothIf c e).engine = s.engine := by
  cases c <;> rfl
@[simp] theorem State.postBothIf_pointer (s : State) (c : Bool) (e : Event) : (s.postBothIf c e).pointer = s.pointer := by
  cases c <;> rfl
@[simp] theorem State.postBothIf_queue (s : State) (c : Bool) (e : Event) : (s.postBothIf c e).queue = s.queue := by
  cases c <;> rfl
@[simp] theorem State.postBothIf_table (s : State) (c : Bool) (e : Event) : (s.postBothIf c e).table = s.table := by
  cases c <;> rfl
@[simp] theorem State.postBothIf_lines (s : State) (c : Bool) (e : Event) : (s.postBothIf c e).lines = s.lines := by
  cases c <;> rfl
@[simp] theorem State.postBothIf_counter (s : State) (c : Bool) (e : Event) : (s.postBothIf c e).counter = s.counter := by
  cases c <;> rfl
@[simp] theorem State.postBothIf_latch (s : State) (c : Bool) (e : Event) : (s.postBothIf c e).latch = s.latch := by
  cases c <;> rfl
@[simp] theorem State.postBothIf_display (s : State) (c : Bool) (e : Event) : (s.postBothIf c e).display = s.display := by
  cases c <;> rfl
@[simp] theorem State.postBothIf_freeCount (s : State) (c : Bool) (e : Event) : (s.postBothIf c e).freeCount = s.freeCount := by
  cases c <;> rfl

/-! `State.nextRow` changes display only. -/

@[simp] theorem State.nextRow_pending (s : State) : (s.nextRow).pending = s.pending := by
  unfold State.nextRow; split <;> [rfl; (split <;> rfl)]
@[simp] theorem State.nextRow_resetHeld (s : State) : (s.nextRow).resetHeld = s.resetHeld := by
  unfold State.nextRow; split <;> [rfl; (split <;> rfl)]
@[simp] theorem State.nextRow_mode (s : State) : (s.nextRow).mode = s.mode := by
  unfold State.nextRow; split <;> [rfl; (split <;> rfl)]
@[simp] theorem State.nextRow_owner (s : State) : (s.nextRow).owner = s.owner := by
  unfold State.nextRow; split <;> [rfl; (split <;> rfl)]
@[simp] theorem State.nextRow_resetCause (s : State) : (s.nextRow).resetCause = s.resetCause := by
  unfold State.nextRow; split <;> [rfl; (split <;> rfl)]
@[simp] theorem State.nextRow_storeFault (s : State) : (s.nextRow).storeFault = s.storeFault := by
  unfold State.nextRow; split <;> [rfl; (split <;> rfl)]
@[simp] theorem State.nextRow_startOperate (s : State) : (s.nextRow).startOperate = s.startOperate := by
  unfold State.nextRow; split <;> [rfl; (split <;> rfl)]
@[simp] theorem State.nextRow_config (s : State) : (s.nextRow).config = s.config := by
  unfold State.nextRow; split <;> [rfl; (split <;> rfl)]
@[simp] theorem State.nextRow_store (s : State) : (s.nextRow).store = s.store := by
  unfold State.nextRow; split <;> [rfl; (split <;> rfl)]
@[simp] theorem State.nextRow_saveMark (s : State) : (s.nextRow).saveMark = s.saveMark := by
  unfold State.nextRow; split <;> [rfl; (split <;> rfl)]
@[simp] theorem State.nextRow_storeOp (s : State) : (s.nextRow).storeOp = s.storeOp := by
  unfold State.nextRow; split <;> [rfl; (split <;> rfl)]
@[simp] theorem State.nextRow_engine (s : State) : (s.nextRow).engine = s.engine := by
  unfold State.nextRow; split <;> [rfl; (split <;> rfl)]
@[simp] theorem State.nextRow_pointer (s : State) : (s.nextRow).pointer = s.pointer := by
  unfold State.nextRow; split <;> [rfl; (split <;> rfl)]
@[simp] theorem State.nextRow_queue (s : State) : (s.nextRow).queue = s.queue := by
  unfold State.nextRow; split <;> [rfl; (split <;> rfl)]
@[simp] theorem State.nextRow_table (s : State) : (s.nextRow).table = s.table := by
  unfold State.nextRow; split <;> [rfl; (split <;> rfl)]
@[simp] theorem State.nextRow_ports (s : State) : (s.nextRow).ports = s.ports := by
  unfold State.nextRow; split <;> [rfl; (split <;> rfl)]
@[simp] theorem State.nextRow_lines (s : State) : (s.nextRow).lines = s.lines := by
  unfold State.nextRow; split <;> [rfl; (split <;> rfl)]
@[simp] theorem State.nextRow_counter (s : State) : (s.nextRow).counter = s.counter := by
  unfold State.nextRow; split <;> [rfl; (split <;> rfl)]
@[simp] theorem State.nextRow_latch (s : State) : (s.nextRow).latch = s.latch := by
  unfold State.nextRow; split <;> [rfl; (split <;> rfl)]
@[simp] theorem State.nextRow_freeCount (s : State) : (s.nextRow).freeCount = s.freeCount := by
  unfold State.nextRow; split <;> [rfl; (split <;> rfl)]

/-! `State.judgeShelf` changes queue only. -/

@[simp] theorem State.judgeShelf_pending (s : State) : (s.judgeShelf).pending = s.pending := by
  unfold State.judgeShelf; split <;> [rfl; (split <;> rfl)]
@[simp] theorem State.judgeShelf_resetHeld (s : State) : (s.judgeShelf).resetHeld = s.resetHeld := by
  unfold State.judgeShelf; split <;> [rfl; (split <;> rfl)]
@[simp] theorem State.judgeShelf_mode (s : State) : (s.judgeShelf).mode = s.mode := by
  unfold State.judgeShelf; split <;> [rfl; (split <;> rfl)]
@[simp] theorem State.judgeShelf_owner (s : State) : (s.judgeShelf).owner = s.owner := by
  unfold State.judgeShelf; split <;> [rfl; (split <;> rfl)]
@[simp] theorem State.judgeShelf_resetCause (s : State) : (s.judgeShelf).resetCause = s.resetCause := by
  unfold State.judgeShelf; split <;> [rfl; (split <;> rfl)]
@[simp] theorem State.judgeShelf_storeFault (s : State) : (s.judgeShelf).storeFault = s.storeFault := by
  unfold State.judgeShelf; split <;> [rfl; (split <;> rfl)]
@[simp] theorem State.judgeShelf_startOperate (s : State) : (s.judgeShelf).startOperate = s.startOperate := by
  unfold State.judgeShelf; split <;> [rfl; (split <;> rfl)]
@[simp] theorem State.judgeShelf_config (s : State) : (s.judgeShelf).config = s.config := by
  unfold State.judgeShelf; split <;> [rfl; (split <;> rfl)]
@[simp] theorem State.judgeShelf_store (s : State) : (s.judgeShelf).store = s.store := by
  unfold State.judgeShelf; split <;> [rfl; (split <;> rfl)]
@[simp] theorem State.judgeShelf_saveMark (s : State) : (s.judgeShelf).saveMark = s.saveMark := by
  unfold State.judgeShelf; split <;> [rfl; (split <;> rfl)]
@[simp] theorem State.judgeShelf_storeOp (s : State) : (s.judgeShelf).storeOp = s.storeOp := by
  unfold State.judgeShelf; split <;> [rfl; (split <;> rfl)]
@[simp] theorem State.judgeShelf_engine (s : State) : (s.judgeShelf).engine = s.engine := by
  unfold State.judgeShelf; split <;> [rfl; (split <;> rfl)]
@[simp] theorem State.judgeShelf_pointer (s : State) : (s.judgeShelf).pointer = s.pointer := by
  unfold State.judgeShelf; split <;> [rfl; (split <;> rfl)]
@[simp] theorem State.judgeShelf_table (s : State) : (s.judgeShelf).table = s.table := by
  unfold State.judgeShelf; split <;> [rfl; (split <;> rfl)]
@[simp] theorem State.judgeShelf_ports (s : State) : (s.judgeShelf).ports = s.ports := by
  unfold State.judgeShelf; split <;> [rfl; (split <;> rfl)]
@[simp] theorem State.judgeShelf_lines (s : State) : (s.judgeShelf).lines = s.lines := by
  unfold State.judgeShelf; split <;> [rfl; (split <;> rfl)]
@[simp] theorem State.judgeShelf_counter (s : State) : (s.judgeShelf).counter = s.counter := by
  unfold State.judgeShelf; split <;> [rfl; (split <;> rfl)]
@[simp] theorem State.judgeShelf_latch (s : State) : (s.judgeShelf).latch = s.latch := by
  unfold State.judgeShelf; split <;> [rfl; (split <;> rfl)]
@[simp] theorem State.judgeShelf_display (s : State) : (s.judgeShelf).display = s.display := by
  unfold State.judgeShelf; split <;> [rfl; (split <;> rfl)]
@[simp] theorem State.judgeShelf_freeCount (s : State) : (s.judgeShelf).freeCount = s.freeCount := by
  unfold State.judgeShelf; split <;> [rfl; (split <;> rfl)]

/-! `State.setSensorFault` changes display, queue only. -/

@[simp] theorem State.setSensorFault_pending (s : State) (v : Bool) : (s.setSensorFault v).pending = s.pending := by
  unfold State.setSensorFault; split <;> rfl
@[simp] theorem State.setSensorFault_resetHeld (s : State) (v : Bool) : (s.setSensorFault v).resetHeld = s.resetHeld := by
  unfold State.setSensorFault; split <;> rfl
@[simp] theorem State.setSensorFault_mode (s : State) (v : Bool) : (s.setSensorFault v).mode = s.mode := by
  unfold State.setSensorFault; split <;> rfl
@[simp] theorem State.setSensorFault_owner (s : State) (v : Bool) : (s.setSensorFault v).owner = s.owner := by
  unfold State.setSensorFault; split <;> rfl
@[simp] theorem State.setSensorFault_resetCause (s : State) (v : Bool) : (s.setSensorFault v).resetCause = s.resetCause := by
  unfold State.setSensorFault; split <;> rfl
@[simp] theorem State.setSensorFault_storeFault (s : State) (v : Bool) : (s.setSensorFault v).storeFault = s.storeFault := by
  unfold State.setSensorFault; split <;> rfl
@[simp] theorem State.setSensorFault_startOperate (s : State) (v : Bool) : (s.setSensorFault v).startOperate = s.startOperate := by
  unfold State.setSensorFault; split <;> rfl
@[simp] theorem State.setSensorFault_config (s : State) (v : Bool) : (s.setSensorFault v).config = s.config := by
  unfold State.setSensorFault; split <;> rfl
@[simp] theorem State.setSensorFault_store (s : State) (v : Bool) : (s.setSensorFault v).store = s.store := by
  unfold State.setSensorFault; split <;> rfl
@[simp] theorem State.setSensorFault_saveMark (s : State) (v : Bool) : (s.setSensorFault v).saveMark = s.saveMark := by
  unfold State.setSensorFault; split <;> rfl
@[simp] theorem State.setSensorFault_storeOp (s : State) (v : Bool) : (s.setSensorFault v).storeOp = s.storeOp := by
  unfold State.setSensorFault; split <;> rfl
@[simp] theorem State.setSensorFault_engine (s : State) (v : Bool) : (s.setSensorFault v).engine = s.engine := by
  unfold State.setSensorFault; split <;> rfl
@[simp] theorem State.setSensorFault_pointer (s : State) (v : Bool) : (s.setSensorFault v).pointer = s.pointer := by
  unfold State.setSensorFault; split <;> rfl
@[simp] theorem State.setSensorFault_table (s : State) (v : Bool) : (s.setSensorFault v).table = s.table := by
  unfold State.setSensorFault; split <;> rfl
@[simp] theorem State.setSensorFault_ports (s : State) (v : Bool) : (s.setSensorFault v).ports = s.ports := by
  unfold State.setSensorFault; split <;> rfl
@[simp] theorem State.setSensorFault_lines (s : State) (v : Bool) : (s.setSensorFault v).lines = s.lines := by
  unfold State.setSensorFault; split <;> rfl
@[simp] theorem State.setSensorFault_counter (s : State) (v : Bool) : (s.setSensorFault v).counter = s.counter := by
  unfold State.setSensorFault; split <;> rfl
@[simp] theorem State.setSensorFault_latch (s : State) (v : Bool) : (s.setSensorFault v).latch = s.latch := by
  unfold State.setSensorFault; split <;> rfl
@[simp] theorem State.setSensorFault_freeCount (s : State) (v : Bool) : (s.setSensorFault v).freeCount = s.freeCount := by
  unfold State.setSensorFault; split <;> rfl

/-! `State.reportRefused` changes ports only. -/

@[simp] theorem State.reportRefused_pending (s : State) (p : PortId) (refused : Bool) : (s.reportRefused p refused).pending = s.pending := by
  cases refused <;> rfl
@[simp] theorem State.reportRefused_resetHeld (s : State) (p : PortId) (refused : Bool) : (s.reportRefused p refused).resetHeld = s.resetHeld := by
  cases refused <;> rfl
@[simp] theorem State.reportRefused_mode (s : State) (p : PortId) (refused : Bool) : (s.reportRefused p refused).mode = s.mode := by
  cases refused <;> rfl
@[simp] theorem State.reportRefused_owner (s : State) (p : PortId) (refused : Bool) : (s.reportRefused p refused).owner = s.owner := by
  cases refused <;> rfl
@[simp] theorem State.reportRefused_resetCause (s : State) (p : PortId) (refused : Bool) : (s.reportRefused p refused).resetCause = s.resetCause := by
  cases refused <;> rfl
@[simp] theorem State.reportRefused_storeFault (s : State) (p : PortId) (refused : Bool) : (s.reportRefused p refused).storeFault = s.storeFault := by
  cases refused <;> rfl
@[simp] theorem State.reportRefused_startOperate (s : State) (p : PortId) (refused : Bool) : (s.reportRefused p refused).startOperate = s.startOperate := by
  cases refused <;> rfl
@[simp] theorem State.reportRefused_config (s : State) (p : PortId) (refused : Bool) : (s.reportRefused p refused).config = s.config := by
  cases refused <;> rfl
@[simp] theorem State.reportRefused_store (s : State) (p : PortId) (refused : Bool) : (s.reportRefused p refused).store = s.store := by
  cases refused <;> rfl
@[simp] theorem State.reportRefused_saveMark (s : State) (p : PortId) (refused : Bool) : (s.reportRefused p refused).saveMark = s.saveMark := by
  cases refused <;> rfl
@[simp] theorem State.reportRefused_storeOp (s : State) (p : PortId) (refused : Bool) : (s.reportRefused p refused).storeOp = s.storeOp := by
  cases refused <;> rfl
@[simp] theorem State.reportRefused_engine (s : State) (p : PortId) (refused : Bool) : (s.reportRefused p refused).engine = s.engine := by
  cases refused <;> rfl
@[simp] theorem State.reportRefused_pointer (s : State) (p : PortId) (refused : Bool) : (s.reportRefused p refused).pointer = s.pointer := by
  cases refused <;> rfl
@[simp] theorem State.reportRefused_queue (s : State) (p : PortId) (refused : Bool) : (s.reportRefused p refused).queue = s.queue := by
  cases refused <;> rfl
@[simp] theorem State.reportRefused_table (s : State) (p : PortId) (refused : Bool) : (s.reportRefused p refused).table = s.table := by
  cases refused <;> rfl
@[simp] theorem State.reportRefused_lines (s : State) (p : PortId) (refused : Bool) : (s.reportRefused p refused).lines = s.lines := by
  cases refused <;> rfl
@[simp] theorem State.reportRefused_counter (s : State) (p : PortId) (refused : Bool) : (s.reportRefused p refused).counter = s.counter := by
  cases refused <;> rfl
@[simp] theorem State.reportRefused_latch (s : State) (p : PortId) (refused : Bool) : (s.reportRefused p refused).latch = s.latch := by
  cases refused <;> rfl
@[simp] theorem State.reportRefused_display (s : State) (p : PortId) (refused : Bool) : (s.reportRefused p refused).display = s.display := by
  cases refused <;> rfl
@[simp] theorem State.reportRefused_freeCount (s : State) (p : PortId) (refused : Bool) : (s.reportRefused p refused).freeCount = s.freeCount := by
  cases refused <;> rfl

/-! `State.startTimer` changes ports only. -/

@[simp] theorem State.startTimer_pending (s : State) (p : PortId) : (s.startTimer p).pending = s.pending := rfl
@[simp] theorem State.startTimer_resetHeld (s : State) (p : PortId) : (s.startTimer p).resetHeld = s.resetHeld := rfl
@[simp] theorem State.startTimer_mode (s : State) (p : PortId) : (s.startTimer p).mode = s.mode := rfl
@[simp] theorem State.startTimer_owner (s : State) (p : PortId) : (s.startTimer p).owner = s.owner := rfl
@[simp] theorem State.startTimer_resetCause (s : State) (p : PortId) : (s.startTimer p).resetCause = s.resetCause := rfl
@[simp] theorem State.startTimer_storeFault (s : State) (p : PortId) : (s.startTimer p).storeFault = s.storeFault := rfl
@[simp] theorem State.startTimer_startOperate (s : State) (p : PortId) : (s.startTimer p).startOperate = s.startOperate := rfl
@[simp] theorem State.startTimer_config (s : State) (p : PortId) : (s.startTimer p).config = s.config := rfl
@[simp] theorem State.startTimer_store (s : State) (p : PortId) : (s.startTimer p).store = s.store := rfl
@[simp] theorem State.startTimer_saveMark (s : State) (p : PortId) : (s.startTimer p).saveMark = s.saveMark := rfl
@[simp] theorem State.startTimer_storeOp (s : State) (p : PortId) : (s.startTimer p).storeOp = s.storeOp := rfl
@[simp] theorem State.startTimer_engine (s : State) (p : PortId) : (s.startTimer p).engine = s.engine := rfl
@[simp] theorem State.startTimer_pointer (s : State) (p : PortId) : (s.startTimer p).pointer = s.pointer := rfl
@[simp] theorem State.startTimer_queue (s : State) (p : PortId) : (s.startTimer p).queue = s.queue := rfl
@[simp] theorem State.startTimer_table (s : State) (p : PortId) : (s.startTimer p).table = s.table := rfl
@[simp] theorem State.startTimer_lines (s : State) (p : PortId) : (s.startTimer p).lines = s.lines := rfl
@[simp] theorem State.startTimer_counter (s : State) (p : PortId) : (s.startTimer p).counter = s.counter := rfl
@[simp] theorem State.startTimer_latch (s : State) (p : PortId) : (s.startTimer p).latch = s.latch := rfl
@[simp] theorem State.startTimer_display (s : State) (p : PortId) : (s.startTimer p).display = s.display := rfl
@[simp] theorem State.startTimer_freeCount (s : State) (p : PortId) : (s.startTimer p).freeCount = s.freeCount := rfl

/-! `State.endLapse` changes ports, queue only. -/

@[simp] theorem State.endLapse_pending (s : State) (p : PortId) : (s.endLapse p).pending = s.pending := by
  unfold State.endLapse; split <;> rfl
@[simp] theorem State.endLapse_resetHeld (s : State) (p : PortId) : (s.endLapse p).resetHeld = s.resetHeld := by
  unfold State.endLapse; split <;> rfl
@[simp] theorem State.endLapse_mode (s : State) (p : PortId) : (s.endLapse p).mode = s.mode := by
  unfold State.endLapse; split <;> rfl
@[simp] theorem State.endLapse_owner (s : State) (p : PortId) : (s.endLapse p).owner = s.owner := by
  unfold State.endLapse; split <;> rfl
@[simp] theorem State.endLapse_resetCause (s : State) (p : PortId) : (s.endLapse p).resetCause = s.resetCause := by
  unfold State.endLapse; split <;> rfl
@[simp] theorem State.endLapse_storeFault (s : State) (p : PortId) : (s.endLapse p).storeFault = s.storeFault := by
  unfold State.endLapse; split <;> rfl
@[simp] theorem State.endLapse_startOperate (s : State) (p : PortId) : (s.endLapse p).startOperate = s.startOperate := by
  unfold State.endLapse; split <;> rfl
@[simp] theorem State.endLapse_config (s : State) (p : PortId) : (s.endLapse p).config = s.config := by
  unfold State.endLapse; split <;> rfl
@[simp] theorem State.endLapse_store (s : State) (p : PortId) : (s.endLapse p).store = s.store := by
  unfold State.endLapse; split <;> rfl
@[simp] theorem State.endLapse_saveMark (s : State) (p : PortId) : (s.endLapse p).saveMark = s.saveMark := by
  unfold State.endLapse; split <;> rfl
@[simp] theorem State.endLapse_storeOp (s : State) (p : PortId) : (s.endLapse p).storeOp = s.storeOp := by
  unfold State.endLapse; split <;> rfl
@[simp] theorem State.endLapse_engine (s : State) (p : PortId) : (s.endLapse p).engine = s.engine := by
  unfold State.endLapse; split <;> rfl
@[simp] theorem State.endLapse_pointer (s : State) (p : PortId) : (s.endLapse p).pointer = s.pointer := by
  unfold State.endLapse; split <;> rfl
@[simp] theorem State.endLapse_table (s : State) (p : PortId) : (s.endLapse p).table = s.table := by
  unfold State.endLapse; split <;> rfl
@[simp] theorem State.endLapse_lines (s : State) (p : PortId) : (s.endLapse p).lines = s.lines := by
  unfold State.endLapse; split <;> rfl
@[simp] theorem State.endLapse_counter (s : State) (p : PortId) : (s.endLapse p).counter = s.counter := by
  unfold State.endLapse; split <;> rfl
@[simp] theorem State.endLapse_latch (s : State) (p : PortId) : (s.endLapse p).latch = s.latch := by
  unfold State.endLapse; split <;> rfl
@[simp] theorem State.endLapse_display (s : State) (p : PortId) : (s.endLapse p).display = s.display := by
  unfold State.endLapse; split <;> rfl
@[simp] theorem State.endLapse_freeCount (s : State) (p : PortId) : (s.endLapse p).freeCount = s.freeCount := by
  unfold State.endLapse; split <;> rfl

/-! `State.completeFrame` changes ports, queue only. -/

@[simp] theorem State.completeFrame_pending (s : State) (p : PortId) : (s.completeFrame p).pending = s.pending := by
  simp only [State.completeFrame]; split <;> simp
@[simp] theorem State.completeFrame_resetHeld (s : State) (p : PortId) : (s.completeFrame p).resetHeld = s.resetHeld := by
  simp only [State.completeFrame]; split <;> simp
@[simp] theorem State.completeFrame_mode (s : State) (p : PortId) : (s.completeFrame p).mode = s.mode := by
  simp only [State.completeFrame]; split <;> simp
@[simp] theorem State.completeFrame_owner (s : State) (p : PortId) : (s.completeFrame p).owner = s.owner := by
  simp only [State.completeFrame]; split <;> simp
@[simp] theorem State.completeFrame_resetCause (s : State) (p : PortId) : (s.completeFrame p).resetCause = s.resetCause := by
  simp only [State.completeFrame]; split <;> simp
@[simp] theorem State.completeFrame_storeFault (s : State) (p : PortId) : (s.completeFrame p).storeFault = s.storeFault := by
  simp only [State.completeFrame]; split <;> simp
@[simp] theorem State.completeFrame_startOperate (s : State) (p : PortId) : (s.completeFrame p).startOperate = s.startOperate := by
  simp only [State.completeFrame]; split <;> simp
@[simp] theorem State.completeFrame_config (s : State) (p : PortId) : (s.completeFrame p).config = s.config := by
  simp only [State.completeFrame]; split <;> simp
@[simp] theorem State.completeFrame_store (s : State) (p : PortId) : (s.completeFrame p).store = s.store := by
  simp only [State.completeFrame]; split <;> simp
@[simp] theorem State.completeFrame_saveMark (s : State) (p : PortId) : (s.completeFrame p).saveMark = s.saveMark := by
  simp only [State.completeFrame]; split <;> simp
@[simp] theorem State.completeFrame_storeOp (s : State) (p : PortId) : (s.completeFrame p).storeOp = s.storeOp := by
  simp only [State.completeFrame]; split <;> simp
@[simp] theorem State.completeFrame_engine (s : State) (p : PortId) : (s.completeFrame p).engine = s.engine := by
  simp only [State.completeFrame]; split <;> simp
@[simp] theorem State.completeFrame_pointer (s : State) (p : PortId) : (s.completeFrame p).pointer = s.pointer := by
  simp only [State.completeFrame]; split <;> simp
@[simp] theorem State.completeFrame_table (s : State) (p : PortId) : (s.completeFrame p).table = s.table := by
  simp only [State.completeFrame]; split <;> simp
@[simp] theorem State.completeFrame_lines (s : State) (p : PortId) : (s.completeFrame p).lines = s.lines := by
  simp only [State.completeFrame]; split <;> simp
@[simp] theorem State.completeFrame_counter (s : State) (p : PortId) : (s.completeFrame p).counter = s.counter := by
  simp only [State.completeFrame]; split <;> simp
@[simp] theorem State.completeFrame_latch (s : State) (p : PortId) : (s.completeFrame p).latch = s.latch := by
  simp only [State.completeFrame]; split <;> simp
@[simp] theorem State.completeFrame_display (s : State) (p : PortId) : (s.completeFrame p).display = s.display := by
  simp only [State.completeFrame]; split <;> simp
@[simp] theorem State.completeFrame_freeCount (s : State) (p : PortId) : (s.completeFrame p).freeCount = s.freeCount := by
  simp only [State.completeFrame]; split <;> simp

/-! Reading a port after an update. -/

@[simp] theorem PerPort.get_set_self {α : Type} (x : PerPort α) (p : PortId) (v : α) : (x.set p v).get p = v := by
  cases p <;> rfl

@[simp] theorem PerPort.get_set_other {α : Type} (x : PerPort α) (p : PortId) (v : α) :
    (x.set p v).get (other p) = x.get (other p) := by
  cases p <;> rfl

theorem PerPort.get_set_ne {α : Type} (x : PerPort α) {p q : PortId} (v : α) (h : q ≠ p) :
    (x.set p v).get q = x.get q := by
  cases p <;> cases q <;> first | rfl | exact absurd rfl h

@[simp] theorem PerPort.get_map {α β : Type} (f : α → β) (x : PerPort α) (p : PortId) :
    (x.map f).get p = f (x.get p) := by
  cases p <;> rfl

@[simp] theorem PerPort.get_both {α : Type} (x : α) (p : PortId) : (PerPort.both x).get p = x := by
  cases p <;> rfl

@[simp] theorem State.port_setPort (s : State) (p : PortId) (x : Port) : (s.setPort p x).port p = x := by
  cases p <;> rfl

theorem State.port_setPort_ne (s : State) {p q : PortId} (x : Port) (h : q ≠ p) :
    (s.setPort p x).port q = s.port q :=
  PerPort.get_set_ne s.ports x h

@[simp] theorem State.port_onPort (s : State) (p : PortId) (f : Port → Port) :
    (s.onPort p f).port p = f (s.port p) := by
  cases p <;> rfl

theorem State.port_onPort_ne (s : State) {p q : PortId} (f : Port → Port) (h : q ≠ p) :
    (s.onPort p f).port q = s.port q :=
  PerPort.get_set_ne s.ports _ h

@[simp] theorem State.port_onPorts (s : State) (f : Port → Port) (p : PortId) :
    (s.onPorts f).port p = f (s.port p) := by
  cases p <;> rfl

theorem State.port_postBothIf (s : State) (c : Bool) (e : Event) (p : PortId) :
    (s.postBothIf c e).port p = if c then (s.port p).post e else s.port p := by
  cases c <;> cases p <;> rfl

theorem other_ne (p : PortId) : other p ≠ p := by
  cases p <;> decide

theorem eq_other_of_ne {p q : PortId} (h : q ≠ p) : q = other p := by
  cases p <;> cases q <;> first | rfl | exact absurd rfl h

/-! The parts of a port that an update of another field keeps. -/

/-! `Port.post` changes the status only. -/

@[simp] theorem Port.post_mailbox (x : Port) (e : Event) : (x.post e).mailbox = x.mailbox := rfl
@[simp] theorem Port.post_buffer (x : Port) (e : Event) : (x.post e).buffer = x.buffer := rfl
@[simp] theorem Port.post_respReady (x : Port) (e : Event) : (x.post e).respReady = x.respReady := rfl
@[simp] theorem Port.post_refused (x : Port) (e : Event) : (x.post e).refused = x.refused := rfl
@[simp] theorem Port.post_enable (x : Port) (e : Event) : (x.post e).enable = x.enable := rfl
@[simp] theorem Port.post_watch (x : Port) (e : Event) : (x.post e).watch = x.watch := rfl
@[simp] theorem Port.post_timer (x : Port) (e : Event) : (x.post e).timer = x.timer := rfl
@[simp] theorem Port.post_lapse (x : Port) (e : Event) : (x.post e).lapse = x.lapse := rfl
@[simp] theorem Port.post_frame (x : Port) (e : Event) : (x.post e).frame = x.frame := rfl
@[simp] theorem Port.post_out (x : Port) (e : Event) : (x.post e).out = x.out := rfl

/-! `Port.fireWatch` changes the watch and the status only. -/

@[simp] theorem Port.fireWatch_mailbox (x : Port) (ps : List Point) : (x.fireWatch ps).mailbox = x.mailbox := by
  unfold Port.fireWatch; split <;> [rfl; (split <;> rfl)]
@[simp] theorem Port.fireWatch_buffer (x : Port) (ps : List Point) : (x.fireWatch ps).buffer = x.buffer := by
  unfold Port.fireWatch; split <;> [rfl; (split <;> rfl)]
@[simp] theorem Port.fireWatch_respReady (x : Port) (ps : List Point) : (x.fireWatch ps).respReady = x.respReady := by
  unfold Port.fireWatch; split <;> [rfl; (split <;> rfl)]
@[simp] theorem Port.fireWatch_refused (x : Port) (ps : List Point) : (x.fireWatch ps).refused = x.refused := by
  unfold Port.fireWatch; split <;> [rfl; (split <;> rfl)]
@[simp] theorem Port.fireWatch_enable (x : Port) (ps : List Point) : (x.fireWatch ps).enable = x.enable := by
  unfold Port.fireWatch; split <;> [rfl; (split <;> rfl)]
@[simp] theorem Port.fireWatch_timer (x : Port) (ps : List Point) : (x.fireWatch ps).timer = x.timer := by
  unfold Port.fireWatch; split <;> [rfl; (split <;> rfl)]
@[simp] theorem Port.fireWatch_lapse (x : Port) (ps : List Point) : (x.fireWatch ps).lapse = x.lapse := by
  unfold Port.fireWatch; split <;> [rfl; (split <;> rfl)]
@[simp] theorem Port.fireWatch_frame (x : Port) (ps : List Point) : (x.fireWatch ps).frame = x.frame := by
  unfold Port.fireWatch; split <;> [rfl; (split <;> rfl)]
@[simp] theorem Port.fireWatch_out (x : Port) (ps : List Point) : (x.fireWatch ps).out = x.out := by
  unfold Port.fireWatch; split <;> [rfl; (split <;> rfl)]

/-! `Port.deliver` fills the buffer and empties the mailbox. -/

@[simp] theorem Port.deliver_refused (x : Port) (bs : List Byte) : (x.deliver bs).refused = x.refused := rfl
@[simp] theorem Port.deliver_enable (x : Port) (bs : List Byte) : (x.deliver bs).enable = x.enable := rfl
@[simp] theorem Port.deliver_watch (x : Port) (bs : List Byte) : (x.deliver bs).watch = x.watch := rfl
@[simp] theorem Port.deliver_timer (x : Port) (bs : List Byte) : (x.deliver bs).timer = x.timer := rfl
@[simp] theorem Port.deliver_lapse (x : Port) (bs : List Byte) : (x.deliver bs).lapse = x.lapse := rfl
@[simp] theorem Port.deliver_out (x : Port) (bs : List Byte) : (x.deliver bs).out = x.out := rfl
@[simp] theorem Port.deliver_mailbox (x : Port) (bs : List Byte) : (x.deliver bs).mailbox = .empty := rfl
@[simp] theorem Port.deliver_buffer (x : Port) (bs : List Byte) : (x.deliver bs).buffer = bufferOf bs := rfl
@[simp] theorem Port.deliver_respReady (x : Port) (bs : List Byte) : (x.deliver bs).respReady = true := rfl

end Sys2Proof.Machine
end

