-- ==== Sys2Proof/Laws/Display.lean ====
section
/-! SUPPORT. The Slot Contents and the Summary Counts as a completion computes them and as the statements say them; the
scan position and the drive of the columns. -/

namespace Sys2Proof.Machine

/-! Points in bytes. -/

theorem pointOfByte_byteOfPoint (x : Point) : pointOfByte (byteOfPoint x) = some x := by
  have h : (byteOfPoint x).toNat = x.val := by
    simp only [byteOfPoint, BitVec.toNat_ofNat]
    omega
  unfold pointOfByte
  rw [dif_pos (by omega)]
  exact congrArg some (Fin.ext h)

theorem byteOfPoint_of_pointOfByte {b : Byte} {x : Point} (h : pointOfByte b = some x) : byteOfPoint x = b := by
  unfold pointOfByte at h
  split at h
  · cases h
    exact BitVec.eq_of_toNat_eq (by simp [byteOfPoint])
  · cases h

theorem pointOfByte_eq_none {b : Byte} : pointOfByte b = none ↔ 252 ≤ b.toNat := by
  unfold pointOfByte
  split <;> simp <;> omega

/-! Counting records. -/

theorem length_filter_filterMap {α β : Type} (f : α → Option β) (q : β → Bool) (l : List α) :
    ((l.filterMap f).filter q).length = (l.filter fun x => (f x).any q).length := by
  induction l with
  | nil => rfl
  | cons x xs ih =>
    rcases h : f x with _ | y
    · simpa [h] using ih
    · rcases hq : q y with _ | _ <;> simp [h, hq, ih]

/-- A count of a completion is the number of records of its kind. -/
theorem Table.countRecords_eq (t : Table) {q q' : Record → Bool} (h : ∀ r, q r = q' r) :
    countRecords t.records q = t.tally q' := by
  rw [(funext h : q = q')]
  exact length_filter_filterMap t.recordOf q' t.rank

theorem ConfigMem.hasDedicated_iff (cfg : ConfigMem) (x : Point) :
    cfg.hasDedicated x = true ↔ ∃ i, cfg.slots.get i = ⟨.dedicated, byteOfPoint x⟩ := by
  simp only [ConfigMem.hasDedicated, List.any_eq_true, Bool.and_eq_true, beq_iff_eq, Bank.mem_items]
  constructor
  · rintro ⟨e, ⟨i, rfl⟩, h1, h2⟩
    exact ⟨i, by rw [← h1, ← h2]⟩
  · rintro ⟨i, h⟩
    exact ⟨_, ⟨i, rfl⟩, by rw [h], by rw [h]⟩

theorem Table.eligible_eq (t : Table) (cfg : ConfigMem) : t.eligible cfg = t.eligibleRecords cfg := by
  simp only [Table.eligible, Table.eligibleRecords, Table.records]
  congr 1
  funext r
  have h : cfg.hasDedicated r.point = false ↔ ∀ i, cfg.slots.get i ≠ ⟨.dedicated, byteOfPoint r.point⟩ := by
    rw [← Bool.not_eq_true, cfg.hasDedicated_iff]
    exact not_exists
  apply Bool.eq_iff_iff.mpr
  simp only [poolEligible, Bool.and_eq_true, Bool.not_eq_true', h, Option.isNone_iff_eq_none, decide_eq_true_eq]
  tauto

theorem ConfigMem.poolSize_eq (cfg : ConfigMem) : cfg.poolSize = cfg.poolSlots :=
  cfg.slots.length_filter_items fun e => e.role == .pool

theorem Record.shown_eq (r : Record) : r.shown = shownAs r := by
  simp only [Record.shown, shownAs, Record.pattern]
  cases r.state <;> cases r.firstOut <;> rfl

/-! The Slot Contents (R134). -/

theorem Table.slotContent_dedicated (t : Table) (rs : List Record) (x : Point) :
    t.slotContent rs ⟨.dedicated, byteOfPoint x⟩ =
      (t.recordOf x).bind fun r => if r.shelf = none then some (shownAs r) else none := by
  simp only [Table.slotContent, pointOfByte_byteOfPoint, Option.bind_some]
  cases t.recordOf x with
  | none => rfl
  | some r => simp [Record.shown_eq]

theorem State.slotsAgree_iff (s : State) : s.SlotsAgree ↔ s.table.slots = s.table.allocate s.config := by
  constructor
  · intro h
    apply Bank.ext_get
    intro i
    simp only [Table.allocate, Bank.get_map, Table.eligible_eq]
    rcases he : s.config.slots.get i with ⟨role, b⟩
    cases role with
    | dedicated =>
      rcases hb : pointOfByte b with _ | x
      · rw [h.unnamed i (by rw [he]) (by rw [he]; exact pointOfByte_eq_none.mp hb)]
        simp [Table.slotContent, hb]
      · rw [← byteOfPoint_of_pointOfByte hb] at he ⊢
        rw [h.dedicated i x he, Table.slotContent_dedicated]
    | pool =>
      rw [h.pool i (by rw [he]), he]
      simp only [Table.slotContent, (funext Record.shown_eq : Record.shown = shownAs)]
    | unused => exact h.dark i (by simp [he]) (by simp [he])
    | overflow => exact h.dark i (by simp [he]) (by simp [he])
    | health => exact h.dark i (by simp [he]) (by simp [he])
    | sensor => exact h.dark i (by simp [he]) (by simp [he])
  · intro h
    have hi : ∀ i, s.table.slots.get i =
        s.table.slotContent (s.table.eligibleRecords s.config) (s.config.slots.get i) := by
      intro i
      rw [h]
      simp only [Table.allocate, Bank.get_map, Table.eligible_eq]
    constructor
    · intro i x he
      rw [hi i, he, Table.slotContent_dedicated]
    · intro i hr hb
      rw [hi i]
      simp [Table.slotContent, hr, pointOfByte_eq_none.mpr hb]
    · intro i hr
      rw [hi i]
      simp only [Table.slotContent, hr, (funext Record.shown_eq : Record.shown = shownAs)]
    · intro i h1 h2
      rw [hi i]
      unfold Table.slotContent
      split <;> first | rfl | (exfalso; tauto)

/-! The Summary Counts (R58 to R61). -/

theorem State.countsAgree_iff (s : State) : s.CountsAgree ↔ s.table.counts = s.table.summary s.config := by
  have hh : ((s.table.eligibleRecords s.config).drop s.config.poolSlots).any (fun r => r.state.unacked) = true ↔
      ∃ r ∈ (s.table.eligibleRecords s.config).drop s.config.poolSlots,
        r.state = .new ∨ r.state = .returned ∨ r.state = .ringback := by
    rw [List.any_eq_true]
    refine exists_congr fun r => and_congr_right fun _ => ?_
    cases r.state <;> simp [RecState.unacked]
  have e1 := s.table.countRecords_eq (q := fun r => !isSystem r.point) (q' := fun r => decide (r.point.val < 248))
    (fun r => Bool.eq_iff_iff.mpr (by simp [isSystem]))
  have e2 := s.table.countRecords_eq (q := fun r => isSystem r.point) (q' := fun r => decide (248 ≤ r.point.val))
    (fun r => rfl)
  have e3 := fun st => s.table.countRecords_eq (q := fun r => r.state == st) (q' := fun r => decide (r.state = st))
    (fun r => rfl)
  have e4 := s.table.countRecords_eq (q := fun r => r.shelf.isSome) (q' := fun r => decide (r.shelf ≠ none))
    (fun r => Bool.eq_iff_iff.mpr (by simp [Option.isSome_iff_ne_none]))
  have e5 := s.table.countRecords_eq
    (q := fun r => r.sounding && (r.state == .new || r.state == .returned))
    (q' := fun r => decide (r.sounding = true ∧ (r.state = .new ∨ r.state = .returned)))
    (fun r => Bool.eq_iff_iff.mpr (by simp))
  have e6 := s.table.countRecords_eq
    (q := fun r => r.sounding && r.state == .ringback)
    (q' := fun r => decide (r.sounding = true ∧ r.state = .ringback))
    (fun r => Bool.eq_iff_iff.mpr (by simp))
  have e7 := fun k : Fin 8 => s.table.countRecords_eq
    (q := fun r => r.shelf.isNone && decide ((s.config.point r.point).cls.val = k.val)
      && (s.table.live r.point).condition)
    (q' := fun r => decide (r.shelf = none ∧ (s.config.point r.point).cls = k
      ∧ (s.table.live r.point).condition = true))
    (fun r => Bool.eq_iff_iff.mpr (by simp [Fin.ext_iff, and_assoc]))
  constructor
  · intro h
    obtain ⟨h1, h2, h3, h4, h5, h6, h7, h8, h9, h10, h11, h12, h13, h14, h15⟩ := h
    have hp : s.table.counts.presentByClass = Bank.build 8 fun k => countRecords s.table.records fun r =>
        r.shelf.isNone && decide ((s.config.point r.point).cls.val = k) && (s.table.live r.point).condition :=
      Bank.ext_get fun k => by rw [h12 k, Bank.get_build, e7 k]
    have hu : s.table.counts.hiddenUnacked =
        ((s.table.eligibleRecords s.config).drop s.config.poolSlots).any fun r => r.state.unacked :=
      Bool.eq_iff_iff.mpr (h15.trans hh.symm)
    simp only [Table.summary, Table.eligible_eq, ConfigMem.poolSize_eq, e1, e2, e3, e4, e5, e6, ← hp, ← hu,
      List.length_drop, ← h1, ← h2, ← h3, ← h4, ← h5, ← h6, ← h7, ← h8, ← h9, ← h10, ← h11, ← h14]
    rw [← h13]
  · intro h
    rw [← Table.eligible_eq] at hh
    constructor <;> (try intro k) <;> rw [h] <;>
      simp only [Table.summary, ConfigMem.poolSize_eq, List.length_drop, Bank.get_build, e1, e2, e3, e4, e5, e6, e7,
        ← Table.eligible_eq, hh]

/-- The invariant as a completion brings it about. -/
theorem State.displayAgrees_iff (s : State) : s.DisplayAgrees ↔
    s.table.slots = s.table.allocate s.config ∧ s.table.counts = s.table.summary s.config :=
  ⟨fun h => ⟨s.slotsAgree_iff.mp h.slots, s.countsAgree_iff.mp h.counts⟩,
    fun h => ⟨s.slotsAgree_iff.mpr h.1, s.countsAgree_iff.mpr h.2⟩⟩

end Sys2Proof.Machine
end

