-- ==== Sys2Proof/Laws/Pairs.lean ====
section
/-! SUPPORT. What becomes of a pair of a window write, by the verdict of Table 9-7 (R166, R167). -/

namespace Sys2Proof.Machine

/-- The port after a pair: the next address, and whether a pair of the frame was refused. -/
def Port.pairDone (addr : Half) (refused : Bool) (x : Port) : Port :=
  { x with frame := some (.write (addr + 1) refused) }

@[simp] theorem State.shiftOut_verdict (s : State) (p : PortId) (bs : List Byte) (q : PortId) (region : Region) :
    (s.shiftOut p bs).verdict q region = s.verdict q region := by
  cases region <;> rfl

/-- The status byte of a port does not show its frame, nor the bytes that it has shifted out. -/
theorem State.status_setFrame_shiftStatus (s : State) (p : PortId) (f : OpenFrame) :
    ((s.shiftStatus p).setFrame p f).status p = s.status p := by
  cases p <;> rfl

/-- A pair between two pairs of an open write frame is judged, and the status byte is shifted out in both its bytes. -/
theorem State.pair_eq_judgePair {s : State} {p : PortId} {addr : Half} {refused : Bool}
    (hf : (s.port p).frame = some (.write addr refused)) (regions : Region → Bool)
    (hr : regions (regionOf addr) = true) (mask data : Byte) :
    s.pair p regions mask data = (s.shiftOut p [s.status p, s.status p]).judgePair p addr refused mask data := by
  have hm : s.receive p mask = (s.shiftStatus p).setFrame p (.writeMask addr refused mask) := by
    simp only [State.receive, hf, State.receiveIn]
  have hd : ((s.shiftStatus p).setFrame p (.writeMask addr refused mask)).receive p data =
      ((((s.shiftStatus p).setFrame p (.writeMask addr refused mask)).shiftStatus p).setFrame p
        (.write addr refused)).judgePair p addr refused mask data := by
    simp [State.receive, State.setFrame, State.receiveIn]
  have hs : (((s.shiftStatus p).setFrame p (.writeMask addr refused mask)).shiftStatus p).setFrame p
      (.write addr refused) = s.shiftOut p [s.status p, s.status p] := by
    rw [State.shiftStatus, State.status_setFrame_shiftStatus]
    simp only [State.shiftStatus, State.setFrame, State.shiftOut]
    cases p <;> (simp only [State.port, PerPort.get] at hf; simp [State.onPort, State.setPort, State.port,
      PerPort.get, PerPort.set, ← hf])
  simp only [State.pair, hf, hr, if_true, hm, hd, hs]

/-- A pair whose mask is 0 changes nothing (R166). -/
theorem State.pair_of_mask_zero {s : State} {p : PortId} {addr : Half} {refused : Bool}
    (hf : (s.port p).frame = some (.write addr refused)) (regions : Region → Bool)
    (hr : regions (regionOf addr) = true) (data : Byte) :
    s.pair p regions 0 data = (s.shiftOut p [s.status p, s.status p]).onPort p (Port.pairDone addr refused) := by
  simp only [State.pair_eq_judgePair hf regions hr, State.judgePair]
  simp
  rfl

/-- A pair that is applied. -/
theorem State.pair_of_apply {s : State} {p : PortId} {addr : Half} {refused : Bool} {region : Region}
    (hf : (s.port p).frame = some (.write addr refused)) (ha : regionOf addr = region) (regions : Region → Bool)
    (hr : regions region = true) {mask : Byte} (hm : mask ≠ 0) (hv : s.verdict p region = .apply) (data : Byte) :
    s.pair p regions mask data =
      ((s.shiftOut p [s.status p, s.status p]).applyPair p region mask data).onPort p
        (Port.pairDone addr refused) := by
  subst ha
  simp only [State.pair_eq_judgePair hf regions hr, State.judgePair, hm, if_false, State.shiftOut_verdict, hv]
  simp
  rfl

/-- A pair that is refused changes nothing but the frame's record of it. -/
theorem State.pair_of_refuse {s : State} {p : PortId} {addr : Half} {refused : Bool} {region : Region}
    (hf : (s.port p).frame = some (.write addr refused)) (ha : regionOf addr = region) (regions : Region → Bool)
    (hr : regions region = true) {mask : Byte} (hm : mask ≠ 0) (hv : s.verdict p region = .refuse) (data : Byte) :
    s.pair p regions mask data =
      (s.shiftOut p [s.status p, s.status p]).onPort p (Port.pairDone addr true) := by
  subst ha
  simp only [State.pair_eq_judgePair hf regions hr, State.judgePair, hm, if_false, State.shiftOut_verdict, hv]
  simp
  rfl

/-- A pair that is ignored. -/
theorem State.pair_of_ignore {s : State} {p : PortId} {addr : Half} {refused : Bool} {region : Region}
    (hf : (s.port p).frame = some (.write addr refused)) (ha : regionOf addr = region) (regions : Region → Bool)
    (hr : regions region = true) {mask : Byte} (hm : mask ≠ 0) (hv : s.verdict p region = .ignore) (data : Byte) :
    s.pair p regions mask data =
      (s.shiftOut p [s.status p, s.status p]).onPort p (Port.pairDone addr refused) := by
  subst ha
  simp only [State.pair_eq_judgePair hf regions hr, State.judgePair, hm, if_false, State.shiftOut_verdict, hv]
  simp
  rfl

/-- Without an open write frame whose next address is in the regions, no such step occurs. -/
theorem State.pair_cases (s : State) (p : PortId) (regions : Region → Bool) (mask data : Byte) :
    s.pair p regions mask data = s ∨ ∃ addr refused, (s.port p).frame = some (.write addr refused)
      ∧ regions (regionOf addr) = true
      ∧ s.pair p regions mask data =
        (s.shiftOut p [s.status p, s.status p]).judgePair p addr refused mask data := by
  by_cases h : ∃ addr refused, (s.port p).frame = some (.write addr refused) ∧ regions (regionOf addr) = true
  · obtain ⟨addr, refused, hf, hr⟩ := h
    exact .inr ⟨addr, refused, hf, hr, s.pair_eq_judgePair hf regions hr mask data⟩
  · left
    unfold State.pair
    split
    · next addr refused hf => rw [if_neg fun hr => h ⟨addr, refused, hf, hr⟩]
    · rfl

end Sys2Proof.Machine
end

