-- ==== Sys2Proof/Laws/Frames.lean ====
section
/-! SUPPORT. Frames: what the window shows, and what the end of a complete frame does. -/

namespace Sys2Proof.Machine

/-- What a window byte is read from: the state but for the frames, the data-out pins and the engine's arbitration. -/
structure State.SameWindow (s t : State) (p : PortId) : Prop where
  mode : t.mode = s.mode
  owner : t.owner = s.owner
  resetCause : t.resetCause = s.resetCause
  storeFault : t.storeFault = s.storeFault
  storeOp : t.storeOp = s.storeOp
  config : t.config = s.config
  table : t.table = s.table
  lines : t.lines = s.lines
  latch : t.latch = s.latch
  display : t.display = s.display
  status : (t.port p).status = (s.port p).status
  enable : (t.port p).enable = (s.port p).enable

theorem State.SameWindow.regionByte {s t : State} {p : PortId} (h : s.SameWindow t p) (region : Region) :
    t.regionByte p region = s.regionByte p region := by
  obtain ⟨h1, h2, h3, h4, h5, h6, h7, h8, h9, h10, h11, h12⟩ := h
  cases region <;>
    simp only [State.regionByte, State.identByte, State.storeBusy, State.lineCfg, State.brightStatusByte,
      State.testHeld, Port.statusByte, Port.enableByte, h1, h2, h3, h4, h5, h6, h7, h8, h9, h10, h11, h12]

theorem State.sameWindow_onPort (s : State) (p : PortId) (f : Port → Port)
    (h1 : (f (s.port p)).status = (s.port p).status) (h2 : (f (s.port p)).enable = (s.port p).enable) :
    s.SameWindow (s.onPort p f) p :=
  ⟨rfl, rfl, rfl, rfl, rfl, rfl, rfl, rfl, rfl, rfl, by simp [h1], by simp [h2]⟩

theorem State.SameWindow.trans {s t u : State} {p : PortId} (h : s.SameWindow t p) (k : t.SameWindow u p) :
    s.SameWindow u p :=
  ⟨k.mode.trans h.mode, k.owner.trans h.owner, k.resetCause.trans h.resetCause, k.storeFault.trans h.storeFault,
    k.storeOp.trans h.storeOp, k.config.trans h.config, k.table.trans h.table, k.lines.trans h.lines,
    k.latch.trans h.latch, k.display.trans h.display, k.status.trans h.status, k.enable.trans h.enable⟩

/-! Two updates of one port. -/

theorem State.onPort_onPort (s : State) (p : PortId) (f g : Port → Port) :
    (s.onPort p f).onPort p g = s.onPort p (fun x => g (f x)) := by
  cases p <;> rfl

theorem State.shiftOut_eq (s : State) (p : PortId) (bs : List Byte) :
    s.shiftOut p bs = s.onPort p fun x => { x with out := x.out ++ bs } := rfl

theorem State.onPort_congr (s : State) (p : PortId) {f g : Port → Port} (h : f (s.port p) = g (s.port p)) :
    s.onPort p f = s.onPort p g := by
  simp [State.onPort, h]

/-- A pair that changes nothing, as statements say it. -/
theorem State.pairDone_eq_pairAt (s : State) (p : PortId) (addr : Half) (refused : Bool) :
    (s.shiftOut p [s.status p, s.status p]).onPort p (Port.pairDone addr refused) = s.pairAt s p addr refused := by
  rw [State.shiftOut_eq, State.onPort_onPort]
  rfl

/-! Kinds of frame and the bytes received in them. -/

@[simp] theorem frameKindOf_kindByte (k : FrameKind) : frameKindOf (kindByte k) = some k := by
  cases k <;> rfl

theorem frameKindOf_eq_none {b : Byte} (h1 : b ≠ 0xA1) (h2 : b ≠ 0xA2) (h3 : b ≠ 0xA4) (h4 : b ≠ 0xA8) :
    frameKindOf b = none := by
  rw [frameKindOf, if_neg h1, if_neg h2, if_neg h3, if_neg h4]

theorem State.receive_of_frame {s : State} {p : PortId} {f : OpenFrame} (h : (s.port p).frame = some f) (b : Byte) :
    s.receive p b = s.receiveIn p b f := by
  simp only [State.receive, h]

@[simp] theorem State.receiveAll_nil (s : State) (p : PortId) : s.receiveAll p [] = s := rfl

@[simp] theorem State.receiveAll_cons (s : State) (p : PortId) (b : Byte) (bs : List Byte) :
    s.receiveAll p (b :: bs) = (s.receive p b).receiveAll p bs := rfl

theorem State.receiveAll_append (s : State) (p : PortId) (bs cs : List Byte) :
    s.receiveAll p (bs ++ cs) = (s.receiveAll p bs).receiveAll p cs := by
  simp [State.receiveAll]

@[simp] theorem State.port_select (s : State) (p : PortId) :
    (s.select p).port p = { s.port p with frame := some .selected, out := [s.status p] } := by
  simp [State.select]

@[simp] theorem State.port_setFrame (s : State) (p : PortId) (f : OpenFrame) :
    (s.setFrame p f).port p = { s.port p with frame := some f } := by
  simp [State.setFrame]

@[simp] theorem State.port_shiftStatus (s : State) (p : PortId) :
    (s.shiftStatus p).port p = { s.port p with out := (s.port p).out ++ [s.status p] } := by
  simp [State.shiftStatus, State.shiftOut]

@[simp] theorem State.port_closeFrame (s : State) (p : PortId) :
    (s.closeFrame p).port p = { s.port p with frame := none } := by
  simp [State.closeFrame]

/-- The status byte shows nothing of the frame in progress or of the bytes shifted out. -/
theorem State.statusWith_onPort_frame (s : State) (p : PortId) (f : Option OpenFrame) (bs : List Byte)
    (refused : Bool) :
    (s.onPort p fun x => { x with frame := f, out := bs }).statusWith p refused = s.statusWith p refused := by
  cases p <;> rfl

/-- The kind byte is received: what it opens, with nothing shifted out beside the byte of chip-select (R161). -/
theorem State.receive_kind {s : State} {p : PortId} (h : (s.port p).frame = some .selected) (b : Byte) :
    s.receive p b = s.setFrame p (s.opens p b) :=
  s.receive_of_frame h b

/-- The two bytes of an address, most significant first (R165). -/
theorem State.receiveAll_address {s : State} {p : PortId} {writes : Bool}
    (h : (s.port p).frame = some (.address writes none)) (high low : Byte) :
    s.receiveAll p [high, low] = s.onPort p fun x =>
      { x with frame := some (.addressed writes (high ++ low)), out := x.out ++ [s.status p, s.status p] } := by
  have e : ((s.shiftStatus p).setFrame p (.address writes (some high))).status p = s.status p :=
    State.status_setFrame_shiftStatus s p _
  rw [State.receiveAll_cons, State.receive_of_frame h, State.receiveAll_cons, State.receiveAll_nil,
    State.receive_of_frame (f := .address writes (some high)) (by simp [State.receiveIn])]
  simp only [State.receiveIn, State.shiftStatus, State.setFrame, State.shiftOut, State.onPort_onPort] at e ⊢
  rw [e]
  simp

/-- A request's byte before its last operand is kept, and the decision is shifted out (R163, R169). -/
theorem State.receive_request {s : State} {p : PortId} {take : Bool} {bytes : List Byte}
    (h : (s.port p).frame = some (.request take bytes)) (b : Byte) :
    s.receive p b = s.onPort p fun x =>
      { x with
        frame := some (.request take (requestBytes bytes b))
        out := x.out ++ [s.statusWith p (!take)] } := by
  rw [State.receive_of_frame h]
  simp only [State.receiveIn, State.setFrame, State.shiftOut, State.onPort_onPort]

/-- Chip-select rises on a complete frame. -/
theorem State.rise_of_complete {s : State} {p : PortId} {f : OpenFrame} (h : (s.port p).frame = some f)
    (hc : f.complete = true) : s.rise p = ((s.closeFrame p).endFrame p f).completeFrame p := by
  cases f <;> simp_all [State.rise, OpenFrame.complete]

/-- Chip-select rises on a frame past its kind byte that is not complete. -/
theorem State.rise_of_short {s : State} {p : PortId} {f : OpenFrame} (h : (s.port p).frame = some f)
    (hc : f.complete = false) (hs : f ≠ .selected) :
    s.rise p = ((s.closeFrame p).endFrame p f).postTo p .frameError := by
  cases f <;> simp_all [State.rise, OpenFrame.complete]

/-! The end of a complete frame (R164, R174, R177). -/

theorem mem_post (q : List WorkSource) (x : WorkSource) : x ∈ post q x := by
  unfold post
  split
  · next h => exact List.contains_iff_mem.mp h
  · simp

theorem mem_post_of_mem {q : List WorkSource} {y : WorkSource} (x : WorkSource) (h : y ∈ q) : y ∈ post q x := by
  unfold post
  split
  · exact h
  · simp [h]

theorem post_of_mem {q : List WorkSource} {x : WorkSource} (h : x ∈ q) : post q x = q := by
  simp [post, h]

theorem post_of_not_mem {q : List WorkSource} {x : WorkSource} (h : x ∉ q) : post q x = q ++ [x] := by
  simp [post, h]

theorem post_nodup {q : List WorkSource} (x : WorkSource) (h : q.Nodup) : (post q x).Nodup := by
  unfold post
  split
  · exact h
  · next hx =>
    rw [List.nodup_append]
    refine ⟨h, List.nodup_singleton x, ?_⟩
    intro a ha b hb e
    rw [List.mem_singleton] at hb
    subst hb
    subst e
    exact hx (by simpa using ha)

@[simp] theorem State.post_port (s : State) (x : WorkSource) (p : PortId) : (s.post x).port p = s.port p := rfl

theorem State.endLapse_port_ne (s : State) {p q : PortId} (h : q ≠ p) : (s.endLapse p).port q = s.port q := by
  unfold State.endLapse
  split
  · simp [State.port_onPort_ne _ _ h]
  · rfl

theorem State.endLapse_port (s : State) (p : PortId) : (s.endLapse p).port p = { s.port p with lapse := false } := by
  unfold State.endLapse
  split
  · simp
  · next h => simp at h; rw [← h]

theorem State.completeFrame_port (s : State) (p : PortId) :
    (s.completeFrame p).port p =
      { s.port p with
        lapse := false
        timer := if s.mode = .starting then (s.port p).timer else s.freshTimer p } := by
  simp only [State.completeFrame, State.endLapse_mode]
  split
  · rw [State.endLapse_port]
  · simp [State.startTimer, State.endLapse_port, State.freshTimer]

theorem State.completeFrame_port_ne (s : State) {p q : PortId} (h : q ≠ p) :
    (s.completeFrame p).port q = s.port q := by
  simp only [State.completeFrame]
  split
  · exact s.endLapse_port_ne h
  · simp [State.startTimer, State.port_onPort_ne _ _ h, s.endLapse_port_ne h]

theorem State.completeFrame_queue (s : State) (p : PortId) :
    (s.completeFrame p).queue = if (s.port p).lapse then Machine.post s.queue (.lapse p) else s.queue := by
  simp only [State.completeFrame]
  have h : (s.endLapse p).queue = if (s.port p).lapse then Machine.post s.queue (.lapse p) else s.queue := by
    unfold State.endLapse
    split <;> rfl
  split
  · exact h
  · exact h

/-- A complete frame ends: `s` is the state before the frame, `t` the state at its end. -/
theorem State.frameEnded_of {s t : State} {p : PortId} (hm : t.mode = s.mode) (hc : t.config = s.config)
    (ho : t.owner = s.owner) (hq : t.queue = s.queue) (hf : (t.port p).frame = none)
    (hl : (t.port p).lapse = (s.port p).lapse) (ht : (t.port p).timer = (s.port p).timer)
    (hp : t.port (other p) = s.port (other p)) : s.FrameEnded (t.completeFrame p) p where
  frame := by rw [State.completeFrame_port]; exact hf
  lapse := by rw [State.completeFrame_port]
  timer := by
    rw [State.completeFrame_port]
    simp only [hm, ht, State.freshTimer, hc]
  item := by
    intro h
    rw [State.completeFrame_queue, hl, h]
    exact mem_post _ _
  queue := by
    intro h
    rw [State.completeFrame_queue, hl, h, hq]
    rfl
  owner := by rw [State.completeFrame_owner, ho]
  peer := by rw [State.completeFrame_port_ne _ (other_ne p), hp]

end Sys2Proof.Machine
end

