-- ==== Sys2Proof/Laws/Tables.lean ====
section
/-! SUPPORT. Reading the tables of the engine after each operation on them. -/

namespace Sys2Proof.Machine

/-! Lists. -/

theorem insertAfterLast_perm {α : Type} (q : α → Bool) (x : α) (l : List α) :
    (insertAfterLast q x l).Perm (x :: l) := by
  induction l with
  | nil => exact .refl _
  | cons y ys ih =>
    unfold insertAfterLast
    split
    · exact (ih.cons y).trans (.swap x y ys)
    · exact .refl _

@[simp] theorem mem_insertAfterLast {α : Type} (q : α → Bool) (x y : α) (l : List α) :
    y ∈ insertAfterLast q x l ↔ y = x ∨ y ∈ l := by
  rw [(insertAfterLast_perm q x l).mem_iff, List.mem_cons]

theorem insertAfterLast_nodup {α : Type} {q : α → Bool} {x : α} {l : List α} (h : l.Nodup) (hx : x ∉ l) :
    (insertAfterLast q x l).Nodup :=
  (insertAfterLast_perm q x l).nodup_iff.mpr (List.nodup_cons.mpr ⟨hx, h⟩)

/-- An ordered list stays ordered when `x` is inserted behind the last element that satisfies `q`, where those that
satisfy `q` may come before `x`, the others after it, and `q` passes down the order. -/
theorem insertAfterLast_pairwise {α : Type} {r : α → α → Prop} {q : α → Bool} {x : α} {l : List α}
    (hl : l.Pairwise r) (before : ∀ y ∈ l, q y = true → r y x) (behind : ∀ y ∈ l, q y = false → r x y)
    (down : ∀ y z, r y z → q z = true → q y = true) : (insertAfterLast q x l).Pairwise r := by
  induction l with
  | nil => exact List.pairwise_singleton _ _
  | cons y ys ih =>
    rw [List.pairwise_cons] at hl
    unfold insertAfterLast
    split
    · next hany =>
      rw [List.pairwise_cons]
      refine ⟨fun z hz => ?_, ih hl.2 (fun z hz => before z (List.mem_cons_of_mem _ hz))
        (fun z hz => behind z (List.mem_cons_of_mem _ hz))⟩
      rcases (mem_insertAfterLast q x z ys).mp hz with rfl | hz
      · apply before y List.mem_cons_self
        rw [List.any_cons, Bool.or_eq_true] at hany
        rcases hany with h | h
        · exact h
        · obtain ⟨z, hz, hqz⟩ := List.any_eq_true.mp h
          exact down y z (hl.1 z hz) hqz
      · exact hl.1 z hz
    · next hany =>
      rw [List.pairwise_cons]
      refine ⟨fun z hz => behind z hz ?_, List.pairwise_cons.mpr hl⟩
      by_contra hc
      exact hany (List.any_eq_true.mpr ⟨z, hz, by simpa using hc⟩)

/-! `Table.setLive` and `Table.setRecord`. -/

@[simp] theorem Table.setLive_rank (t : Table) (p : Point) (l : PointLive) : (t.setLive p l).rank = t.rank := rfl
@[simp] theorem Table.setLive_waiting (t : Table) (p : Point) (l : PointLive) :
    (t.setLive p l).waiting = t.waiting := rfl
@[simp] theorem Table.setLive_shelf (t : Table) (p : Point) (l : PointLive) : (t.setLive p l).shelf = t.shelf := rfl
@[simp] theorem Table.setLive_groups (t : Table) (p : Point) (l : PointLive) : (t.setLive p l).groups = t.groups := rfl
@[simp] theorem Table.setLive_slots (t : Table) (p : Point) (l : PointLive) : (t.setLive p l).slots = t.slots := rfl
@[simp] theorem Table.setLive_counts (t : Table) (p : Point) (l : PointLive) : (t.setLive p l).counts = t.counts := rfl
@[simp] theorem Table.setLive_entries (t : Table) (p : Point) (l : PointLive) :
    (t.setLive p l).entries = t.entries := rfl

@[simp] theorem Table.live_setLive_self (t : Table) (p : Point) (l : PointLive) : (t.setLive p l).live p = l :=
  Bank.get_set_self _ _ _

theorem Table.live_setLive_ne (t : Table) {p q : Point} (l : PointLive) (h : q ≠ p) :
    (t.setLive p l).live q = t.live q :=
  Bank.get_set_ne _ _ h

/-- A change of live fields that keeps the record link keeps every record. -/
theorem Table.recordOf_setLive (t : Table) (p q : Point) (l : PointLive) (h : l.link = (t.live p).link) :
    (t.setLive p l).recordOf q = t.recordOf q := by
  unfold Table.recordOf
  by_cases hq : q = p
  · subst hq; rw [Table.live_setLive_self, h]; rfl
  · rw [Table.live_setLive_ne _ _ hq]; rfl

theorem Table.setRecord_eq {t : Table} {p : Point} {i : Fin 96} (h : (t.live p).link = some i) (r : Record) :
    t.setRecord p r = { t with entries := t.entries.set i (some r) } := by
  unfold Table.setRecord; rw [h]

@[simp] theorem Table.setRecord_points (t : Table) (p : Point) (r : Record) :
    (t.setRecord p r).points = t.points := by
  unfold Table.setRecord; split <;> rfl
@[simp] theorem Table.setRecord_live (t : Table) (p q : Point) (r : Record) :
    (t.setRecord p r).live q = t.live q := by
  unfold Table.live; rw [Table.setRecord_points]
@[simp] theorem Table.setRecord_rank (t : Table) (p : Point) (r : Record) : (t.setRecord p r).rank = t.rank := by
  unfold Table.setRecord; split <;> rfl
@[simp] theorem Table.setRecord_waiting (t : Table) (p : Point) (r : Record) :
    (t.setRecord p r).waiting = t.waiting := by
  unfold Table.setRecord; split <;> rfl
@[simp] theorem Table.setRecord_shelf (t : Table) (p : Point) (r : Record) : (t.setRecord p r).shelf = t.shelf := by
  unfold Table.setRecord; split <;> rfl
@[simp] theorem Table.setRecord_groups (t : Table) (p : Point) (r : Record) :
    (t.setRecord p r).groups = t.groups := by
  unfold Table.setRecord; split <;> rfl

/-! Records in a linked table. -/

/-- A live record stands in the entry its point links to, and is that point's. -/
theorem Table.Linked.link_of_recordOf {t : Table} (h : t.Linked) {p : Point} {r : Record}
    (hr : t.recordOf p = some r) : ∃ i, (t.live p).link = some i ∧ t.entries.get i = some r ∧ r.point = p := by
  unfold Table.recordOf at hr
  split at hr
  · cases hr
  · next i hi =>
    refine ⟨i, hi, hr, ?_⟩
    have := h.entry p i hi
    rw [hr] at this
    simpa using this

/-- In a linked table a point has a record exactly when its link is set. -/
theorem Table.Linked.recordOf_isSome {t : Table} (h : t.Linked) (p : Point) :
    (t.recordOf p).isSome = (t.live p).link.isSome := by
  unfold Table.recordOf
  split
  · next hi => rw [hi]; rfl
  · next i hi =>
    have := h.entry p i hi
    rw [hi]
    cases hr : t.entries.get i with
    | none => rw [hr] at this; cases this
    | some r => rfl

theorem Table.Linked.recordOf_none {t : Table} (h : t.Linked) {p : Point} :
    t.recordOf p = none ↔ (t.live p).link = none := by
  rw [← Option.isNone_iff_eq_none, ← Option.isNone_iff_eq_none, ← Option.not_isSome, ← Option.not_isSome,
    h.recordOf_isSome]

theorem Table.Linked.mem_rank {t : Table} (h : t.Linked) {p : Point} :
    p ∈ t.rank ↔ ∃ r, t.recordOf p = some r := by
  rw [h.ranked, ← Option.isSome_iff_exists, h.recordOf_isSome, ← Option.ne_none_iff_isSome]

/-- Two points of a linked table never share an entry. -/
theorem Table.Linked.link_inj {t : Table} (h : t.Linked) {p q : Point} {i : Fin 96}
    (hp : (t.live p).link = some i) (hq : (t.live q).link = some i) : p = q := by
  have h1 := h.entry p i hp
  have h2 := h.entry q i hq
  rw [h1] at h2
  exact Option.some.inj h2

/-- The record of `p` after it is replaced. -/
theorem Table.recordOf_setRecord_self {t : Table} {p : Point} (r : Record) (h : (t.live p).link ≠ none) :
    (t.setRecord p r).recordOf p = some r := by
  obtain ⟨i, hi⟩ := Option.ne_none_iff_exists'.mp h
  rw [Table.setRecord_eq hi]
  unfold Table.recordOf
  change (match (t.live p).link with | none => none | some j => (t.entries.set i (some r)).get j) = _
  rw [hi]; exact Bank.get_set_self _ _ _

/-- Every other record stays. -/
theorem Table.Linked.recordOf_setRecord_ne {t : Table} (h : t.Linked) {p q : Point} (r : Record) (hq : q ≠ p) :
    (t.setRecord p r).recordOf q = t.recordOf q := by
  cases hi : (t.live p).link with
  | none => unfold Table.setRecord; rw [hi]
  | some i =>
    rw [Table.setRecord_eq hi]
    unfold Table.recordOf
    change (match (t.live q).link with | none => none | some j => (t.entries.set i (some r)).get j) = _
    cases hj : (t.live q).link with
    | none => rfl
    | some j =>
      apply Bank.get_set_ne
      intro e
      subst e
      exact hq (h.link_inj hj hi)

/-- A linked table stays linked when a record is replaced by one of the same point. -/
theorem Table.Linked.setRecord {t : Table} (h : t.Linked) {p : Point} {r : Record} (hr : r.point = p) :
    (t.setRecord p r).Linked := by
  cases hi : (t.live p).link with
  | none => unfold Table.setRecord; rw [hi]; exact h
  | some i =>
    refine ⟨by simpa using h.rankOnce, fun q => by simpa using h.ranked q, ?_, ?_, by simpa using h.waitingOnce,
      fun q => by simpa using h.waits q, fun q => by simpa using h.waitingPoint q,
      fun q => by simpa using h.inhibitedPoint q⟩
    · intro q j hj
      rw [Table.setRecord_live] at hj
      rw [Table.setRecord_eq hi]
      change ((t.entries.set i (some r)).get j).map _ = _
      by_cases hji : j = i
      · subst hji
        rw [Bank.get_set_self, h.link_inj hj hi, Option.map_some, hr]
      · rw [Bank.get_set_ne _ _ hji]; exact h.entry q j hj
    · intro j x hx
      rw [Table.setRecord_live]
      rw [Table.setRecord_eq hi] at hx
      change x ∈ (t.entries.set i (some r)).get j at hx
      by_cases hji : j = i
      · subst hji
        rw [Bank.get_set_self, Option.mem_some] at hx
        rw [← hx, hr, hi]
      · rw [Bank.get_set_ne _ _ hji] at hx; exact h.link j x hx

/-- A linked table stays linked when a point's condition or revision changes. -/
theorem Table.Linked.setLive {t : Table} (h : t.Linked) {p : Point} {l : PointLive} (h1 : l.link = (t.live p).link)
    (h2 : l.waiting = (t.live p).waiting) (h3 : l.inhibited = (t.live p).inhibited) : (t.setLive p l).Linked := by
  have key : ∀ q, ((t.setLive p l).live q).link = (t.live q).link
      ∧ ((t.setLive p l).live q).waiting = (t.live q).waiting
      ∧ ((t.setLive p l).live q).inhibited = (t.live q).inhibited := by
    intro q
    by_cases hq : q = p
    · subst hq; rw [Table.live_setLive_self]; exact ⟨h1, h2, h3⟩
    · rw [Table.live_setLive_ne _ _ hq]; exact ⟨rfl, rfl, rfl⟩
  refine ⟨h.rankOnce, fun q => ?_, fun q i hi => ?_, fun i r hr => ?_, h.waitingOnce, fun q => ?_, fun q => ?_,
    fun q => ?_⟩
  · rw [(key q).1]; exact h.ranked q
  · rw [(key q).1] at hi; exact h.entry q i hi
  · rw [(key r.point).1]; exact h.link i r hr
  · rw [(key q).2.1]; exact h.waits q
  · rw [(key q).1, (key q).2.1, (key q).2.2]; exact h.waitingPoint q
  · rw [(key q).1, (key q).2.2]; exact h.inhibitedPoint q

/-! Creation (R25). -/

theorem Table.freeEntry_get {t : Table} {i : Fin 96} (h : t.freeEntry = some i) : t.entries.get i = none := by
  have := Bank.get_of_find? h
  simpa using this

@[simp] theorem Table.onGroup_points (t : Table) (cfg : ConfigMem) (p : Point) (f : FirstOutGroup → FirstOutGroup) :
    (t.onGroup cfg p f).points = t.points := by
  unfold Table.onGroup; split <;> rfl
@[simp] theorem Table.onGroup_live (t : Table) (cfg : ConfigMem) (p q : Point) (f : FirstOutGroup → FirstOutGroup) :
    (t.onGroup cfg p f).live q = t.live q := by
  unfold Table.live; rw [Table.onGroup_points]
@[simp] theorem Table.onGroup_entries (t : Table) (cfg : ConfigMem) (p : Point) (f : FirstOutGroup → FirstOutGroup) :
    (t.onGroup cfg p f).entries = t.entries := by
  unfold Table.onGroup; split <;> rfl
@[simp] theorem Table.onGroup_rank (t : Table) (cfg : ConfigMem) (p : Point) (f : FirstOutGroup → FirstOutGroup) :
    (t.onGroup cfg p f).rank = t.rank := by
  unfold Table.onGroup; split <;> rfl
@[simp] theorem Table.onGroup_waiting (t : Table) (cfg : ConfigMem) (p : Point) (f : FirstOutGroup → FirstOutGroup) :
    (t.onGroup cfg p f).waiting = t.waiting := by
  unfold Table.onGroup; split <;> rfl
@[simp] theorem Table.onGroup_shelf (t : Table) (cfg : ConfigMem) (p : Point) (f : FirstOutGroup → FirstOutGroup) :
    (t.onGroup cfg p f).shelf = t.shelf := by
  unfold Table.onGroup; split <;> rfl
@[simp] theorem Table.onGroup_recordOf (t : Table) (cfg : ConfigMem) (p q : Point)
    (f : FirstOutGroup → FirstOutGroup) : (t.onGroup cfg p f).recordOf q = t.recordOf q := by
  unfold Table.recordOf; rw [Table.onGroup_live, Table.onGroup_entries]

@[simp] theorem Table.create_rank (t : Table) (c : Ctx) (p : Point) (st : RecState) (i : Fin 96) :
    (t.create c p st i).rank = rankInsert c.cfg p t.rank := by simp [Table.create]
@[simp] theorem Table.create_waiting (t : Table) (c : Ctx) (p : Point) (st : RecState) (i : Fin 96) :
    (t.create c p st i).waiting = t.waiting := by simp [Table.create]
@[simp] theorem Table.create_shelf (t : Table) (c : Ctx) (p : Point) (st : RecState) (i : Fin 96) :
    (t.create c p st i).shelf = t.shelf := by simp [Table.create]
@[simp] theorem Table.create_entries (t : Table) (c : Ctx) (p : Point) (st : RecState) (i : Fin 96) :
    (t.create c p st i).entries = t.entries.set i (some (newRecord c p st (t.takesMark c.cfg p))) := by
  simp [Table.create]
@[simp] theorem Table.create_live_self (t : Table) (c : Ctx) (p : Point) (st : RecState) (i : Fin 96) :
    (t.create c p st i).live p = { t.live p with link := some i } := by
  unfold Table.create
  rw [Table.onGroup_live]
  exact Table.live_setLive_self _ _ _
theorem Table.create_live_ne (t : Table) (c : Ctx) {p q : Point} (st : RecState) (i : Fin 96) (h : q ≠ p) :
    (t.create c p st i).live q = t.live q := by
  unfold Table.create
  rw [Table.onGroup_live]
  exact Table.live_setLive_ne { t with entries := _ } _ h

/-- The record created. -/
theorem Table.create_recordOf_self (t : Table) (c : Ctx) (p : Point) (st : RecState) (i : Fin 96) :
    (t.create c p st i).recordOf p = some (newRecord c p st (t.takesMark c.cfg p)) := by
  unfold Table.recordOf
  rw [Table.create_live_self, Table.create_entries]
  exact Bank.get_set_self _ _ _

/-- Every other record stays, where the entry was free. -/
theorem Table.Linked.create_recordOf_ne {t : Table} (h : t.Linked) (c : Ctx) {p q : Point} (st : RecState)
    {i : Fin 96} (hi : t.entries.get i = none) (hq : q ≠ p) : (t.create c p st i).recordOf q = t.recordOf q := by
  unfold Table.recordOf
  rw [Table.create_live_ne _ _ _ _ hq, Table.create_entries]
  split
  · rfl
  · next j hj =>
    apply Bank.get_set_ne
    intro e
    subst e
    have := h.entry q j hj
    rw [hi] at this
    cases this

theorem mem_rankInsert (cfg : ConfigMem) (p q : Point) (l : List Point) : q ∈ rankInsert cfg p l ↔ q = p ∨ q ∈ l :=
  mem_insertAfterLast _ _ _ _

/-- Creation in a free entry, for a point with no record that is neither waiting nor inhibited, keeps a table
linked. -/
theorem Table.Linked.create {t : Table} (h : t.Linked) (c : Ctx) {p : Point} (st : RecState) {i : Fin 96}
    (hi : t.entries.get i = none) (hl : (t.live p).link = none) (hw : (t.live p).waiting = false)
    (hn : (t.live p).inhibited = false) : (t.create c p st i).Linked := by
  have hp : p ∉ t.rank := fun hm => (h.ranked p).mp hm hl
  refine ⟨?_, fun q => ?_, fun q j hj => ?_, fun j r hr => ?_, ?_, fun q => ?_, fun q hq => ?_, fun q hq => ?_⟩
  · rw [Table.create_rank]; exact insertAfterLast_nodup h.rankOnce hp
  · rw [Table.create_rank, mem_rankInsert]
    by_cases hq : q = p
    · subst hq; simp
    · rw [Table.create_live_ne _ _ _ _ hq, ← h.ranked]; simp [hq]
  · rw [Table.create_entries]
    by_cases hq : q = p
    · subst hq
      rw [Table.create_live_self] at hj
      obtain rfl := Option.some.inj hj
      rw [Bank.get_set_self]; rfl
    · rw [Table.create_live_ne _ _ _ _ hq] at hj
      have := h.entry q j hj
      rw [Bank.get_set_ne]
      · exact this
      · rintro rfl
        rw [hi] at this
        cases this
  · rw [Table.create_entries] at hr
    by_cases hji : j = i
    · subst hji
      rw [Bank.get_set_self, Option.mem_some] at hr
      subst hr
      change ((t.create c p st j).live p).link = _
      rw [Table.create_live_self]
    · rw [Bank.get_set_ne _ _ hji] at hr
      have hl' := h.link j r hr
      rw [Table.create_live_ne]
      · exact hl'
      · intro e
        rw [e, hl] at hl'
        cases hl'
  · rw [Table.create_waiting]; exact h.waitingOnce
  · rw [Table.create_waiting, h.waits]
    by_cases hq : q = p
    · subst hq; rw [Table.create_live_self]
    · rw [Table.create_live_ne _ _ _ _ hq]
  · by_cases hqp : q = p
    · subst hqp
      rw [Table.create_live_self] at hq
      rw [hw] at hq
      cases hq
    · rw [Table.create_live_ne _ _ _ _ hqp] at hq ⊢
      exact h.waitingPoint q hq
  · by_cases hqp : q = p
    · subst hqp
      rw [Table.create_live_self] at hq
      rw [hn] at hq
      cases hq
    · rw [Table.create_live_ne _ _ _ _ hqp] at hq ⊢
      exact h.inhibitedPoint q hq

/-- Creation keeps the Rank List ordered by class (R45, R46). -/
theorem Table.RankedByClass.create {t : Table} {c : Ctx} (h : t.RankedByClass c.cfg) (p : Point) (st : RecState)
    (i : Fin 96) : (t.create c p st i).RankedByClass c.cfg := by
  unfold Table.RankedByClass
  rw [Table.create_rank]
  refine insertAfterLast_pairwise h ?_ ?_ ?_
  · intro y _ hy; exact of_decide_eq_true hy
  · intro y _ hy; exact le_of_lt (not_le.mp (of_decide_eq_false hy))
  · intro y z hr hz
    exact decide_eq_true (le_trans (of_decide_eq_true hz) hr)

/-- A created user record is one more of them, and a system record is none (R49). -/
theorem Table.create_liveUsers (t : Table) (c : Ctx) (p : Point) (st : RecState) (i : Fin 96) :
    (t.create c p st i).liveUsers = t.liveUsers + if isSystem p then 0 else 1 := by
  unfold Table.liveUsers
  rw [Table.create_rank, rankInsert, ((insertAfterLast_perm _ p t.rank).filter _).length_eq, List.filter_cons]
  cases isSystem p <;> simp

/-! Retirement (R39). -/

@[simp] theorem Table.retire_rank (t : Table) (cfg : ConfigMem) (p : Point) (i : Fin 96) :
    (t.retire cfg p i).rank = t.rank.erase p := by simp [Table.retire]
@[simp] theorem Table.retire_waiting (t : Table) (cfg : ConfigMem) (p : Point) (i : Fin 96) :
    (t.retire cfg p i).waiting = t.waiting := by simp [Table.retire]
@[simp] theorem Table.retire_shelf (t : Table) (cfg : ConfigMem) (p : Point) (i : Fin 96) :
    (t.retire cfg p i).shelf = shelfWithout p t.shelf := by simp [Table.retire, shelfWithout]
@[simp] theorem Table.retire_entries (t : Table) (cfg : ConfigMem) (p : Point) (i : Fin 96) :
    (t.retire cfg p i).entries = t.entries.set i none := by simp [Table.retire]

@[simp] theorem Table.retire_live_self (t : Table) (cfg : ConfigMem) (p : Point) (i : Fin 96) :
    (t.retire cfg p i).live p = { t.live p with link := none } := by
  unfold Table.retire
  refine (Table.live_setLive_self _ _ _).trans ?_
  have : ∀ u : Table, ({ u with entries := u.entries.set i none } : Table).live p = u.live p := fun _ => rfl
  rw [this, Table.onGroup_live]; rfl
theorem Table.retire_live_ne (t : Table) (cfg : ConfigMem) {p q : Point} (i : Fin 96) (h : q ≠ p) :
    (t.retire cfg p i).live q = t.live q := by
  unfold Table.retire
  refine (Table.live_setLive_ne _ _ h).trans ?_
  have : ∀ u : Table, ({ u with entries := u.entries.set i none } : Table).live q = u.live q := fun _ => rfl
  rw [this, Table.onGroup_live]; rfl

@[simp] theorem Table.retire_recordOf_self (t : Table) (cfg : ConfigMem) (p : Point) (i : Fin 96) :
    (t.retire cfg p i).recordOf p = none := by
  unfold Table.recordOf; rw [Table.retire_live_self]

theorem Table.Linked.retire_recordOf_ne {t : Table} (h : t.Linked) (cfg : ConfigMem) {p q : Point} {i : Fin 96}
    (hi : (t.live p).link = some i) (hq : q ≠ p) : (t.retire cfg p i).recordOf q = t.recordOf q := by
  unfold Table.recordOf
  rw [Table.retire_live_ne _ _ _ hq, Table.retire_entries]
  split
  · rfl
  · next j hj =>
    apply Bank.get_set_ne
    rintro rfl
    exact hq (h.link_inj hj hi)

/-- Retirement keeps a table linked. -/
theorem Table.Linked.retire {t : Table} (h : t.Linked) (cfg : ConfigMem) {p : Point} {i : Fin 96}
    (hi : (t.live p).link = some i) : (t.retire cfg p i).Linked := by
  refine ⟨?_, fun q => ?_, fun q j hj => ?_, fun j r hr => ?_, ?_, fun q => ?_, fun q hq => ?_, fun q hq => ?_⟩
  · rw [Table.retire_rank]; exact h.rankOnce.erase p
  · rw [Table.retire_rank, h.rankOnce.mem_erase_iff]
    by_cases hq : q = p
    · subst hq; simp
    · rw [Table.retire_live_ne _ _ _ hq, ← h.ranked]; simp [hq]
  · rw [Table.retire_entries]
    by_cases hq : q = p
    · subst hq; rw [Table.retire_live_self] at hj; cases hj
    · rw [Table.retire_live_ne _ _ _ hq] at hj
      rw [Bank.get_set_ne]
      · exact h.entry q j hj
      · rintro rfl
        exact hq (h.link_inj hj hi)
  · rw [Table.retire_entries] at hr
    by_cases hji : j = i
    · subst hji; rw [Bank.get_set_self] at hr; cases hr
    · rw [Bank.get_set_ne _ _ hji] at hr
      have hl := h.link j r hr
      rw [Table.retire_live_ne]
      · exact hl
      · intro e
        rw [e, hi] at hl
        exact hji (Option.some.inj hl).symm
  · rw [Table.retire_waiting]; exact h.waitingOnce
  · rw [Table.retire_waiting, h.waits]
    by_cases hq : q = p
    · subst hq; rw [Table.retire_live_self]
    · rw [Table.retire_live_ne _ _ _ hq]
  · by_cases hqp : q = p
    · subst hqp
      rw [Table.retire_live_self] at hq ⊢
      exact ⟨(h.waitingPoint _ hq).1, rfl, (h.waitingPoint _ hq).2.2⟩
    · rw [Table.retire_live_ne _ _ _ hqp] at hq ⊢
      exact h.waitingPoint q hq
  · by_cases hqp : q = p
    · subst hqp
      rw [Table.retire_live_self] at hq ⊢
      exact ⟨(h.inhibitedPoint _ hq).1, rfl⟩
    · rw [Table.retire_live_ne _ _ _ hqp] at hq ⊢
      exact h.inhibitedPoint q hq

/-- Retirement keeps the Rank List ordered by class. -/
theorem Table.RankedByClass.retire {t : Table} {cfg : ConfigMem} (h : t.RankedByClass cfg) (p : Point) (i : Fin 96) :
    (t.retire cfg p i).RankedByClass cfg := by
  unfold Table.RankedByClass
  rw [Table.retire_rank]
  exact List.Pairwise.sublist List.erase_sublist h

/-- A retired user record is one less of them. -/
theorem Table.retire_liveUsers (t : Table) (cfg : ConfigMem) {p : Point} (i : Fin 96) (hp : p ∈ t.rank) :
    (t.retire cfg p i).liveUsers + (if isSystem p then 0 else 1) = t.liveUsers := by
  unfold Table.liveUsers
  rw [Table.retire_rank, ((List.perm_cons_erase hp).filter _).length_eq, List.filter_cons]
  cases isSystem p <;> simp

end Sys2Proof.Machine
end

