-- ==== Sys2Proof/Laws/Lifecycle.lean ====
section
/-! SUPPORT. What every lifecycle event keeps: the tables linked, the Rank List in order, each point touched once. -/

namespace Sys2Proof.Machine

/-! Touched points (R12). -/

@[simp] theorem Svc.touch_tab (w : Svc) (p : Point) : (w.touch p).tab = w.tab := by
  unfold Svc.touch; split <;> rfl
@[simp] theorem Svc.changed_tab (w : Svc) (p : Point) : (w.changed p).tab = w.tab := Svc.touch_tab w p
@[simp] theorem Svc.alertIf_tab (w : Svc) (b : Bool) : (w.alertIf b).tab = w.tab := rfl
@[simp] theorem Svc.onTable_tab (w : Svc) (f : Table → Table) : (w.onTable f).tab = f w.tab := rfl
@[simp] theorem Svc.onTable_touched (w : Svc) (f : Table → Table) : (w.onTable f).touched = w.touched := rfl
@[simp] theorem Svc.alertIf_touched (w : Svc) (b : Bool) : (w.alertIf b).touched = w.touched := rfl
@[simp] theorem Svc.changed_touched (w : Svc) (p : Point) : (w.changed p).touched = (w.touch p).touched := rfl

@[simp] theorem Svc.mem_touch (w : Svc) (p q : Point) : q ∈ (w.touch p).touched ↔ q = p ∨ q ∈ w.touched := by
  unfold Svc.touch
  split
  · next h =>
    rw [List.contains_iff_mem] at h
    constructor
    · exact .inr
    · rintro (rfl | h')
      · exact h
      · exact h'
  · exact List.mem_cons

theorem Svc.touch_nodup {w : Svc} (h : w.touched.Nodup) (p : Point) : (w.touch p).touched.Nodup := by
  unfold Svc.touch
  split
  · exact h
  · next hc =>
    rw [List.contains_iff_mem] at hc
    exact List.nodup_cons.mpr ⟨hc, h⟩

/-- What every service keeps of its tables. -/
structure Svc.Kept (w : Svc) (cfg : ConfigMem) : Prop where
  linked : w.tab.Linked
  ranked : w.tab.RankedByClass cfg
  once : w.touched.Nodup

theorem Svc.Kept.start {t : Table} {cfg : ConfigMem} (h : t.Linked) (hr : t.RankedByClass cfg) :
    (Svc.start t).Kept cfg := ⟨h, hr, List.nodup_nil⟩

/-- A change of tables that keeps them linked and ranked. -/
theorem Svc.Kept.onTable {w : Svc} {cfg : ConfigMem} (h : w.Kept cfg) {f : Table → Table} (h1 : (f w.tab).Linked)
    (h2 : (f w.tab).rank = w.tab.rank) : (w.onTable f).Kept cfg :=
  ⟨h1, by unfold Table.RankedByClass; rw [Svc.onTable_tab, h2]; exact h.ranked, h.once⟩

theorem Svc.Kept.touch {w : Svc} {cfg : ConfigMem} (h : w.Kept cfg) (p : Point) : (w.touch p).Kept cfg :=
  ⟨by rw [Svc.touch_tab]; exact h.linked, by rw [Svc.touch_tab]; exact h.ranked, Svc.touch_nodup h.once p⟩

theorem Svc.Kept.changed {w : Svc} {cfg : ConfigMem} (h : w.Kept cfg) (p : Point) : (w.changed p).Kept cfg :=
  ⟨by rw [Svc.changed_tab]; exact h.linked, by rw [Svc.changed_tab]; exact h.ranked, Svc.touch_nodup h.once p⟩

theorem Svc.Kept.alertIf {w : Svc} {cfg : ConfigMem} (h : w.Kept cfg) (b : Bool) : (w.alertIf b).Kept cfg :=
  ⟨h.linked, h.ranked, h.once⟩

/-! Live fields. -/

theorem Svc.Kept.setCondition {w : Svc} {cfg : ConfigMem} (h : w.Kept cfg) (p : Point) (v : Bool) :
    (w.setCondition p v).Kept cfg := by
  unfold Svc.setCondition
  split
  · exact h
  · exact (h.onTable (f := fun t => t.setLive p { t.live p with condition := v })
      (h.linked.setLive rfl rfl rfl) rfl).touch p

theorem Svc.setCondition_recordOf (w : Svc) (p q : Point) (v : Bool) :
    (w.setCondition p v).tab.recordOf q = w.tab.recordOf q := by
  unfold Svc.setCondition
  split
  · rfl
  · rw [Svc.touch_tab]; exact Table.recordOf_setLive _ _ _ _ rfl

theorem Svc.setCondition_live (w : Svc) (p q : Point) (v : Bool) :
    (w.setCondition p v).tab.live q =
      if q = p then { w.tab.live q with condition := v } else w.tab.live q := by
  unfold Svc.setCondition
  split
  · next h =>
    split
    · next hq => subst hq; rw [← h]
    · rfl
  · rw [Svc.touch_tab]
    split
    · next hq => subst hq; exact Table.live_setLive_self _ _ _
    · next hq => exact Table.live_setLive_ne _ _ hq

@[simp] theorem Svc.setCondition_waiting (w : Svc) (p : Point) (v : Bool) :
    (w.setCondition p v).tab.waiting = w.tab.waiting := by
  unfold Svc.setCondition; split <;> simp
@[simp] theorem Svc.setCondition_rank (w : Svc) (p : Point) (v : Bool) :
    (w.setCondition p v).tab.rank = w.tab.rank := by
  unfold Svc.setCondition; split <;> simp

theorem Svc.Kept.changeRecord {w : Svc} {cfg : ConfigMem} (h : w.Kept cfg) {p : Point} {r : Record}
    (hr : r.point = p) : (w.changeRecord p r).Kept cfg := by
  unfold Svc.changeRecord
  split
  · exact h
  · exact (h.onTable (f := fun t => t.setRecord p r) (h.linked.setRecord hr) (by simp)).changed p

/-! Creation and retirement. -/

theorem Svc.Kept.create {w : Svc} {c : Ctx} (h : w.Kept c.cfg) {p : Point} (st : RecState)
    (hl : (w.tab.live p).link = none) (hw : (w.tab.live p).waiting = false)
    (hn : (w.tab.live p).inhibited = false) : (w.create c p st).Kept c.cfg := by
  unfold Svc.create
  split
  · exact h
  · next i hi =>
    have h' : (w.onTable fun t => t.create c p st i).Kept c.cfg :=
      ⟨h.linked.create c st (Table.freeEntry_get hi) hl hw hn, h.ranked.create p st i, h.once⟩
    exact (h'.changed p).alertIf _

theorem Svc.Kept.retireOnly {w : Svc} {c : Ctx} (h : w.Kept c.cfg) (p : Point) : (w.retireOnly c p).Kept c.cfg := by
  unfold Svc.retireOnly
  split
  · exact h
  · next i hi =>
    have h' : (w.onTable fun t => t.retire c.cfg p i).Kept c.cfg :=
      ⟨h.linked.retire c.cfg hi, h.ranked.retire p i, h.once⟩
    exact h'.changed p

/-! What an event leaves of a record is a record of the same point. -/

@[simp] theorem Record.soundIf_point (r : Record) (d : PointDef) : (r.soundIf d).point = r.point := by
  unfold Record.soundIf; split <;> rfl
@[simp] theorem Record.soundIf_shelf (r : Record) (d : PointDef) : (r.soundIf d).shelf = r.shelf := by
  unfold Record.soundIf; split <;> rfl
@[simp] theorem Record.soundIf_state (r : Record) (d : PointDef) : (r.soundIf d).state = r.state := by
  unfold Record.soundIf; split <;> rfl
@[simp] theorem Record.realert_point (r : Record) (d : PointDef) (now : Word) : (r.realert d now).point = r.point := by
  simp [Record.realert]
@[simp] theorem Record.realert_shelf (r : Record) (d : PointDef) (now : Word) : (r.realert d now).shelf = r.shelf := by
  simp [Record.realert]
@[simp] theorem Record.realert_state (r : Record) (d : PointDef) (now : Word) : (r.realert d now).state = .new := by
  simp [Record.realert]

theorem Record.afterReturn_point {r x : Record} {d : PointDef} {now : Word} (h : r.afterReturn d now = some x) :
    x.point = r.point := by
  unfold Record.afterReturn at h
  split at h
  · cases h; rfl
  · split at h
    · cases h; rfl
    · split at h
      · cases h; simp
      · cases h
  · cases h; rfl
  · cases h; rfl
  · cases h; rfl

theorem Record.afterAck_point {r x : Record} {d : PointDef} {now : Word} {src : AckSource}
    (h : r.afterAck d now src = some x) : x.point = r.point := by
  unfold Record.afterAck at h
  split at h
  · cases h; rfl
  · split at h
    · cases h; rfl
    · cases h
  · cases h
  · cases h; rfl
  · cases h; rfl

/-! System points. -/

/-- A system point is neither waiting nor inhibited in a linked table (R8, R10). -/
theorem Table.Linked.system {t : Table} (h : t.Linked) {p : Point} (hp : isSystem p = true) :
    (t.live p).waiting = false ∧ (t.live p).inhibited = false := by
  constructor
  · by_contra hc
    have := (h.waitingPoint p (by simpa using hc)).1
    rw [hp] at this; cases this
  · by_contra hc
    have := (h.inhibitedPoint p (by simpa using hc)).1
    rw [hp] at this; cases this

theorem Svc.Kept.assertRecord {w : Svc} {c : Ctx} (h : w.Kept c.cfg) {p : Point} {r : Record} (hr : r.point = p) :
    (w.assertRecord c p r).Kept c.cfg := by
  unfold Svc.assertRecord
  have h' := (h.changeRecord (p := p) (r := r.realert (c.cfg.point p) c.now) (by simp [hr])).alertIf true
  split
  · exact h
  · exact h
  · exact h'
  · exact h'
  · exact h'

theorem Svc.Kept.assertSystem {w : Svc} {c : Ctx} (h : w.Kept c.cfg) {p : Point} (hp : isSystem p = true) :
    (w.assertSystem c p).Kept c.cfg := by
  unfold Svc.assertSystem
  split
  · exact h
  · have h1 := h.setCondition p true
    simp only
    split
    · next r hr =>
      obtain ⟨-, -, -, e⟩ := h1.linked.link_of_recordOf hr
      exact h1.assertRecord e
    · next hr =>
      exact h1.create .new (h1.linked.recordOf_none.mp hr) (h1.linked.system hp).1 (h1.linked.system hp).2

theorem Svc.Kept.returnSystem {w : Svc} {c : Ctx} (h : w.Kept c.cfg) (p : Point) :
    (w.returnSystem c p).Kept c.cfg := by
  unfold Svc.returnSystem
  split
  · have h1 := h.setCondition p false
    simp only
    split
    · next r hr =>
      obtain ⟨-, -, -, e⟩ := h1.linked.link_of_recordOf hr
      cases hx : r.afterReturn (c.cfg.point p) c.now with
      | none => exact h1.retireOnly p
      | some x => exact h1.changeRecord ((Record.afterReturn_point hx).trans e)
    · exact h1
  · exact h

/-! The Waiting Queue. -/

/-- A user point with no record, neither waiting nor inhibited, joins the tail. -/
theorem Table.Linked.joined {t : Table} (h : t.Linked) {p : Point} (hu : isSystem p = false)
    (hl : (t.live p).link = none) (hw : (t.live p).waiting = false) (hn : (t.live p).inhibited = false) :
    ({ t.setLive p { t.live p with waiting := true } with waiting := t.waiting ++ [p] } : Table).Linked := by
  have hp : p ∉ t.waiting := fun hm => by rw [(h.waits p).mp hm] at hw; cases hw
  have live : ∀ q, ({ t.setLive p { t.live p with waiting := true } with waiting := t.waiting ++ [p] } : Table).live q =
      if q = p then { t.live p with waiting := true } else t.live q := by
    intro q
    split
    · next hq => subst hq; exact Table.live_setLive_self _ _ _
    · next hq => exact Table.live_setLive_ne _ _ hq
  refine ⟨h.rankOnce, fun q => ?_, fun q i hi => ?_, fun i r hr => ?_, ?_, fun q => ?_, fun q hq => ?_, fun q hq => ?_⟩
  · rw [live]
    split
    · next hq => subst hq; exact h.ranked q
    · exact h.ranked q
  · rw [live] at hi
    split at hi
    · next hq => subst hq; exact h.entry q i hi
    · exact h.entry q i hi
  · rw [live]
    have := h.link i r hr
    split
    · next hq => rw [hq, hl] at this; cases this
    · exact this
  · exact List.nodup_append.mpr ⟨h.waitingOnce, List.nodup_singleton p, by
      intro a ha b hb; rw [List.mem_singleton] at hb; subst hb; rintro rfl; exact hp ha⟩
  · rw [live, List.mem_append, List.mem_singleton, h.waits]
    split
    · next hq => simp [hq]
    · next hq => simp [hq]
  · rw [live] at hq ⊢
    split
    · next e => subst e; exact ⟨hu, hl, hn⟩
    · next e => rw [if_neg e] at hq; exact h.waitingPoint q hq
  · rw [live] at hq ⊢
    split
    · next e => subst e; rw [if_pos rfl] at hq; rw [hn] at hq; cases hq
    · next e => rw [if_neg e] at hq; exact h.inhibitedPoint q hq

/-- A point leaves the queue. -/
theorem Table.Linked.left {t : Table} (h : t.Linked) {p : Point} {l : PointLive} (h1 : l.link = (t.live p).link)
    (h2 : l.waiting = false) (h3 : l.inhibited = true → isSystem p = false ∧ (t.live p).link = none) :
    ({ t.setLive p l with waiting := t.waiting.erase p } : Table).Linked := by
  have live : ∀ q, ({ t.setLive p l with waiting := t.waiting.erase p } : Table).live q =
      if q = p then l else t.live q := by
    intro q
    split
    · next hq => subst hq; exact Table.live_setLive_self _ _ _
    · next hq => exact Table.live_setLive_ne _ _ hq
  refine ⟨h.rankOnce, fun q => ?_, fun q i hi => ?_, fun i r hr => ?_, h.waitingOnce.erase p, fun q => ?_,
    fun q hq => ?_, fun q hq => ?_⟩
  · rw [live]
    split
    · next hq => subst hq; rw [h1]; exact h.ranked q
    · exact h.ranked q
  · rw [live] at hi
    split at hi
    · next hq => subst hq; rw [h1] at hi; exact h.entry q i hi
    · exact h.entry q i hi
  · rw [live]
    have := h.link i r hr
    split
    · next hq => rw [h1, ← hq]; exact this
    · exact this
  · rw [live]
    change q ∈ t.waiting.erase p ↔ _
    rw [h.waitingOnce.mem_erase_iff, h.waits]
    split
    · next hq => simp [hq, h2]
    · next hq => simp [hq]
  · rw [live] at hq ⊢
    split
    · next e => rw [if_pos e, h2] at hq; cases hq
    · next e => rw [if_neg e] at hq; exact h.waitingPoint q hq
  · rw [live] at hq ⊢
    split
    · next e =>
      subst e
      rw [if_pos rfl] at hq
      rw [h1]
      exact h3 hq
    · next e => rw [if_neg e] at hq; exact h.inhibitedPoint q hq

theorem Svc.Kept.join {w : Svc} {c : Ctx} (h : w.Kept c.cfg) {p : Point} (hu : isSystem p = false)
    (hl : (w.tab.live p).link = none) (hw : (w.tab.live p).waiting = false) (hn : (w.tab.live p).inhibited = false) :
    (w.join c p).Kept c.cfg := by
  have h1 : ((w.onTable fun t =>
      { t.setLive p { t.live p with waiting := true } with waiting := t.waiting ++ [p] }).changed p).Kept c.cfg :=
    Svc.Kept.changed (h.onTable (h.linked.joined hu hl hw hn) rfl) p
  unfold Svc.join
  simp only
  split
  · have h2 := h1.assertSystem (p := tableFullPoint) (by decide)
    exact ⟨h2.linked, h2.ranked, h2.once⟩
  · exact h1

theorem Svc.Kept.queueLeft {w : Svc} {c : Ctx} (h : w.Kept c.cfg) : (w.queueLeft c).Kept c.cfg := by
  unfold Svc.queueLeft
  split
  · exact h.returnSystem _
  · exact h

theorem Svc.Kept.leave {w : Svc} {c : Ctx} (h : w.Kept c.cfg) {p : Point}
    (hn : (w.tab.live p).inhibited = true → isSystem p = false ∧ (w.tab.live p).link = none) :
    (w.leave c p).Kept c.cfg := by
  unfold Svc.leave
  refine Svc.Kept.queueLeft (Svc.Kept.changed (h.onTable ?_ rfl) p)
  exact h.linked.left rfl rfl hn

theorem Svc.Kept.admitHead {w : Svc} {c : Ctx} (h : w.Kept c.cfg) : (w.admitHead c).Kept c.cfg := by
  unfold Svc.admitHead
  split
  · exact h
  · next p rest hw =>
    split
    · have hm : (w.tab.live p).waiting = true := (h.linked.waits p).mp (hw ▸ List.mem_cons_self)
      obtain ⟨-, hl, hn⟩ := h.linked.waitingPoint p hm
      have hL : ({ w.tab.setLive p { w.tab.live p with waiting := false } with waiting := rest } : Table).Linked := by
        have := h.linked.left (p := p) (l := { w.tab.live p with waiting := false }) rfl rfl
          (by intro e; rw [hn] at e; cases e)
        rw [hw, List.erase_cons_head] at this
        exact this
      have h1 : ((w.onTable fun t =>
          { t.setLive p { t.live p with waiting := false } with waiting := rest }).changed p).Kept c.cfg :=
        Svc.Kept.changed (h.onTable hL rfl) p
      have live : (({ w.tab.setLive p { w.tab.live p with waiting := false } with waiting := rest } : Table)).live p =
          { w.tab.live p with waiting := false } := Table.live_setLive_self _ _ _
      refine Svc.Kept.queueLeft (h1.create _ ?_ ?_ ?_)
      · rw [Svc.changed_tab]; exact (congrArg PointLive.link live).trans hl
      · rw [Svc.changed_tab]; exact congrArg PointLive.waiting live
      · rw [Svc.changed_tab]; exact (congrArg PointLive.inhibited live).trans hn
    · exact h

theorem Svc.Kept.admitUpTo {c : Ctx} (n : Nat) {w : Svc} (h : w.Kept c.cfg) : (Svc.admitUpTo c n w).Kept c.cfg := by
  induction n generalizing w with
  | zero => exact h
  | succ n ih => exact ih h.admitHead

theorem Svc.Kept.retire {w : Svc} {c : Ctx} (h : w.Kept c.cfg) (p : Point) : (Svc.retire c p w).Kept c.cfg := by
  unfold Svc.retire
  simp only
  split
  · exact h.retireOnly p
  · exact Svc.Kept.admitUpTo _ (h.retireOnly p)

/-! Condition events. -/

theorem Svc.Kept.assertFresh {w : Svc} {c : Ctx} (h : w.Kept c.cfg) {p : Point} (hu : isSystem p = false) :
    (w.assertFresh c p).Kept c.cfg := by
  have h1 := h.setCondition p true
  unfold Svc.assertFresh
  simp only
  split
  · next r hr =>
    obtain ⟨-, -, -, e⟩ := h1.linked.link_of_recordOf hr
    exact h1.assertRecord e
  · next hr =>
    have hl := h1.linked.recordOf_none.mp hr
    split
    · exact h1
    · next hw =>
      split
      · exact h1
      · next hd =>
        rw [Bool.or_eq_true, not_or] at hd
        split
        · exact h1.create .new hl (by simpa using hw) (by simpa using hd.2)
        · exact h1.join hu hl (by simpa using hw) (by simpa using hd.2)

theorem Svc.Kept.assertPoint {w : Svc} {c : Ctx} (h : w.Kept c.cfg) (p : Point) : (w.assertPoint c p).Kept c.cfg := by
  unfold Svc.assertPoint
  split
  · next hp => exact h.assertSystem hp
  · next hp =>
    split
    · exact h
    · exact h.assertFresh (by simpa using hp)

theorem Svc.Kept.returnUser {w : Svc} {c : Ctx} (h : w.Kept c.cfg) (p : Point) : (w.returnUser c p).Kept c.cfg := by
  unfold Svc.returnUser
  split
  · have h1 := h.setCondition p false
    simp only
    split
    · next r hr =>
      obtain ⟨-, -, -, e⟩ := h1.linked.link_of_recordOf hr
      cases hx : r.afterReturn (c.cfg.point p) c.now with
      | none => exact h1.retire p
      | some x => exact h1.changeRecord ((Record.afterReturn_point hx).trans e)
    · next hr =>
      split
      · refine h1.leave fun hi => ?_
        exact h1.linked.inhibitedPoint p hi
      · exact h1
  · exact h

theorem Svc.Kept.returnPoint {w : Svc} {c : Ctx} (h : w.Kept c.cfg) (p : Point) : (w.returnPoint c p).Kept c.cfg := by
  unfold Svc.returnPoint
  split
  · exact h.returnSystem p
  · exact h.returnUser p

/-! Operator events. -/

theorem Svc.Kept.ack {w : Svc} {c : Ctx} (h : w.Kept c.cfg) (src : AckSource) (p : Point) :
    (w.ack c src p).Kept c.cfg := by
  unfold Svc.ack
  split
  · exact h
  · next r hr =>
    obtain ⟨-, -, -, e⟩ := h.linked.link_of_recordOf hr
    split
    · cases hx : r.afterAck (c.cfg.point p) c.now src with
      | none => exact h.retire p
      | some x => exact h.changeRecord ((Record.afterAck_point hx).trans e)
    · exact h

theorem Svc.Kept.reset {w : Svc} {c : Ctx} (h : w.Kept c.cfg) (p : Point) : (w.reset c p).Kept c.cfg := by
  unfold Svc.reset
  split
  · exact h
  · split
    · exact h.retire p
    · exact h

theorem Svc.Kept.forceRetire {w : Svc} {c : Ctx} (h : w.Kept c.cfg) (p : Point) : (w.forceRetire c p).Kept c.cfg := by
  unfold Svc.forceRetire
  split
  · exact h
  · split
    · exact h.retire p
    · split
      · exact h.leave (h.linked.inhibitedPoint p)
      · exact h

/-- Inhibiting is the last thing to be seen of a retirement: the two updates of the point commute. -/
theorem Table.retire_setLive (t : Table) (cfg : ConfigMem) (p : Point) (i : Fin 96) (l : PointLive) :
    (t.setLive p l).retire cfg p i = (t.retire cfg p i).setLive p { l with link := none } := by
  unfold Table.retire Table.onGroup Table.setLive Table.setGroup Table.live
  cases (cfg.point p).firstOutGroup <;> simp [Bank.set_set]

/-- A user point with no record that does not wait may be inhibited. -/
theorem Table.Linked.inhibit {t : Table} (h : t.Linked) {p : Point} (hu : isSystem p = false)
    (hl : (t.live p).link = none) (hw : (t.live p).waiting = false) :
    (t.setLive p { t.live p with inhibited := true }).Linked := by
  have := h.left (p := p) (l := { t.live p with inhibited := true }) rfl hw (fun _ => ⟨hu, hl⟩)
  have hp : p ∉ t.waiting := fun hm => by rw [(h.waits p).mp hm] at hw; cases hw
  rw [List.erase_of_not_mem hp] at this
  exact this

theorem Svc.setInhibited_live_link (w : Svc) (p q : Point) (v : Bool) :
    ((w.setInhibited p v).tab.live q).link = (w.tab.live q).link := by
  unfold Svc.setInhibited
  split
  · rfl
  · rw [Svc.touch_tab]
    by_cases hq : q = p
    · subst hq; exact (congrArg PointLive.link (Table.live_setLive_self _ _ _)).trans rfl
    · exact congrArg PointLive.link (Table.live_setLive_ne _ _ hq)

theorem Svc.Kept.inhibit {w : Svc} {c : Ctx} (h : w.Kept c.cfg) {p : Point} (hu : isSystem p = false) :
    (w.inhibit c p).Kept c.cfg := by
  by_cases hi : (w.tab.live p).inhibited = true
  · have e : w.setInhibited p true = w := by unfold Svc.setInhibited; rw [if_pos hi]
    unfold Svc.inhibit
    rw [e]
    simp only
    split
    · exact h.retire p
    · split
      · exact h.leave (h.linked.inhibitedPoint p)
      · exact h
  · have e : w.setInhibited p true =
        (w.onTable fun t => t.setLive p { t.live p with inhibited := true }).touch p := by
      unfold Svc.setInhibited; rw [if_neg hi]
    have tab : (w.setInhibited p true).tab = w.tab.setLive p { w.tab.live p with inhibited := true } := by
      rw [e, Svc.touch_tab]; rfl
    have same : (w.setInhibited p true).tab.recordOf p = w.tab.recordOf p := by
      rw [tab]; exact Table.recordOf_setLive _ _ _ _ rfl
    have wait : (w.setInhibited p true).tab.live p = { w.tab.live p with inhibited := true } := by
      rw [tab]; exact Table.live_setLive_self _ _ _
    have touched : (w.setInhibited p true).touched.Nodup := by
      rw [e]; exact Svc.touch_nodup (w := w.onTable _) h.once p
    unfold Svc.inhibit
    simp only
    split
    · next r hr =>
      rw [same] at hr
      obtain ⟨i, hi', -, -⟩ := h.linked.link_of_recordOf hr
      have hw : (w.tab.live p).waiting = false := by
        by_contra hc
        have := (h.linked.waitingPoint p (by simpa using hc)).2.1
        rw [hi'] at this; cases this
      have hk : ((w.setInhibited p true).retireOnly c p).Kept c.cfg := by
        unfold Svc.retireOnly
        rw [wait]
        simp only [hi']
        have hL := (h.linked.retire c.cfg hi').inhibit hu (by rw [Table.retire_live_self])
          (by rw [Table.retire_live_self]; exact hw)
        rw [Table.retire_live_self] at hL
        refine Svc.Kept.changed (w := (w.setInhibited p true).onTable _) ⟨?_, ?_, touched⟩ p
        · rw [Svc.onTable_tab, tab, Table.retire_setLive]; exact hL
        · rw [Svc.onTable_tab, tab, Table.retire_setLive]; exact h.ranked.retire p i
      unfold Svc.retire
      simp only
      split
      · exact hk
      · exact Svc.Kept.admitUpTo _ hk
    · next hr =>
      rw [same] at hr
      have hl := h.linked.recordOf_none.mp hr
      rw [wait]
      split
      · have hL := h.linked.left (p := p)
          (l := { w.tab.live p with inhibited := true, waiting := false }) rfl rfl (fun _ => ⟨hu, hl⟩)
        unfold Svc.leave
        refine Svc.Kept.queueLeft (Svc.Kept.changed (w := (w.setInhibited p true).onTable _) ⟨?_, ?_, touched⟩ p)
        · rw [Svc.onTable_tab, wait, tab]
          unfold Table.setLive
          simp only [Bank.set_set]
          exact hL
        · rw [Svc.onTable_tab, tab]; exact h.ranked
      · next hw =>
        refine ⟨?_, by rw [tab]; exact h.ranked, touched⟩
        rw [tab]
        exact h.linked.inhibit hu hl (by simpa using hw)

theorem Svc.Kept.enable {w : Svc} {c : Ctx} (h : w.Kept c.cfg) (p : Point) : (w.enable c p).Kept c.cfg := by
  unfold Svc.enable
  split
  · next hi =>
    have h1 : (w.setInhibited p false).Kept c.cfg := by
      unfold Svc.setInhibited
      split
      · exact h
      · refine (Svc.Kept.touch (h.onTable ?_ rfl) p)
        have hw : (w.tab.live p).waiting = false := by
          by_contra hc
          have := (h.linked.waitingPoint p (by simpa using hc)).2.2
          rw [hi] at this; cases this
        have hp : p ∉ w.tab.waiting := fun hm => by rw [(h.linked.waits p).mp hm] at hw; cases hw
        have hL := h.linked.left (p := p) (l := { w.tab.live p with inhibited := false }) rfl hw
          (fun e => by cases e)
        rw [List.erase_of_not_mem hp] at hL
        exact hL
    simp only
    split
    · exact h1.assertFresh (h.linked.inhibitedPoint p hi).1
    · exact h1
  · exact h

theorem Svc.Kept.shelve {w : Svc} {cfg : ConfigMem} (h : w.Kept cfg) (p : Point) (x : ShelfPart) :
    (w.shelve p x).Kept cfg := by
  unfold Svc.shelve
  split
  · exact h
  · next r hr =>
    obtain ⟨-, -, -, e⟩ := h.linked.link_of_recordOf hr
    split
    · exact h
    · have h1 := h.changeRecord (p := p) (r := { r with shelf := some x, sounding := false }) e
      have := h1.linked
      exact h1.onTable ⟨this.rankOnce, this.ranked, this.entry, this.link, this.waitingOnce, this.waits,
        this.waitingPoint, this.inhibitedPoint⟩ rfl

theorem Svc.Kept.unshelve {w : Svc} {c : Ctx} (h : w.Kept c.cfg) (p : Point) : (w.unshelve c p).Kept c.cfg := by
  unfold Svc.unshelve
  split
  · exact h
  · next r hr =>
    obtain ⟨-, -, -, e⟩ := h.linked.link_of_recordOf hr
    split
    · exact h
    · have h1 := h.changeRecord (p := p) (r := { r with
        shelf := none, sounding := r.sounding || (r.state.unacked && (c.cfg.point p).sound) }) e
      have := h1.linked
      exact h1.onTable ⟨this.rankOnce, this.ranked, this.entry, this.link, this.waitingOnce, this.waits,
        this.waitingPoint, this.inhibitedPoint⟩ rfl

theorem Svc.Kept.silenceOne {w : Svc} {cfg : ConfigMem} (h : w.Kept cfg) (p : Point) : (w.silenceOne p).Kept cfg := by
  unfold Svc.silenceOne
  split
  · exact h
  · next r hr =>
    obtain ⟨-, -, -, e⟩ := h.linked.link_of_recordOf hr
    split
    · exact h.changeRecord e
    · exact h

/-- A service that does one thing for each point of a list. -/
theorem Svc.Kept.foldl {cfg : ConfigMem} {f : Svc → Point → Svc} (hf : ∀ w p, w.Kept cfg → (f w p).Kept cfg)
    (ps : List Point) {w : Svc} (h : w.Kept cfg) : (ps.foldl f w).Kept cfg := by
  induction ps generalizing w with
  | nil => exact h
  | cons p ps ih => exact ih (hf w p h)

theorem Svc.Kept.silence {w : Svc} {cfg : ConfigMem} (h : w.Kept cfg) : w.silence.Kept cfg :=
  Svc.Kept.foldl (fun _ p h => h.silenceOne p) _ h

theorem Svc.Kept.ackEach {w : Svc} {c : Ctx} (h : w.Kept c.cfg) (src : AckSource) (ps : List Point) :
    (w.ackEach c src ps).Kept c.cfg :=
  Svc.Kept.foldl (f := fun w p => w.ack c src p) (fun _ p h => h.ack src p) _ h

theorem Svc.Kept.resetEach {w : Svc} {c : Ctx} (h : w.Kept c.cfg) (ps : List Point) :
    (w.resetEach c ps).Kept c.cfg :=
  Svc.Kept.foldl (f := fun w p => w.reset c p) (fun _ p h => h.reset p) _ h

theorem Svc.Kept.unshelveDue {w : Svc} {c : Ctx} (h : w.Kept c.cfg) : (w.unshelveDue c).Kept c.cfg :=
  Svc.Kept.foldl (f := fun w p => w.unshelve c p) (fun _ p h => h.unshelve p) _ h

theorem Svc.Kept.firstOutReset {w : Svc} {cfg : ConfigMem} (h : w.Kept cfg) (g : Fin 7) :
    (w.firstOutReset g).Kept cfg := by
  have key : ∀ u : Svc, u.Kept cfg → ∀ f, (u.onTable fun t => t.setGroup g f).Kept cfg := by
    intro u hu f
    have := hu.linked
    exact hu.onTable ⟨this.rankOnce, this.ranked, this.entry, this.link, this.waitingOnce, this.waits,
      this.waitingPoint, this.inhibitedPoint⟩ rfl
  unfold Svc.firstOutReset
  simp only
  split
  · exact key _ h _
  · split
    · exact key _ h _
    · next r hr =>
      obtain ⟨-, -, -, e⟩ := h.linked.link_of_recordOf hr
      exact key _ (h.changeRecord (r := { r with firstOut := false }) e) _

end Sys2Proof.Machine
end

