-- ==== Sys2Proof/Laws/Lines.lean ====
section
/-! SUPPORT. The Field Line Unit: what a sample and a timer expiry change, and what they leave. -/

namespace Sys2Proof.Machine

/-! Reading a line. -/

@[simp] theorem State.line_setLine_self (s : State) (n : Fin 16) (l : LineState) : (s.setLine n l).line n = l :=
  Bank.get_set_self _ _ _

theorem State.line_setLine_ne (s : State) {m n : Fin 16} (l : LineState) (h : m ≠ n) :
    (s.setLine n l).line m = s.line m :=
  Bank.get_set_ne _ _ h

@[simp] theorem State.line_post (s : State) (x : WorkSource) (n : Fin 16) : (s.post x).line n = s.line n := rfl

@[simp] theorem State.line_clearMarks (s : State) (n : Fin 16) : s.clearMarks.line n = (s.line n).clearMarks :=
  Bank.get_map _ _ _

@[simp] theorem sampledLines_get (levels : BitVec 16) (n : Fin 16) :
    (sampledLines levels).get n = LineState.reset (levels.getLsbD n.val) :=
  Bank.get_build _ _

/-! What a qualified change, a timer expiry and a sample leave. -/

@[simp] theorem State.senseChange_pending (s : State) (n : Fin 16) :
    (s.senseChange n).pending = s.pending := by
  unfold State.senseChange; simp only; repeat' split
  all_goals rfl
@[simp] theorem State.senseChange_resetHeld (s : State) (n : Fin 16) :
    (s.senseChange n).resetHeld = s.resetHeld := by
  unfold State.senseChange; simp only; repeat' split
  all_goals rfl
@[simp] theorem State.senseChange_mode (s : State) (n : Fin 16) :
    (s.senseChange n).mode = s.mode := by
  unfold State.senseChange; simp only; repeat' split
  all_goals rfl
@[simp] theorem State.senseChange_owner (s : State) (n : Fin 16) :
    (s.senseChange n).owner = s.owner := by
  unfold State.senseChange; simp only; repeat' split
  all_goals rfl
@[simp] theorem State.senseChange_resetCause (s : State) (n : Fin 16) :
    (s.senseChange n).resetCause = s.resetCause := by
  unfold State.senseChange; simp only; repeat' split
  all_goals rfl
@[simp] theorem State.senseChange_storeFault (s : State) (n : Fin 16) :
    (s.senseChange n).storeFault = s.storeFault := by
  unfold State.senseChange; simp only; repeat' split
  all_goals rfl
@[simp] theorem State.senseChange_startOperate (s : State) (n : Fin 16) :
    (s.senseChange n).startOperate = s.startOperate := by
  unfold State.senseChange; simp only; repeat' split
  all_goals rfl
@[simp] theorem State.senseChange_config (s : State) (n : Fin 16) :
    (s.senseChange n).config = s.config := by
  unfold State.senseChange; simp only; repeat' split
  all_goals rfl
@[simp] theorem State.senseChange_store (s : State) (n : Fin 16) :
    (s.senseChange n).store = s.store := by
  unfold State.senseChange; simp only; repeat' split
  all_goals rfl
@[simp] theorem State.senseChange_saveMark (s : State) (n : Fin 16) :
    (s.senseChange n).saveMark = s.saveMark := by
  unfold State.senseChange; simp only; repeat' split
  all_goals rfl
@[simp] theorem State.senseChange_storeOp (s : State) (n : Fin 16) :
    (s.senseChange n).storeOp = s.storeOp := by
  unfold State.senseChange; simp only; repeat' split
  all_goals rfl
@[simp] theorem State.senseChange_engine (s : State) (n : Fin 16) :
    (s.senseChange n).engine = s.engine := by
  unfold State.senseChange; simp only; repeat' split
  all_goals rfl
@[simp] theorem State.senseChange_pointer (s : State) (n : Fin 16) :
    (s.senseChange n).pointer = s.pointer := by
  unfold State.senseChange; simp only; repeat' split
  all_goals rfl
@[simp] theorem State.senseChange_table (s : State) (n : Fin 16) :
    (s.senseChange n).table = s.table := by
  unfold State.senseChange; simp only; repeat' split
  all_goals rfl
@[simp] theorem State.senseChange_ports (s : State) (n : Fin 16) :
    (s.senseChange n).ports = s.ports := by
  unfold State.senseChange; simp only; repeat' split
  all_goals rfl
@[simp] theorem State.senseChange_counter (s : State) (n : Fin 16) :
    (s.senseChange n).counter = s.counter := by
  unfold State.senseChange; simp only; repeat' split
  all_goals rfl
@[simp] theorem State.senseChange_latch (s : State) (n : Fin 16) :
    (s.senseChange n).latch = s.latch := by
  unfold State.senseChange; simp only; repeat' split
  all_goals rfl
@[simp] theorem State.senseChange_freeCount (s : State) (n : Fin 16) :
    (s.senseChange n).freeCount = s.freeCount := by
  unfold State.senseChange; simp only; repeat' split
  all_goals rfl

@[simp] theorem State.brightnessStep_pending (s : State) :
    s.brightnessStep.pending = s.pending := by
  unfold State.brightnessStep; split <;> rfl
@[simp] theorem State.brightnessStep_resetHeld (s : State) :
    s.brightnessStep.resetHeld = s.resetHeld := by
  unfold State.brightnessStep; split <;> rfl
@[simp] theorem State.brightnessStep_mode (s : State) :
    s.brightnessStep.mode = s.mode := by
  unfold State.brightnessStep; split <;> rfl
@[simp] theorem State.brightnessStep_owner (s : State) :
    s.brightnessStep.owner = s.owner := by
  unfold State.brightnessStep; split <;> rfl
@[simp] theorem State.brightnessStep_resetCause (s : State) :
    s.brightnessStep.resetCause = s.resetCause := by
  unfold State.brightnessStep; split <;> rfl
@[simp] theorem State.brightnessStep_storeFault (s : State) :
    s.brightnessStep.storeFault = s.storeFault := by
  unfold State.brightnessStep; split <;> rfl
@[simp] theorem State.brightnessStep_startOperate (s : State) :
    s.brightnessStep.startOperate = s.startOperate := by
  unfold State.brightnessStep; split <;> rfl
@[simp] theorem State.brightnessStep_config (s : State) :
    s.brightnessStep.config = s.config := by
  unfold State.brightnessStep; split <;> rfl
@[simp] theorem State.brightnessStep_store (s : State) :
    s.brightnessStep.store = s.store := by
  unfold State.brightnessStep; split <;> rfl
@[simp] theorem State.brightnessStep_saveMark (s : State) :
    s.brightnessStep.saveMark = s.saveMark := by
  unfold State.brightnessStep; split <;> rfl
@[simp] theorem State.brightnessStep_storeOp (s : State) :
    s.brightnessStep.storeOp = s.storeOp := by
  unfold State.brightnessStep; split <;> rfl
@[simp] theorem State.brightnessStep_engine (s : State) :
    s.brightnessStep.engine = s.engine := by
  unfold State.brightnessStep; split <;> rfl
@[simp] theorem State.brightnessStep_pointer (s : State) :
    s.brightnessStep.pointer = s.pointer := by
  unfold State.brightnessStep; split <;> rfl
@[simp] theorem State.brightnessStep_table (s : State) :
    s.brightnessStep.table = s.table := by
  unfold State.brightnessStep; split <;> rfl
@[simp] theorem State.brightnessStep_ports (s : State) :
    s.brightnessStep.ports = s.ports := by
  unfold State.brightnessStep; split <;> rfl
@[simp] theorem State.brightnessStep_counter (s : State) :
    s.brightnessStep.counter = s.counter := by
  unfold State.brightnessStep; split <;> rfl
@[simp] theorem State.brightnessStep_latch (s : State) :
    s.brightnessStep.latch = s.latch := by
  unfold State.brightnessStep; split <;> rfl
@[simp] theorem State.brightnessStep_freeCount (s : State) :
    s.brightnessStep.freeCount = s.freeCount := by
  unfold State.brightnessStep; split <;> rfl

@[simp] theorem State.qualifiedChange_pending (s : State) (n : Fin 16) :
    (s.qualifiedChange n).pending = s.pending := by
  unfold State.qualifiedChange; simp only; repeat' split
  all_goals simp
@[simp] theorem State.qualifiedChange_resetHeld (s : State) (n : Fin 16) :
    (s.qualifiedChange n).resetHeld = s.resetHeld := by
  unfold State.qualifiedChange; simp only; repeat' split
  all_goals simp
@[simp] theorem State.qualifiedChange_mode (s : State) (n : Fin 16) :
    (s.qualifiedChange n).mode = s.mode := by
  unfold State.qualifiedChange; simp only; repeat' split
  all_goals simp
@[simp] theorem State.qualifiedChange_owner (s : State) (n : Fin 16) :
    (s.qualifiedChange n).owner = s.owner := by
  unfold State.qualifiedChange; simp only; repeat' split
  all_goals simp
@[simp] theorem State.qualifiedChange_resetCause (s : State) (n : Fin 16) :
    (s.qualifiedChange n).resetCause = s.resetCause := by
  unfold State.qualifiedChange; simp only; repeat' split
  all_goals simp
@[simp] theorem State.qualifiedChange_storeFault (s : State) (n : Fin 16) :
    (s.qualifiedChange n).storeFault = s.storeFault := by
  unfold State.qualifiedChange; simp only; repeat' split
  all_goals simp
@[simp] theorem State.qualifiedChange_startOperate (s : State) (n : Fin 16) :
    (s.qualifiedChange n).startOperate = s.startOperate := by
  unfold State.qualifiedChange; simp only; repeat' split
  all_goals simp
@[simp] theorem State.qualifiedChange_config (s : State) (n : Fin 16) :
    (s.qualifiedChange n).config = s.config := by
  unfold State.qualifiedChange; simp only; repeat' split
  all_goals simp
@[simp] theorem State.qualifiedChange_store (s : State) (n : Fin 16) :
    (s.qualifiedChange n).store = s.store := by
  unfold State.qualifiedChange; simp only; repeat' split
  all_goals simp
@[simp] theorem State.qualifiedChange_saveMark (s : State) (n : Fin 16) :
    (s.qualifiedChange n).saveMark = s.saveMark := by
  unfold State.qualifiedChange; simp only; repeat' split
  all_goals simp
@[simp] theorem State.qualifiedChange_storeOp (s : State) (n : Fin 16) :
    (s.qualifiedChange n).storeOp = s.storeOp := by
  unfold State.qualifiedChange; simp only; repeat' split
  all_goals simp
@[simp] theorem State.qualifiedChange_engine (s : State) (n : Fin 16) :
    (s.qualifiedChange n).engine = s.engine := by
  unfold State.qualifiedChange; simp only; repeat' split
  all_goals simp
@[simp] theorem State.qualifiedChange_pointer (s : State) (n : Fin 16) :
    (s.qualifiedChange n).pointer = s.pointer := by
  unfold State.qualifiedChange; simp only; repeat' split
  all_goals simp
@[simp] theorem State.qualifiedChange_table (s : State) (n : Fin 16) :
    (s.qualifiedChange n).table = s.table := by
  unfold State.qualifiedChange; simp only; repeat' split
  all_goals simp
@[simp] theorem State.qualifiedChange_ports (s : State) (n : Fin 16) :
    (s.qualifiedChange n).ports = s.ports := by
  unfold State.qualifiedChange; simp only; repeat' split
  all_goals simp
@[simp] theorem State.qualifiedChange_counter (s : State) (n : Fin 16) :
    (s.qualifiedChange n).counter = s.counter := by
  unfold State.qualifiedChange; simp only; repeat' split
  all_goals simp
@[simp] theorem State.qualifiedChange_latch (s : State) (n : Fin 16) :
    (s.qualifiedChange n).latch = s.latch := by
  unfold State.qualifiedChange; simp only; repeat' split
  all_goals simp
@[simp] theorem State.qualifiedChange_freeCount (s : State) (n : Fin 16) :
    (s.qualifiedChange n).freeCount = s.freeCount := by
  unfold State.qualifiedChange; simp only; repeat' split
  all_goals simp

@[simp] theorem State.qualify_pending (s : State) (n : Fin 16) :
    (s.qualify n).pending = s.pending := by
  simp [State.qualify]
@[simp] theorem State.qualify_resetHeld (s : State) (n : Fin 16) :
    (s.qualify n).resetHeld = s.resetHeld := by
  simp [State.qualify]
@[simp] theorem State.qualify_mode (s : State) (n : Fin 16) :
    (s.qualify n).mode = s.mode := by
  simp [State.qualify]
@[simp] theorem State.qualify_owner (s : State) (n : Fin 16) :
    (s.qualify n).owner = s.owner := by
  simp [State.qualify]
@[simp] theorem State.qualify_resetCause (s : State) (n : Fin 16) :
    (s.qualify n).resetCause = s.resetCause := by
  simp [State.qualify]
@[simp] theorem State.qualify_storeFault (s : State) (n : Fin 16) :
    (s.qualify n).storeFault = s.storeFault := by
  simp [State.qualify]
@[simp] theorem State.qualify_startOperate (s : State) (n : Fin 16) :
    (s.qualify n).startOperate = s.startOperate := by
  simp [State.qualify]
@[simp] theorem State.qualify_config (s : State) (n : Fin 16) :
    (s.qualify n).config = s.config := by
  simp [State.qualify]
@[simp] theorem State.qualify_store (s : State) (n : Fin 16) :
    (s.qualify n).store = s.store := by
  simp [State.qualify]
@[simp] theorem State.qualify_saveMark (s : State) (n : Fin 16) :
    (s.qualify n).saveMark = s.saveMark := by
  simp [State.qualify]
@[simp] theorem State.qualify_storeOp (s : State) (n : Fin 16) :
    (s.qualify n).storeOp = s.storeOp := by
  simp [State.qualify]
@[simp] theorem State.qualify_engine (s : State) (n : Fin 16) :
    (s.qualify n).engine = s.engine := by
  simp [State.qualify]
@[simp] theorem State.qualify_pointer (s : State) (n : Fin 16) :
    (s.qualify n).pointer = s.pointer := by
  simp [State.qualify]
@[simp] theorem State.qualify_table (s : State) (n : Fin 16) :
    (s.qualify n).table = s.table := by
  simp [State.qualify]
@[simp] theorem State.qualify_ports (s : State) (n : Fin 16) :
    (s.qualify n).ports = s.ports := by
  simp [State.qualify]
@[simp] theorem State.qualify_counter (s : State) (n : Fin 16) :
    (s.qualify n).counter = s.counter := by
  simp [State.qualify]
@[simp] theorem State.qualify_latch (s : State) (n : Fin 16) :
    (s.qualify n).latch = s.latch := by
  simp [State.qualify]
@[simp] theorem State.qualify_freeCount (s : State) (n : Fin 16) :
    (s.qualify n).freeCount = s.freeCount := by
  simp [State.qualify]

@[simp] theorem State.rawChange_pending (s : State) (n : Fin 16) (level : Bool) :
    (s.rawChange n level).pending = s.pending := by
  unfold State.rawChange; simp only; repeat' split
  all_goals simp
@[simp] theorem State.rawChange_resetHeld (s : State) (n : Fin 16) (level : Bool) :
    (s.rawChange n level).resetHeld = s.resetHeld := by
  unfold State.rawChange; simp only; repeat' split
  all_goals simp
@[simp] theorem State.rawChange_mode (s : State) (n : Fin 16) (level : Bool) :
    (s.rawChange n level).mode = s.mode := by
  unfold State.rawChange; simp only; repeat' split
  all_goals simp
@[simp] theorem State.rawChange_owner (s : State) (n : Fin 16) (level : Bool) :
    (s.rawChange n level).owner = s.owner := by
  unfold State.rawChange; simp only; repeat' split
  all_goals simp
@[simp] theorem State.rawChange_resetCause (s : State) (n : Fin 16) (level : Bool) :
    (s.rawChange n level).resetCause = s.resetCause := by
  unfold State.rawChange; simp only; repeat' split
  all_goals simp
@[simp] theorem State.rawChange_storeFault (s : State) (n : Fin 16) (level : Bool) :
    (s.rawChange n level).storeFault = s.storeFault := by
  unfold State.rawChange; simp only; repeat' split
  all_goals simp
@[simp] theorem State.rawChange_startOperate (s : State) (n : Fin 16) (level : Bool) :
    (s.rawChange n level).startOperate = s.startOperate := by
  unfold State.rawChange; simp only; repeat' split
  all_goals simp
@[simp] theorem State.rawChange_config (s : State) (n : Fin 16) (level : Bool) :
    (s.rawChange n level).config = s.config := by
  unfold State.rawChange; simp only; repeat' split
  all_goals simp
@[simp] theorem State.rawChange_store (s : State) (n : Fin 16) (level : Bool) :
    (s.rawChange n level).store = s.store := by
  unfold State.rawChange; simp only; repeat' split
  all_goals simp
@[simp] theorem State.rawChange_saveMark (s : State) (n : Fin 16) (level : Bool) :
    (s.rawChange n level).saveMark = s.saveMark := by
  unfold State.rawChange; simp only; repeat' split
  all_goals simp
@[simp] theorem State.rawChange_storeOp (s : State) (n : Fin 16) (level : Bool) :
    (s.rawChange n level).storeOp = s.storeOp := by
  unfold State.rawChange; simp only; repeat' split
  all_goals simp
@[simp] theorem State.rawChange_engine (s : State) (n : Fin 16) (level : Bool) :
    (s.rawChange n level).engine = s.engine := by
  unfold State.rawChange; simp only; repeat' split
  all_goals simp
@[simp] theorem State.rawChange_pointer (s : State) (n : Fin 16) (level : Bool) :
    (s.rawChange n level).pointer = s.pointer := by
  unfold State.rawChange; simp only; repeat' split
  all_goals simp
@[simp] theorem State.rawChange_table (s : State) (n : Fin 16) (level : Bool) :
    (s.rawChange n level).table = s.table := by
  unfold State.rawChange; simp only; repeat' split
  all_goals simp
@[simp] theorem State.rawChange_ports (s : State) (n : Fin 16) (level : Bool) :
    (s.rawChange n level).ports = s.ports := by
  unfold State.rawChange; simp only; repeat' split
  all_goals simp
@[simp] theorem State.rawChange_counter (s : State) (n : Fin 16) (level : Bool) :
    (s.rawChange n level).counter = s.counter := by
  unfold State.rawChange; simp only; repeat' split
  all_goals simp
@[simp] theorem State.rawChange_latch (s : State) (n : Fin 16) (level : Bool) :
    (s.rawChange n level).latch = s.latch := by
  unfold State.rawChange; simp only; repeat' split
  all_goals simp
@[simp] theorem State.rawChange_freeCount (s : State) (n : Fin 16) (level : Bool) :
    (s.rawChange n level).freeCount = s.freeCount := by
  unfold State.rawChange; simp only; repeat' split
  all_goals simp

/-! The line itself and the others. -/

theorem State.senseChange_line_ne (s : State) {m n : Fin 16} (h : m ≠ n) : (s.senseChange n).line m = s.line m := by
  unfold State.senseChange; simp only; repeat' split
  all_goals simp [State.line_setLine_ne _ _ h]

theorem State.qualifiedChange_line_ne (s : State) {m n : Fin 16} (h : m ≠ n) :
    (s.qualifiedChange n).line m = s.line m := by
  have hb : ∀ u : State, u.brightnessStep.line m = u.line m := by
    intro u; unfold State.brightnessStep; split <;> rfl
  unfold State.qualifiedChange; simp only; repeat' split
  all_goals simp [State.line_setLine_ne _ _ h, State.senseChange_line_ne _ h, hb]

/-- A timer expiry changes no other line. -/
theorem State.qualify_line_ne (s : State) {m n : Fin 16} (h : m ≠ n) : (s.qualify n).line m = s.line m := by
  simp [State.qualify, State.qualifiedChange_line_ne _ h, State.line_setLine_ne _ _ h]

/-- A sample changes no other line. -/
theorem State.rawChange_line_ne (s : State) {m n : Fin 16} (level : Bool) (h : m ≠ n) :
    (s.rawChange n level).line m = s.line m := by
  unfold State.rawChange; simp only; repeat' split
  all_goals simp [State.line_setLine_ne _ _ h, State.qualify_line_ne _ h]

/-- The consequences of a qualified change touch only the marks of the line. -/
theorem State.qualifiedChange_levels (s : State) (n : Fin 16) :
    ((s.qualifiedChange n).line n).raw = (s.line n).raw
      ∧ ((s.qualifiedChange n).line n).qualified = (s.line n).qualified
      ∧ ((s.qualifiedChange n).line n).timer = (s.line n).timer := by
  have hb : ∀ u : State, u.brightnessStep.line n = u.line n := by
    intro u; unfold State.brightnessStep; split <;> rfl
  have hs : ((s.senseChange n).line n).raw = (s.line n).raw
      ∧ ((s.senseChange n).line n).qualified = (s.line n).qualified
      ∧ ((s.senseChange n).line n).timer = (s.line n).timer := by
    unfold State.senseChange; simp only; repeat' split
    all_goals simp
  unfold State.qualifiedChange; simp only; repeat' split
  all_goals first | exact hs | simp [hb]

/-- At a timer expiry the qualified level takes the raw level and the timer stops (R100). -/
theorem State.qualify_levels (s : State) (n : Fin 16) :
    ((s.qualify n).line n).raw = (s.line n).raw ∧ ((s.qualify n).line n).qualified = (s.line n).raw
      ∧ ((s.qualify n).line n).timer = none := by
  have := (s.setLine n { s.line n with qualified := (s.line n).raw, timer := none }).qualifiedChange_levels n
  simpa [State.qualify] using this

/-- A sample sets the raw level. -/
theorem State.rawChange_raw (s : State) (n : Fin 16) (level : Bool) : ((s.rawChange n level).line n).raw = level := by
  unfold State.rawChange; simp only; repeat' split
  · assumption
  · simp
  · simp
  · simp [State.qualify_levels]
  · simp

end Sys2Proof.Machine
end

