-- ==== Sys2Proof/Laws/Memory.lean ====
section
/-! SUPPORT. The Definition Store: every operation keeps its canonical form, and what a byte reads after each. -/

namespace Sys2Proof.Machine

/-! The canonical form. -/

theorem Memory.wfFrom_cons {low a : Nat} {b : Byte} {m : Memory} :
    Memory.wfFrom low ((a, b) :: m) = true ↔
      low ≤ a ∧ a < storeSize ∧ b ≠ erasedByte ∧ Memory.wfFrom (a + 1) m = true := by
  simp [Memory.wfFrom, and_assoc]

theorem Memory.wfFrom_mono {low low' : Nat} {m : Memory} (h : Memory.wfFrom low m = true) (hl : low' ≤ low) :
    Memory.wfFrom low' m = true := by
  cases m with
  | nil => rfl
  | cons c m =>
    obtain ⟨a, b⟩ := c
    rw [Memory.wfFrom_cons] at h ⊢
    exact ⟨by omega, h.2⟩

/-- A memory that lists nothing below `low` reads erased there. -/
theorem Memory.read_of_lt {low a : Nat} {m : Memory} (h : Memory.wfFrom low m = true) (ha : a < low) :
    m.read a = erasedByte := by
  induction m generalizing low with
  | nil => rfl
  | cons c m ih =>
    obtain ⟨k, b⟩ := c
    rw [Memory.wfFrom_cons] at h
    have hk : k ≠ a := by omega
    simp only [Memory.read, hk, if_false]
    exact ih h.2.2.2 (by omega)

/-- Outside the 2048 bytes a memory in canonical form reads erased. -/
theorem Memory.read_of_size_le {low a : Nat} {m : Memory} (h : Memory.wfFrom low m = true) (ha : storeSize ≤ a) :
    m.read a = erasedByte := by
  induction m generalizing low with
  | nil => rfl
  | cons c m ih =>
    obtain ⟨k, b⟩ := c
    rw [Memory.wfFrom_cons] at h
    have hk : k ≠ a := by omega
    simp only [Memory.read, hk, if_false]
    exact ih h.2.2.2

/-- Two memories in canonical form that read alike are equal data. -/
theorem Memory.ext_read {low : Nat} {m m' : Memory} (h : Memory.wfFrom low m = true)
    (h' : Memory.wfFrom low m' = true) (e : ∀ a, m.read a = m'.read a) : m = m' := by
  induction m generalizing low m' with
  | nil =>
    cases m' with
    | nil => rfl
    | cons c m' =>
      obtain ⟨k, b⟩ := c
      rw [Memory.wfFrom_cons] at h'
      have := e k
      simp only [Memory.read, if_true] at this
      exact absurd this.symm h'.2.2.1
  | cons c m ih =>
    obtain ⟨k, b⟩ := c
    rw [Memory.wfFrom_cons] at h
    cases m' with
    | nil =>
      have := e k
      simp only [Memory.read, if_true] at this
      exact absurd this h.2.2.1
    | cons c' m' =>
      obtain ⟨k', b'⟩ := c'
      rw [Memory.wfFrom_cons] at h'
      have hkk : k = k' := by
        rcases Nat.lt_trichotomy k k' with hlt | heq | hgt
        · have h1 := e k
          have h2 : Memory.read ((k', b') :: m') k = erasedByte := by
            have hne : k' ≠ k := by omega
            simp only [Memory.read, hne, if_false]
            exact Memory.read_of_lt h'.2.2.2 (by omega)
          rw [h2] at h1
          simp only [Memory.read, if_true] at h1
          exact absurd h1 h.2.2.1
        · exact heq
        · have h1 := e k'
          have h2 : Memory.read ((k, b) :: m) k' = erasedByte := by
            have hne : k ≠ k' := by omega
            simp only [Memory.read, hne, if_false]
            exact Memory.read_of_lt h.2.2.2 (by omega)
          rw [h2] at h1
          simp only [Memory.read, if_true] at h1
          exact absurd h1.symm h'.2.2.1
      subst hkk
      have hb : b = b' := by simpa [Memory.read] using e k
      subst hb
      have : m = m' := by
        apply ih h.2.2.2 h'.2.2.2
        intro a
        by_cases ha : k = a
        · subst ha
          rw [Memory.read_of_lt h.2.2.2 (by omega), Memory.read_of_lt h'.2.2.2 (by omega)]
        · have := e a
          simpa only [Memory.read, ha, if_false] using this
      rw [this]

@[simp] theorem Memory.wf_erased : Memory.wf Memory.erased = true := rfl

@[simp] theorem Memory.read_erased (a : Nat) : Memory.read Memory.erased a = erasedByte := rfl

/-! Bytes laid from an address on. -/

theorem Memory.wfFrom_ofBytes (low : Nat) (bs : List Byte) (h : low + bs.length ≤ storeSize) :
    Memory.wfFrom low (Memory.ofBytes low bs) = true := by
  induction bs generalizing low with
  | nil => rfl
  | cons b bs ih =>
    simp only [List.length_cons] at h
    have ih := ih (low + 1) (by omega)
    simp only [Memory.ofBytes]
    split
    · exact Memory.wfFrom_mono ih (by omega)
    · next hb => exact Memory.wfFrom_cons.mpr ⟨le_rfl, by omega, hb, ih⟩

theorem Memory.wf_ofBytes (bs : List Byte) (h : bs.length ≤ storeSize) : (Memory.ofBytes 0 bs).wf = true :=
  Memory.wfFrom_ofBytes 0 bs (by omega)

theorem Memory.read_ofBytes (low : Nat) (bs : List Byte) (a : Nat) :
    (Memory.ofBytes low bs).read a = if a < low then erasedByte else bs.getD (a - low) erasedByte := by
  induction bs generalizing low with
  | nil => simp [Memory.ofBytes, Memory.read]
  | cons b bs ih =>
    have step : ∀ x : Byte, (if a < low + 1 then erasedByte else bs.getD (a - (low + 1)) erasedByte) = x →
        a ≠ low → x = if a < low then erasedByte else (b :: bs).getD (a - low) erasedByte := by
      intro x hx hne
      rw [← hx]
      by_cases hlt : a < low
      · simp [hlt, Nat.lt_succ_of_lt hlt]
      · have h1 : ¬ a < low + 1 := by omega
        have h2 : a - low = (a - (low + 1)) + 1 := by omega
        simp only [hlt, h1, if_false, h2, List.getD_cons_succ]
    simp only [Memory.ofBytes]
    split
    · next hb =>
      by_cases hne : a = low
      · subst hne
        rw [ih]
        simp [hb]
      · exact step _ (ih (low + 1)).symm hne
    · by_cases hne : a = low
      · subst hne
        simp [Memory.read]
      · have hne' : low ≠ a := fun e => hne e.symm
        simp only [Memory.read, hne', if_false]
        exact step _ (ih (low + 1)).symm hne

@[simp] theorem Memory.wf_interrupted (k : Nat) : (Memory.interrupted k).wf = true :=
  Memory.wf_ofBytes _ (by simp)

/-! One byte put. -/

theorem Memory.wfFrom_put {low a : Nat} (b : Byte) {m : Memory} (h : Memory.wfFrom low m = true) (hl : low ≤ a)
    (ha : a < storeSize) : Memory.wfFrom low (m.put a b) = true := by
  induction m generalizing low with
  | nil =>
    simp only [Memory.put]
    split
    · rfl
    · next hb => exact Memory.wfFrom_cons.mpr ⟨hl, ha, hb, rfl⟩
  | cons c m ih =>
    obtain ⟨k, x⟩ := c
    have h' := Memory.wfFrom_cons.mp h
    simp only [Memory.put]
    split
    · next hlt =>
      split
      · exact h
      · next hb =>
        exact Memory.wfFrom_cons.mpr ⟨hl, ha, hb, Memory.wfFrom_cons.mpr ⟨by omega, h'.2⟩⟩
    · split
      · next heq =>
        subst heq
        split
        · exact Memory.wfFrom_mono h'.2.2.2 (by omega)
        · next hb => exact Memory.wfFrom_cons.mpr ⟨hl, ha, hb, h'.2.2.2⟩
      · exact Memory.wfFrom_cons.mpr ⟨h'.1, h'.2.1, h'.2.2.1, ih h'.2.2.2 (by omega)⟩

theorem Memory.read_put {low a : Nat} (b : Byte) {m : Memory} (h : Memory.wfFrom low m = true) (j : Nat) :
    (m.put a b).read j = if j = a then b else m.read j := by
  induction m generalizing low with
  | nil =>
    simp only [Memory.put]
    split
    · next hb => simp [Memory.read, hb]
    · simp only [Memory.read, eq_comm (a := j)]
  | cons c m ih =>
    obtain ⟨k, x⟩ := c
    have h' := Memory.wfFrom_cons.mp h
    simp only [Memory.put]
    split
    · next hlt =>
      split
      · next hb =>
        by_cases hj : j = a
        · subst hj
          have hne : k ≠ j := by omega
          simp only [Memory.read, hne, if_false, if_true]
          rw [Memory.read_of_lt h'.2.2.2 (by omega), hb]
        · simp [hj]
      · by_cases hj : j = a
        · subst hj; simp [Memory.read]
        · have : a ≠ j := fun e => hj e.symm
          simp [Memory.read, hj, this]
    · split
      · next heq =>
        subst heq
        split
        · next hb =>
          by_cases hj : j = a
          · subst hj
            rw [Memory.read_of_lt h'.2.2.2 (by omega)]
            simp [hb]
          · have : a ≠ j := fun e => hj e.symm
            simp [Memory.read, hj, this]
        · by_cases hj : j = a
          · subst hj; simp [Memory.read]
          · have : a ≠ j := fun e => hj e.symm
            simp [Memory.read, hj, this]
      · next hne =>
        simp only [Memory.read, ih h'.2.2.2]
        by_cases hj : j = a
        · subst hj
          have : k ≠ j := fun e => hne e.symm
          simp [this]
        · simp [hj]

/-! Several bytes put. -/

theorem Memory.wf_putAll {m : Memory} (ds : List (Nat × Byte)) (h : m.wf = true) : (m.putAll ds).wf = true := by
  induction ds generalizing m with
  | nil => exact h
  | cons d ds ih =>
    simp only [Memory.putAll, List.foldl_cons]
    apply ih
    split
    · next hd => exact Memory.wfFrom_put _ h (Nat.zero_le _) hd
    · exact h

theorem Memory.read_putAll_of_not_mem {m : Memory} {ds : List (Nat × Byte)} {a : Nat} (h : m.wf = true)
    (hd : ∀ d ∈ ds, d.1 ≠ a) : (m.putAll ds).read a = m.read a := by
  induction ds generalizing m with
  | nil => rfl
  | cons d ds ih =>
    simp only [Memory.putAll, List.foldl_cons]
    have hda : a ≠ d.1 := fun e => hd d (by simp) e.symm
    have hds : ∀ x ∈ ds, x.1 ≠ a := fun x hx => hd x (by simp [hx])
    split
    · next hlt =>
      refine (ih (Memory.wfFrom_put _ h (Nat.zero_le _) hlt) hds).trans ?_
      rw [Memory.read_put _ h]
      simp [hda]
    · exact ih h hds

/-! The dump is what the addresses read. -/

theorem Memory.dump_eq {low : Nat} {m : Memory} (h : Memory.wfFrom low m = true) (n : Nat) :
    Memory.dump low n m = (List.range n).map fun i => m.read (low + i) := by
  induction n generalizing low m with
  | zero => rfl
  | succ n ih =>
    rw [List.range_succ_eq_map, List.map_cons, List.map_map]
    cases m with
    | nil =>
      simp only [Memory.dump]
      rw [ih (m := []) rfl]
      simp [Memory.read, Function.comp_def]
    | cons c m =>
      obtain ⟨k, b⟩ := c
      have h' := Memory.wfFrom_cons.mp h
      simp only [Memory.dump]
      split
      · next heq =>
        subst heq
        rw [ih h'.2.2.2]
        congr 1
        · simp [Memory.read]
        · apply List.map_congr_left
          intro i _
          have : k ≠ k + (i + 1) := by omega
          simp only [Function.comp, Nat.succ_eq_add_one, Memory.read, this, if_false]
          congr 1
          omega
      · next hne =>
        have hw : Memory.wfFrom (low + 1) ((k, b) :: m) = true := Memory.wfFrom_cons.mpr ⟨by omega, h'.2⟩
        rw [ih hw]
        congr 1
        · exact (Memory.read_of_lt hw (by omega)).symm
        · apply List.map_congr_left
          intro i _
          simp only [Function.comp, Nat.succ_eq_add_one]
          congr 1
          omega

/-! The image programmed and verified (R193). -/

theorem Memory.read_filter_ge {low : Nat} {m : Memory} (h : Memory.wfFrom low m = true) (k a : Nat) :
    Memory.read (m.filter fun c => decide (k ≤ c.1)) a = if k ≤ a then m.read a else erasedByte := by
  induction m generalizing low with
  | nil => simp [Memory.read]
  | cons c m ih =>
    obtain ⟨j, b⟩ := c
    have h' := Memory.wfFrom_cons.mp h
    rw [List.filter_cons]
    by_cases hk : k ≤ j
    · simp only [hk, decide_true, if_true, Memory.read, ih h'.2.2.2]
      by_cases hj : j = a
      · subst hj; simp [hk]
      · simp [hj]
    · simp only [hk, decide_false, Bool.false_eq_true, if_false, ih h'.2.2.2]
      by_cases ha : k ≤ a
      · have : j ≠ a := by omega
        simp [ha, Memory.read, this]
      · simp [ha]

theorem Memory.wfFrom_filter_ge {low : Nat} {m : Memory} (h : Memory.wfFrom low m = true) (k : Nat) :
    Memory.wfFrom k (m.filter fun c => decide (k ≤ c.1)) = true := by
  induction m generalizing low with
  | nil => rfl
  | cons c m ih =>
    obtain ⟨j, b⟩ := c
    have h' := Memory.wfFrom_cons.mp h
    rw [List.filter_cons]
    by_cases hk : k ≤ j
    · simp only [hk, decide_true, if_true]
      refine Memory.wfFrom_cons.mpr ⟨hk, h'.2.1, h'.2.2.1, ?_⟩
      have : (m.filter fun c => decide (k ≤ c.1)) = m := by
        rw [List.filter_eq_self]
        intro x hx
        have : ∀ (low : Nat) (m : Memory), Memory.wfFrom low m = true → ∀ x ∈ m, low ≤ x.1 := by
          intro low m
          induction m generalizing low with
          | nil => intro _ x hx; cases hx
          | cons y m ih =>
            obtain ⟨i, v⟩ := y
            intro hw x hx
            have hw := Memory.wfFrom_cons.mp hw
            rcases List.mem_cons.mp hx with e | hx
            · rw [e]; exact hw.1
            · have := ih (i + 1) hw.2.2.2 x hx
              omega
        have := this _ _ h'.2.2.2 x hx
        simp only [decide_eq_true_eq]
        omega
      rw [this]
      exact h'.2.2.2
    · simp only [hk, decide_false, Bool.false_eq_true, if_false]
      exact ih h'.2.2.2

theorem Memory.wfFrom_append {low mid : Nat} {m m' : Memory} (h : Memory.wfFrom low m = true)
    (hlow : low ≤ mid) (hm : ∀ c ∈ m, c.1 < mid) (h' : Memory.wfFrom mid m' = true) :
    Memory.wfFrom low (m ++ m') = true := by
  induction m generalizing low with
  | nil => exact Memory.wfFrom_mono h' hlow
  | cons c m ih =>
    obtain ⟨k, b⟩ := c
    have hk := Memory.wfFrom_cons.mp h
    have hmk : k < mid := hm (k, b) (by simp)
    exact Memory.wfFrom_cons.mpr ⟨hk.1, hk.2.1, hk.2.2.1,
      ih hk.2.2.2 (by omega) (fun c hc => hm c (by simp [hc]))⟩

theorem Memory.lt_of_mem_ofBytes {low : Nat} {bs : List Byte} {c : Host.Cell} (h : c ∈ Memory.ofBytes low bs) :
    c.1 < low + bs.length := by
  induction bs generalizing low with
  | nil => cases h
  | cons b bs ih =>
    simp only [Memory.ofBytes] at h
    simp only [List.length_cons]
    split at h
    · have := ih h; omega
    · rcases List.mem_cons.mp h with e | h
      · rw [e]; simp
      · have := ih h; omega

/-- Programming keeps the canonical form. -/
theorem Memory.wf_programmed {m : Memory} (image : List Byte) (h : m.wf = true) :
    (m.programmed image).wf = true := by
  have hlen : (image.take imageSize).length ≤ imageSize := by simp
  have hsize : imageSize ≤ storeSize := by decide
  exact Memory.wfFrom_append (mid := imageSize) (Memory.wf_ofBytes _ (by omega)) (Nat.zero_le _)
    (fun c hc => by have := Memory.lt_of_mem_ofBytes hc; omega) (Memory.wfFrom_filter_ge h _)

theorem Memory.read_append_left {m m' : Memory} {a : Nat} (h : ∀ c ∈ m', c.1 ≠ a) :
    (m ++ m').read a = m.read a := by
  induction m with
  | nil =>
    induction m' with
    | nil => rfl
    | cons c m' ih =>
      obtain ⟨k, b⟩ := c
      have hk : k ≠ a := h (k, b) (by simp)
      simp only [List.nil_append] at ih ⊢
      simp only [Memory.read, hk, if_false]
      exact ih fun c hc => h c (by simp [hc])
  | cons c m ih =>
    obtain ⟨k, b⟩ := c
    simp only [List.cons_append, Memory.read, ih]

/-- A programmed byte reads as the image has it. -/
theorem Memory.read_programmed (m : Memory) (image : List Byte) {a : Nat} (ha : a < imageSize) :
    (m.programmed image).read a = image.getD a erasedByte := by
  unfold Memory.programmed
  rw [Memory.read_append_left, Memory.read_ofBytes]
  · simp [List.getD_eq_getElem?_getD, ha]
  · intro c hc
    have := (List.mem_filter.mp hc).2
    simp only [decide_eq_true_eq] at this
    omega

/-- Verification compares every byte with the image followed by erased bytes. -/
theorem Memory.agrees_iff {m : Memory} (h : m.wf = true) (image : List Byte) :
    m.agrees image = true ↔ ∀ a, m.read a = (image.take imageSize).getD a erasedByte := by
  have hlen : (image.take imageSize).length ≤ storeSize :=
    le_trans (by simp : _ ≤ imageSize) (by decide)
  constructor
  · intro e a
    have e : m = Memory.ofBytes 0 (image.take imageSize) := by simpa [Memory.agrees] using e
    rw [e, Memory.read_ofBytes]
    simp
  · intro e
    have : m = Memory.ofBytes 0 (image.take imageSize) := by
      apply Memory.ext_read h (Memory.wf_ofBytes _ hlen)
      intro a
      rw [e, Memory.read_ofBytes]
      simp
    simp [Memory.agrees, this.symm]

end Sys2Proof.Machine
end

