-- ==== Sys2Proof/Laws/Service.lean ====
section
/-! SUPPORT. What the grant, the completion and the two kinds of service do, said once. -/

namespace Sys2Proof.Machine

/-! The completion (R66). -/

@[simp] theorem State.finish_pending (s : State) (w : Svc) : (s.finish w).pending = s.pending := by
  simp [State.finish]
@[simp] theorem State.finish_resetHeld (s : State) (w : Svc) : (s.finish w).resetHeld = s.resetHeld := by
  simp [State.finish]
@[simp] theorem State.finish_mode (s : State) (w : Svc) : (s.finish w).mode = s.mode := by
  simp [State.finish]
@[simp] theorem State.finish_owner (s : State) (w : Svc) : (s.finish w).owner = s.owner := by
  simp [State.finish]
@[simp] theorem State.finish_resetCause (s : State) (w : Svc) : (s.finish w).resetCause = s.resetCause := by
  simp [State.finish]
@[simp] theorem State.finish_storeFault (s : State) (w : Svc) : (s.finish w).storeFault = s.storeFault := by
  simp [State.finish]
@[simp] theorem State.finish_startOperate (s : State) (w : Svc) : (s.finish w).startOperate = s.startOperate := by
  simp [State.finish]
@[simp] theorem State.finish_config (s : State) (w : Svc) : (s.finish w).config = s.config := by
  simp [State.finish]
@[simp] theorem State.finish_store (s : State) (w : Svc) : (s.finish w).store = s.store := by
  simp [State.finish]
@[simp] theorem State.finish_saveMark (s : State) (w : Svc) : (s.finish w).saveMark = s.saveMark := by
  simp [State.finish]
@[simp] theorem State.finish_storeOp (s : State) (w : Svc) : (s.finish w).storeOp = s.storeOp := by
  simp [State.finish]
@[simp] theorem State.finish_pointer (s : State) (w : Svc) : (s.finish w).pointer = s.pointer := by
  simp [State.finish]
@[simp] theorem State.finish_table (s : State) (w : Svc) : (s.finish w).table = s.table := by
  simp [State.finish]
@[simp] theorem State.finish_lines (s : State) (w : Svc) : (s.finish w).lines = s.lines := by
  simp [State.finish]
@[simp] theorem State.finish_counter (s : State) (w : Svc) : (s.finish w).counter = s.counter := by
  simp [State.finish]
@[simp] theorem State.finish_latch (s : State) (w : Svc) : (s.finish w).latch = s.latch := by
  simp [State.finish]
@[simp] theorem State.finish_display (s : State) (w : Svc) : (s.finish w).display = s.display := by
  simp [State.finish]
@[simp] theorem State.finish_freeCount (s : State) (w : Svc) : (s.finish w).freeCount = s.freeCount := by
  simp [State.finish]
@[simp] theorem State.finish_engine (s : State) (w : Svc) : (s.finish w).engine = .free := by
  simp [State.finish]

@[simp] theorem State.respond_pending (s : State) (p : PortId) (a : Answer) : (s.respond p a).pending = s.pending := rfl
@[simp] theorem State.respond_resetHeld (s : State) (p : PortId) (a : Answer) : (s.respond p a).resetHeld = s.resetHeld := rfl
@[simp] theorem State.respond_mode (s : State) (p : PortId) (a : Answer) : (s.respond p a).mode = s.mode := rfl
@[simp] theorem State.respond_owner (s : State) (p : PortId) (a : Answer) : (s.respond p a).owner = s.owner := rfl
@[simp] theorem State.respond_resetCause (s : State) (p : PortId) (a : Answer) : (s.respond p a).resetCause = s.resetCause := rfl
@[simp] theorem State.respond_storeFault (s : State) (p : PortId) (a : Answer) : (s.respond p a).storeFault = s.storeFault := rfl
@[simp] theorem State.respond_startOperate (s : State) (p : PortId) (a : Answer) : (s.respond p a).startOperate = s.startOperate := rfl
@[simp] theorem State.respond_config (s : State) (p : PortId) (a : Answer) : (s.respond p a).config = s.config := rfl
@[simp] theorem State.respond_store (s : State) (p : PortId) (a : Answer) : (s.respond p a).store = s.store := rfl
@[simp] theorem State.respond_saveMark (s : State) (p : PortId) (a : Answer) : (s.respond p a).saveMark = s.saveMark := rfl
@[simp] theorem State.respond_storeOp (s : State) (p : PortId) (a : Answer) : (s.respond p a).storeOp = s.storeOp := rfl
@[simp] theorem State.respond_pointer (s : State) (p : PortId) (a : Answer) : (s.respond p a).pointer = s.pointer := rfl
@[simp] theorem State.respond_lines (s : State) (p : PortId) (a : Answer) : (s.respond p a).lines = s.lines := rfl
@[simp] theorem State.respond_counter (s : State) (p : PortId) (a : Answer) : (s.respond p a).counter = s.counter := rfl
@[simp] theorem State.respond_latch (s : State) (p : PortId) (a : Answer) : (s.respond p a).latch = s.latch := rfl
@[simp] theorem State.respond_display (s : State) (p : PortId) (a : Answer) : (s.respond p a).display = s.display := rfl
@[simp] theorem State.respond_freeCount (s : State) (p : PortId) (a : Answer) : (s.respond p a).freeCount = s.freeCount := rfl
@[simp] theorem State.respond_table (s : State) (p : PortId) (a : Answer) : (s.respond p a).table = s.table := rfl
@[simp] theorem State.respond_queue (s : State) (p : PortId) (a : Answer) : (s.respond p a).queue = s.queue := rfl

@[simp] theorem State.complete_pending (s : State) (w : Svc) : (s.complete w).pending = s.pending := by
  simp [State.complete]
@[simp] theorem State.completeWith_pending (s : State) (p : PortId) (w : Svc) (a : Answer) :
    (s.completeWith p w a).pending = s.pending := by
  simp [State.completeWith]
@[simp] theorem State.complete_resetHeld (s : State) (w : Svc) : (s.complete w).resetHeld = s.resetHeld := by
  simp [State.complete]
@[simp] theorem State.completeWith_resetHeld (s : State) (p : PortId) (w : Svc) (a : Answer) :
    (s.completeWith p w a).resetHeld = s.resetHeld := by
  simp [State.completeWith]
@[simp] theorem State.complete_mode (s : State) (w : Svc) : (s.complete w).mode = s.mode := by
  simp [State.complete]
@[simp] theorem State.completeWith_mode (s : State) (p : PortId) (w : Svc) (a : Answer) :
    (s.completeWith p w a).mode = s.mode := by
  simp [State.completeWith]
@[simp] theorem State.complete_owner (s : State) (w : Svc) : (s.complete w).owner = s.owner := by
  simp [State.complete]
@[simp] theorem State.completeWith_owner (s : State) (p : PortId) (w : Svc) (a : Answer) :
    (s.completeWith p w a).owner = s.owner := by
  simp [State.completeWith]
@[simp] theorem State.complete_resetCause (s : State) (w : Svc) : (s.complete w).resetCause = s.resetCause := by
  simp [State.complete]
@[simp] theorem State.completeWith_resetCause (s : State) (p : PortId) (w : Svc) (a : Answer) :
    (s.completeWith p w a).resetCause = s.resetCause := by
  simp [State.completeWith]
@[simp] theorem State.complete_storeFault (s : State) (w : Svc) : (s.complete w).storeFault = s.storeFault := by
  simp [State.complete]
@[simp] theorem State.completeWith_storeFault (s : State) (p : PortId) (w : Svc) (a : Answer) :
    (s.completeWith p w a).storeFault = s.storeFault := by
  simp [State.completeWith]
@[simp] theorem State.complete_startOperate (s : State) (w : Svc) : (s.complete w).startOperate = s.startOperate := by
  simp [State.complete]
@[simp] theorem State.completeWith_startOperate (s : State) (p : PortId) (w : Svc) (a : Answer) :
    (s.completeWith p w a).startOperate = s.startOperate := by
  simp [State.completeWith]
@[simp] theorem State.complete_config (s : State) (w : Svc) : (s.complete w).config = s.config := by
  simp [State.complete]
@[simp] theorem State.completeWith_config (s : State) (p : PortId) (w : Svc) (a : Answer) :
    (s.completeWith p w a).config = s.config := by
  simp [State.completeWith]
@[simp] theorem State.complete_store (s : State) (w : Svc) : (s.complete w).store = s.store := by
  simp [State.complete]
@[simp] theorem State.completeWith_store (s : State) (p : PortId) (w : Svc) (a : Answer) :
    (s.completeWith p w a).store = s.store := by
  simp [State.completeWith]
@[simp] theorem State.complete_saveMark (s : State) (w : Svc) : (s.complete w).saveMark = s.saveMark := by
  simp [State.complete]
@[simp] theorem State.completeWith_saveMark (s : State) (p : PortId) (w : Svc) (a : Answer) :
    (s.completeWith p w a).saveMark = s.saveMark := by
  simp [State.completeWith]
@[simp] theorem State.complete_storeOp (s : State) (w : Svc) : (s.complete w).storeOp = s.storeOp := by
  simp [State.complete]
@[simp] theorem State.completeWith_storeOp (s : State) (p : PortId) (w : Svc) (a : Answer) :
    (s.completeWith p w a).storeOp = s.storeOp := by
  simp [State.completeWith]
@[simp] theorem State.complete_pointer (s : State) (w : Svc) : (s.complete w).pointer = s.pointer := by
  simp [State.complete]
@[simp] theorem State.completeWith_pointer (s : State) (p : PortId) (w : Svc) (a : Answer) :
    (s.completeWith p w a).pointer = s.pointer := by
  simp [State.completeWith]
@[simp] theorem State.complete_lines (s : State) (w : Svc) : (s.complete w).lines = s.lines := by
  simp [State.complete]
@[simp] theorem State.completeWith_lines (s : State) (p : PortId) (w : Svc) (a : Answer) :
    (s.completeWith p w a).lines = s.lines := by
  simp [State.completeWith]
@[simp] theorem State.complete_counter (s : State) (w : Svc) : (s.complete w).counter = s.counter := by
  simp [State.complete]
@[simp] theorem State.completeWith_counter (s : State) (p : PortId) (w : Svc) (a : Answer) :
    (s.completeWith p w a).counter = s.counter := by
  simp [State.completeWith]
@[simp] theorem State.complete_latch (s : State) (w : Svc) : (s.complete w).latch = s.latch := by
  simp [State.complete]
@[simp] theorem State.completeWith_latch (s : State) (p : PortId) (w : Svc) (a : Answer) :
    (s.completeWith p w a).latch = s.latch := by
  simp [State.completeWith]
@[simp] theorem State.complete_display (s : State) (w : Svc) : (s.complete w).display = s.display := by
  simp [State.complete]
@[simp] theorem State.completeWith_display (s : State) (p : PortId) (w : Svc) (a : Answer) :
    (s.completeWith p w a).display = s.display := by
  simp [State.completeWith]
@[simp] theorem State.complete_freeCount (s : State) (w : Svc) : (s.complete w).freeCount = s.freeCount := by
  simp [State.complete]
@[simp] theorem State.completeWith_freeCount (s : State) (p : PortId) (w : Svc) (a : Answer) :
    (s.completeWith p w a).freeCount = s.freeCount := by
  simp [State.completeWith]

@[simp] theorem State.complete_engine (s : State) (w : Svc) : (s.complete w).engine = .free := by
  simp [State.complete]

@[simp] theorem State.completeWith_engine (s : State) (p : PortId) (w : Svc) (a : Answer) :
    (s.completeWith p w a).engine = .free := by
  simp [State.completeWith]

@[simp] theorem State.complete_table (s : State) (w : Svc) : (s.complete w).table = w.settle s.config := by
  simp [State.complete]

@[simp] theorem State.completeWith_table (s : State) (p : PortId) (w : Svc) (a : Answer) :
    (s.completeWith p w a).table = w.settle s.config := by
  simp [State.completeWith]

/-! The ports after a completion. -/

@[simp] theorem State.port_judgeShelf (s : State) (q : PortId) : s.judgeShelf.port q = s.port q := by
  unfold State.judgeShelf; split <;> [rfl; (split <;> rfl)]

/-- A port after the events of a completion, in their order (R67). -/
def Port.notified (x : Port) (w : Svc) : Port :=
  let x := x.fireWatch w.touched
  let x := if w.alert then x.post .recordAlert else x
  let x := if w.change then x.post .recordChange else x
  let x := if w.tableFull then x.post .tableFull else x
  if w.modeChange then x.post .modeChange else x

theorem State.port_finish (s : State) (w : Svc) (q : PortId) : (s.finish w).port q = (s.port q).notified w := by
  simp only [State.finish, State.port_judgeShelf, Port.notified]
  change ((((_ : State).postBothIf _ _).port q)) = _
  simp only [State.port_postBothIf, State.port_onPorts]

@[simp] theorem Port.notified_mailbox (x : Port) (w : Svc) : (x.notified w).mailbox = x.mailbox := by
  simp only [Port.notified]; repeat' split
  all_goals simp
@[simp] theorem Port.notified_buffer (x : Port) (w : Svc) : (x.notified w).buffer = x.buffer := by
  simp only [Port.notified]; repeat' split
  all_goals simp
@[simp] theorem Port.notified_respReady (x : Port) (w : Svc) : (x.notified w).respReady = x.respReady := by
  simp only [Port.notified]; repeat' split
  all_goals simp
@[simp] theorem Port.notified_refused (x : Port) (w : Svc) : (x.notified w).refused = x.refused := by
  simp only [Port.notified]; repeat' split
  all_goals simp
@[simp] theorem Port.notified_enable (x : Port) (w : Svc) : (x.notified w).enable = x.enable := by
  simp only [Port.notified]; repeat' split
  all_goals simp
@[simp] theorem Port.notified_timer (x : Port) (w : Svc) : (x.notified w).timer = x.timer := by
  simp only [Port.notified]; repeat' split
  all_goals simp
@[simp] theorem Port.notified_lapse (x : Port) (w : Svc) : (x.notified w).lapse = x.lapse := by
  simp only [Port.notified]; repeat' split
  all_goals simp
@[simp] theorem Port.notified_frame (x : Port) (w : Svc) : (x.notified w).frame = x.frame := by
  simp only [Port.notified]; repeat' split
  all_goals simp
@[simp] theorem Port.notified_out (x : Port) (w : Svc) : (x.notified w).out = x.out := by
  simp only [Port.notified]; repeat' split
  all_goals simp

theorem State.port_complete (s : State) (w : Svc) (q : PortId) : (s.complete w).port q = (s.port q).notified w := by
  simp only [State.complete, State.port_finish]; rfl

/-- The response that a completion delivers (R66, step 4). -/
def State.responseOf (s : State) (w : Svc) (a : Answer) : List Byte :=
  responseBytes s.config (w.settle s.config) s.counter a

theorem State.port_completeWith_self (s : State) (p : PortId) (w : Svc) (a : Answer) :
    (s.completeWith p w a).port p = ((s.port p).deliver (s.responseOf w a)).notified w := by
  simp only [State.completeWith, State.port_finish, State.respond, State.port_onPort]; rfl

theorem State.port_completeWith_ne (s : State) {p q : PortId} (w : Svc) (a : Answer) (h : q ≠ p) :
    (s.completeWith p w a).port q = (s.port q).notified w := by
  simp only [State.completeWith, State.port_finish, State.respond, State.port_onPort_ne _ _ h]; rfl

/-- The Work Queue after the Shelf Timer's judgement (R124). -/
theorem State.judgeShelf_queue (s : State) :
    s.judgeShelf.queue = s.queue ∨ s.judgeShelf.queue = s.queue ++ [.shelfDue] := by
  unfold State.judgeShelf
  split
  · exact .inl rfl
  · split
    · simp only [State.post, Machine.post]
      split
      · exact .inl rfl
      · exact .inr rfl
    · exact .inl rfl

theorem State.finish_queue (s : State) (w : Svc) :
    (s.finish w).queue = s.queue ∨ (s.finish w).queue = s.queue ++ [.shelfDue] := by
  have h : ∀ t : State, t.queue = s.queue →
      t.judgeShelf.queue = s.queue ∨ t.judgeShelf.queue = s.queue ++ [.shelfDue] := by
    intro t ht
    rw [← ht]
    exact t.judgeShelf_queue
  apply h
  simp

theorem State.complete_queue (s : State) (w : Svc) :
    (s.complete w).queue = s.queue ∨ (s.complete w).queue = s.queue ++ [.shelfDue] :=
  State.finish_queue _ w

theorem State.completeWith_queue (s : State) (p : PortId) (w : Svc) (a : Answer) :
    (s.completeWith p w a).queue = s.queue ∨ (s.completeWith p w a).queue = s.queue ++ [.shelfDue] := by
  have := State.finish_queue ((({ s with table := w.settle s.config } : State).respond p a)) w
  simpa [State.completeWith] using this

/-! Settling (R66, steps 1 to 3). -/

@[simp] theorem Svc.settle_entries (w : Svc) (cfg : ConfigMem) : (w.settle cfg).entries = w.tab.entries := rfl
@[simp] theorem Svc.settle_rank (w : Svc) (cfg : ConfigMem) : (w.settle cfg).rank = w.tab.rank := rfl
@[simp] theorem Svc.settle_waiting (w : Svc) (cfg : ConfigMem) : (w.settle cfg).waiting = w.tab.waiting := rfl
@[simp] theorem Svc.settle_shelf (w : Svc) (cfg : ConfigMem) : (w.settle cfg).shelf = w.tab.shelf := rfl
@[simp] theorem Svc.settle_groups (w : Svc) (cfg : ConfigMem) : (w.settle cfg).groups = w.tab.groups := rfl
@[simp] theorem Svc.settle_slots (w : Svc) (cfg : ConfigMem) : (w.settle cfg).slots = w.tab.allocate cfg := rfl

theorem bumpRevisions_cons (p : Point) (ps : List Point) (b : Bank PointLive 252) :
    bumpRevisions (p :: ps) b = bumpRevisions ps (b.set p { b.get p with revision := (b.get p).revision + 1 }) := rfl

/-- The revision of a point that is not touched stays. -/
theorem bumpRevisions_of_not_mem (ps : List Point) (b : Bank PointLive 252) (x : Point) (h : x ∉ ps) :
    (bumpRevisions ps b).get x = b.get x := by
  induction ps generalizing b with
  | nil => rfl
  | cons p ps ih =>
    rw [bumpRevisions_cons, ih _ (fun hm => h (List.mem_cons_of_mem _ hm)), Bank.get_set_ne]
    exact fun e => h (e ▸ List.mem_cons_self)

/-- The revision of a point touched once increases by one. -/
theorem bumpRevisions_of_mem (ps : List Point) (b : Bank PointLive 252) (x : Point) (h : x ∈ ps) (hn : ps.Nodup) :
    (bumpRevisions ps b).get x = { b.get x with revision := (b.get x).revision + 1 } := by
  induction ps generalizing b with
  | nil => cases h
  | cons p ps ih =>
    rw [bumpRevisions_cons]
    rw [List.nodup_cons] at hn
    by_cases hx : x = p
    · subst hx
      rw [bumpRevisions_of_not_mem _ _ _ hn.1, Bank.get_set_self]
    · have hm : x ∈ ps := by
        rcases List.mem_cons.mp h with e | e
        · exact absurd e hx
        · exact e
      rw [ih _ hm hn.2, Bank.get_set_ne _ _ hx]

/-- Whatever is touched, the bump changes revisions only. -/
theorem bumpRevisions_fields (ps : List Point) (b : Bank PointLive 252) (x : Point) :
    ((bumpRevisions ps b).get x).inhibited = (b.get x).inhibited
      ∧ ((bumpRevisions ps b).get x).condition = (b.get x).condition
      ∧ ((bumpRevisions ps b).get x).link = (b.get x).link
      ∧ ((bumpRevisions ps b).get x).waiting = (b.get x).waiting := by
  induction ps generalizing b with
  | nil => exact ⟨rfl, rfl, rfl, rfl⟩
  | cons p ps ih =>
    rw [bumpRevisions_cons]
    obtain ⟨h1, h2, h3, h4⟩ := ih (b.set p { b.get p with revision := (b.get p).revision + 1 })
    rw [h1, h2, h3, h4, Bank.get_set]
    split <;> simp_all

@[simp] theorem Svc.settle_live_inhibited (w : Svc) (cfg : ConfigMem) (x : Point) :
    ((w.settle cfg).live x).inhibited = (w.tab.live x).inhibited := (bumpRevisions_fields _ _ x).1
@[simp] theorem Svc.settle_live_condition (w : Svc) (cfg : ConfigMem) (x : Point) :
    ((w.settle cfg).live x).condition = (w.tab.live x).condition := (bumpRevisions_fields _ _ x).2.1
@[simp] theorem Svc.settle_live_link (w : Svc) (cfg : ConfigMem) (x : Point) :
    ((w.settle cfg).live x).link = (w.tab.live x).link := (bumpRevisions_fields _ _ x).2.2.1
@[simp] theorem Svc.settle_live_waiting (w : Svc) (cfg : ConfigMem) (x : Point) :
    ((w.settle cfg).live x).waiting = (w.tab.live x).waiting := (bumpRevisions_fields _ _ x).2.2.2

@[simp] theorem Svc.settle_recordOf (w : Svc) (cfg : ConfigMem) (x : Point) :
    (w.settle cfg).recordOf x = w.tab.recordOf x := by
  simp only [Table.recordOf, Svc.settle_live_link, Svc.settle_entries]

theorem Svc.settle_revision_of_not_mem (w : Svc) (cfg : ConfigMem) (x : Point) (h : x ∉ w.touched) :
    ((w.settle cfg).live x).revision = (w.tab.live x).revision := by
  simp only [Table.live, Svc.settle, bumpRevisions_of_not_mem _ _ _ h]

theorem Svc.settle_revision_of_mem (w : Svc) (cfg : ConfigMem) (x : Point) (h : x ∈ w.touched) (hn : w.touched.Nodup) :
    ((w.settle cfg).live x).revision = (w.tab.live x).revision + 1 := by
  simp only [Table.live, Svc.settle, bumpRevisions_of_mem _ _ _ h hn]

/-! Services taken. -/

/-- What a granted request's command comes to (R62 to R66). -/
theorem State.serveBy_of_grants {s : State} {p : PortId} {r : Request} (h : s.Grants p r) (code : Byte → Bool)
    (f : Request → State → State) (hc : code r.code = true) :
    unlessHeld s (s.serveBy p code f) = .next (f r (s.grantMailbox p r)) := by
  obtain ⟨h0, h1⟩ := h
  simp [unlessHeld, State.serveBy, h0, h1, hc]

theorem State.serve_of_grants {s : State} {p : PortId} {r : Request} (h : s.Grants p r) (code : Byte → Bool)
    (body : Request → State → Reply) (hc : code r.code = true) :
    unlessHeld s (s.serve p code body) = .next (answerWith p body r (s.grantMailbox p r)) :=
  State.serveBy_of_grants h code _ hc

/-- What a granted item's command comes to (R65). -/
theorem State.serveItem_of_grants {s : State} {x : WorkSource} (h : s.GrantsItem x) (body : State → State) :
    unlessHeld s (s.serveItem x body) = .next (body s.grantItem) := by
  obtain ⟨h0, h1⟩ := h
  simp [unlessHeld, State.serveItem, h0, h1]

/-- A request service either does not occur or is the service of the request granted. -/
theorem State.serveBy_cases (s : State) (p : PortId) (code : Byte → Bool) (f : Request → State → State) :
    s.serveBy p code f = s ∨ ∃ r, s.grantedRequest p = some r ∧ code r.code = true
      ∧ s.serveBy p code f = f r (s.grantMailbox p r) := by
  unfold State.serveBy
  split
  · exact .inl rfl
  · next r hr =>
    split
    · next hc => exact .inr ⟨r, hr, hc, rfl⟩
    · exact .inl rfl

theorem State.serveItem_cases (s : State) (x : WorkSource) (body : State → State) :
    s.serveItem x body = s ∨ (s.grantedItem = some x ∧ s.serveItem x body = body s.grantItem) := by
  unfold State.serveItem
  split
  · next h => exact .inr ⟨h, rfl⟩
  · exact .inl rfl

end Sys2Proof.Machine
end

