-- ==== Sys2Proof/Laws/Validation.lean ====
section
/-! SUPPORT. The seven checks of validation as the model makes them and as the statements say them (R187). -/

namespace Sys2Proof.Machine

theorem noRepeats_iff {α : Type} [DecidableEq α] (l : List α) : noRepeats l = true ↔ l.Nodup := by
  induction l with
  | nil => simp [noRepeats]
  | cons x xs ih => simp [noRepeats, ih]

/-- A list read off a list without repeats has none itself exactly when no two of its elements give the same. -/
theorem nodup_filterMap_iff {α β : Type} {f : α → Option β} {l : List α} (hl : l.Nodup) :
    (l.filterMap f).Nodup ↔ ∀ a ∈ l, ∀ b ∈ l, ∀ y, f a = some y → f b = some y → a = b := by
  induction l with
  | nil => simp
  | cons x xs ih =>
    rw [List.nodup_cons] at hl
    rcases h : f x with _ | y
    · rw [List.filterMap_cons_none h, ih hl.2]
      constructor
      · intro H a ha b hb z h1 h2
        rcases List.mem_cons.mp ha with rfl | ha'
        · rw [h] at h1; cases h1
        · rcases List.mem_cons.mp hb with rfl | hb'
          · rw [h] at h2; cases h2
          · exact H a ha' b hb' z h1 h2
      · exact fun H a ha b hb => H a (List.mem_cons_of_mem _ ha) b (List.mem_cons_of_mem _ hb)
    · rw [List.filterMap_cons_some h, List.nodup_cons, ih hl.2]
      constructor
      · rintro ⟨hy, H⟩ a ha b hb z h1 h2
        rcases List.mem_cons.mp ha with rfl | ha'
        · rcases List.mem_cons.mp hb with rfl | hb'
          · rfl
          · rw [h] at h1; cases h1
            exact absurd (List.mem_filterMap.mpr ⟨b, hb', h2⟩) hy
        · rcases List.mem_cons.mp hb with rfl | hb'
          · rw [h] at h2; cases h2
            exact absurd (List.mem_filterMap.mpr ⟨a, ha', h1⟩) hy
          · exact H a ha' b hb' z h1 h2
      · intro H
        refine ⟨?_, fun a ha b hb => H a (List.mem_cons_of_mem _ ha) b (List.mem_cons_of_mem _ hb)⟩
        rw [List.mem_filterMap]
        rintro ⟨b, hb, h2⟩
        exact hl.1 (H x List.mem_cons_self b (List.mem_cons_of_mem _ hb) y h h2 ▸ hb)

/-- A list without repeats has at most one element exactly when all its elements are the same. -/
theorem length_le_one_iff {α : Type} {l : List α} (hl : l.Nodup) : l.length ≤ 1 ↔ ∀ a ∈ l, ∀ b ∈ l, a = b := by
  match l, hl with
  | [], _ => simp
  | [x], _ => simp
  | x :: y :: l, hl =>
    simp only [List.nodup_cons, List.mem_cons, not_or] at hl
    constructor
    · intro h
      simp only [List.length_cons] at h
      omega
    · exact fun H => absurd (H x (by simp) y (by simp)) hl.1.1

/-- A list read off a bank has no repeats exactly when no two indexes give the same. -/
theorem Bank.nodup_filterMap {α β : Type} {n : Nat} (b : Bank α n) (f : α → Option β) :
    (b.items.filterMap f).Nodup ↔ ∀ i j y, f (b.get i) = some y → f (b.get j) = some y → i = j := by
  rw [b.items_eq_map, List.filterMap_map, nodup_filterMap_iff (List.nodup_finRange n)]
  simp

/-- The line that a source names. -/
def lineNamed : PointSource → Option (Fin 16)
  | .line n => some n
  | .none => none
  | .port => none
  | .system => none

theorem lineNamed_eq {x : PointSource} {n : Fin 16} : lineNamed x = some n ↔ x = .line n := by
  cases x <;> simp [lineNamed]

theorem ConfigMem.namedLines_eq (c : ConfigMem) :
    c.namedLines = c.points.items.filterMap fun d => lineNamed d.source := rfl

/-- What the map's entries of one role give. -/
theorem ConfigMem.rolesOf_filterMap {β : Type} (c : ConfigMem) (r : SlotRole) (f : SlotEntry → Option β) :
    (c.rolesOf r).filterMap f = c.slots.items.filterMap fun e => if e.role = r then f e else none := by
  rw [ConfigMem.rolesOf, List.filterMap_filter]
  congr 1
  funext e
  by_cases h : e.role = r <;> simp [h]

theorem ConfigMem.mem_rolesOf (c : ConfigMem) (r : SlotRole) (e : SlotEntry) :
    e ∈ c.rolesOf r ↔ ∃ i, c.slots.get i = e ∧ e.role = r := by
  simp only [ConfigMem.rolesOf, List.mem_filter, Bank.mem_items, beq_iff_eq]
  exact ⟨fun ⟨⟨i, h⟩, k⟩ => ⟨i, h, k⟩, fun ⟨i, h, k⟩ => ⟨⟨i, h⟩, k⟩⟩

theorem ConfigMem.length_rolesOf_le_one (c : ConfigMem) (r : SlotRole) : (c.rolesOf r).length ≤ 1 ↔
    ∀ i j, (c.slots.get i).role = r → (c.slots.get j).role = r → i = j := by
  have h : (c.rolesOf r).length = ((List.finRange 64).filter fun i => (c.slots.get i).role == r).length :=
    c.slots.length_filter_items fun e => e.role == r
  rw [h, length_le_one_iff ((List.nodup_finRange 64).filter _)]
  simp only [List.mem_filter, List.mem_finRange, true_and, beq_iff_eq]
  exact ⟨fun H i j hi hj => H i hi j hj, fun H i hi j hj => H i j hi hj⟩

/-- Each check is what R187 says it tests. -/
theorem ConfigMem.check_iff (c : ConfigMem) (i : Fin 7) : c.checks.getD i.val true = true ↔ c.Passes i := by
  match i with
  | 0 =>
    simp only [ConfigMem.checks, ConfigMem.Passes, List.getD_cons_zero, Fin.val_zero, List.all_eq_true, beq_iff_eq,
      ConfigMem.namedLines_eq, List.mem_filterMap, lineNamed_eq, Bank.mem_items]
    constructor
    · exact fun H x n h => H n ⟨_, ⟨x, rfl⟩, h⟩
    · rintro H n ⟨_, ⟨x, rfl⟩, h⟩
      exact H x n h
  | 1 =>
    simp only [ConfigMem.checks, ConfigMem.Passes, ConfigMem.namedLines_eq]
    show noRepeats _ = true ↔ _
    rw [noRepeats_iff, Bank.nodup_filterMap]
    simp only [lineNamed_eq]
    rfl
  | 2 =>
    show noRepeats (((c.rolesOf .dedicated).map (·.operand)).filterMap pointOfByte) = true ↔ _
    rw [noRepeats_iff, List.filterMap_map, ConfigMem.rolesOf_filterMap, Bank.nodup_filterMap]
    have h : ∀ i x, (if (c.slots.get i).role = .dedicated then (pointOfByte ∘ (·.operand)) (c.slots.get i)
        else none) = some x ↔ c.slots.get i = ⟨.dedicated, byteOfPoint x⟩ := by
      intro i x
      rcases c.slots.get i with ⟨role, b⟩
      by_cases hr : role = .dedicated
      · subst hr
        simp only [if_true, Function.comp, SlotEntry.mk.injEq, true_and]
        exact ⟨fun h => (byteOfPoint_of_pointOfByte h).symm, fun h => h ▸ pointOfByte_byteOfPoint x⟩
      · simp [hr]
    simp only [h]
    rfl
  | 3 =>
    show ((c.rolesOf .dedicated).map (·.operand)).all c.namesDefined = true ↔ _
    simp only [List.all_eq_true, List.mem_map, ConfigMem.mem_rolesOf, ConfigMem.Passes]
    have h : ∀ b, c.namesDefined b = true ↔
        ∃ x, b = byteOfPoint x ∧ (isSystem x = true ∨ (c.point x).source ≠ .none) := by
      intro b
      simp only [ConfigMem.namesDefined, ConfigMem.defined]
      rcases hb : pointOfByte b with _ | x
      · simp only [Bool.false_eq_true, false_iff, not_exists, not_and]
        rintro x rfl
        rw [pointOfByte_byteOfPoint] at hb
        cases hb
      · simp only [Bool.or_eq_true, decide_eq_true_eq]
        constructor
        · exact fun h => ⟨x, (byteOfPoint_of_pointOfByte hb).symm, h⟩
        · rintro ⟨y, rfl, h⟩
          rw [pointOfByte_byteOfPoint] at hb
          cases hb
          exact h
    constructor
    · exact fun H i hi => (h _).mp (H _ ⟨_, ⟨i, rfl, hi⟩, rfl⟩)
    · rintro H b ⟨e, ⟨i, rfl, hi⟩, rfl⟩
      exact (h _).mpr (H i hi)
  | 4 =>
    show (((c.rolesOf .pool).map (·.operand.toNat)).all (fun k => decide (k < ((c.rolesOf .pool).map
      (·.operand.toNat)).length)) && noRepeats ((c.rolesOf .pool).map (·.operand.toNat))) = true ↔ _
    have hp : (c.rolesOf .pool).length = c.poolSlots := c.poolSize_eq
    have hm : (c.rolesOf .pool).map (·.operand.toNat) =
        c.slots.items.filterMap fun e => if e.role = .pool then some e.operand.toNat else none := by
      rw [← List.filterMap_eq_map, ConfigMem.rolesOf_filterMap]
      rfl
    simp only [Bool.and_eq_true, List.length_map, hp, noRepeats_iff, List.all_eq_true, List.mem_map,
      ConfigMem.mem_rolesOf, decide_eq_true_eq]
    rw [hm, Bank.nodup_filterMap]
    have h : ∀ i k, (if (c.slots.get i).role = .pool then some (c.slots.get i).operand.toNat else none) = some k ↔
        (c.slots.get i).role = .pool ∧ (c.slots.get i).operand.toNat = k := by
      intro i k
      by_cases hr : (c.slots.get i).role = .pool <;> simp [hr]
    simp only [h]
    constructor
    · rintro ⟨H1, H2⟩
      refine ⟨fun i hi => H1 _ ⟨_, ⟨i, rfl, hi⟩, rfl⟩, fun i j hi hj e => H2 i j _ ⟨hi, rfl⟩ ⟨hj, ?_⟩⟩
      rw [e]
    · rintro ⟨H1, H2⟩
      refine ⟨?_, fun i j k hi hj => H2 i j hi.1 hj.1 (BitVec.eq_of_toNat_eq (hi.2.trans hj.2.symm))⟩
      rintro _ ⟨_, ⟨i, rfl, hi⟩, rfl⟩
      exact H1 i hi
  | 5 =>
    show (decide _ && decide _ && decide _) = true ↔ _
    simp only [Bool.and_eq_true, decide_eq_true_eq, ConfigMem.length_rolesOf_le_one]
    constructor
    · rintro ⟨⟨H1, H2⟩, H3⟩ i j e h
      rcases h with h | h | h
      · exact H1 i j h (e ▸ h)
      · exact H2 i j h (e ▸ h)
      · exact H3 i j h (e ▸ h)
    · exact fun H => ⟨⟨fun i j h k => H i j (h.trans k.symm) (.inl h),
        fun i j h k => H i j (h.trans k.symm) (.inr (.inl h))⟩,
        fun i j h k => H i j (h.trans k.symm) (.inr (.inr h))⟩
  | 6 =>
    show (decide _ && (decide _ || Option.isSome _)) = true ↔ _
    have h : c.sensorSlot.isSome = true ↔ ∃ i, (c.slots.get i).role = .sensor := by
      rw [Option.isSome_iff_ne_none, ConfigMem.sensorSlot, ne_eq, Bank.find?_eq_none]
      simp
    simp only [Bool.and_eq_true, Bool.or_eq_true, decide_eq_true_eq, h]
    constructor
    · exact fun ⟨h1, h2⟩ => ⟨h1, fun hm => h2.resolve_left (fun k => k hm)⟩
    · exact fun ⟨h1, h2⟩ => ⟨h1, Decidable.not_or_of_imp h2⟩

end Sys2Proof.Machine
end

