-- ==== Sys2Proof/WellFormed.lean ====
section
/-! DEFINITION. Which commands are well formed: those whose operands name something that can happen at the part.
`exec` gives every command a meaning; an ill-formed one changes nothing, or ends as the cut-short frame that it is. -/

namespace Sys2Proof

open Sys2Proof.Machine

/-- The bytes of a whole frame of kind `kind` suffice for it (R161): code, length and operands; an address; an address
and whole pairs. -/
def wholeWf : FrameKind → List Byte → Bool
  | .request, bs => (requestOf bs).isSome
  | .windowRead, bs => decide (2 ≤ bs.length)
  | .windowWrite, bs => decide (2 ≤ bs.length) && decide (bs.length % 2 = 0)
  | .responseRead, _ => true

/-- The part of a frame of kind `kind` is well formed. -/
def FramePart.wf (kind : FrameKind) : FramePart → Bool
  | .select => true
  | .kind => true
  | .bytes _ => true
  | .finish => true
  | .whole bs => wholeWf kind bs

/-- A frame of this kind can end cut short with `bs` as its last bytes (R164): a response read is complete at its kind
byte, a window read ends cut short within its address, a request before its last operand, of which it has at most
five. -/
def cutPossible : FrameKind → List Byte → Bool
  | .request, bs => decide (bs.length < 7)
  | .windowRead, bs => decide (bs.length < 2)
  | .windowWrite, _ => true
  | .responseRead, _ => false

/-- Defects are bytes of the store (R191). -/
def defectsWf (defects : List (Nat × Byte)) : Bool := defects.all fun d => decide (d.1 < storeSize)

/-- A look is one of the looks t = 0 to t = W of a reading, W at most 63 (R152, R156). -/
def lookWf : Option Nat → Bool
  | none => true
  | some t => decide (t ≤ 63)

def Instr.wf : Instr → Bool
  | .requestFrame _ part => part.wf .request
  | .windowRead _ part => part.wf .windowRead
  | .windowWrite _ part => part.wf .windowWrite
  | .responseRead _ part => part.wf .responseRead
  | .statusOnlyFrame _ kind _ => decide (frameKindOf kind = none)
  | .frameCutShort _ kind bs => cutPossible kind bs
  | .erasingDone defects => defectsWf defects
  | .programmingDone defects => defectsWf defects
  | .readingComplete t => lookWf t
  | _ => true

end Sys2Proof
end

