-- ==== Sys2Proof/Tests/Slice0.lean ====
section
/-! SUPPORT. Tests: the well-formedness check, worked values of the spec, and states that meet the hypotheses of the
statements. -/

namespace Sys2Proof.Slice0

open Sys2Proof.Machine

/-! The well-formedness check refuses what cannot occur. -/

theorem test_wf_refuses_short_request : Instr.wf (.requestFrame .a (.whole [0x10, 2, 5])) = false := by decide
theorem test_wf_refuses_address_of_one_byte : Instr.wf (.windowRead .a (.whole [4])) = false := by decide
theorem test_wf_refuses_half_pair : Instr.wf (.windowWrite .a (.whole [2, 0, 0xFF])) = false := by decide
theorem test_wf_refuses_known_kind_byte : Instr.wf (.statusOnlyFrame .b 0xA4 .select) = false := by decide
theorem test_wf_refuses_complete_request_cut :
    Instr.wf (.frameCutShort .a .request [0x10, 9, 1, 2, 3, 4, 5]) = false := by decide
theorem test_wf_refuses_addressed_read_cut : Instr.wf (.frameCutShort .a .windowRead [0, 4]) = false := by decide
theorem test_wf_refuses_response_read_cut : Instr.wf (.frameCutShort .a .responseRead []) = false := by decide
theorem test_wf_refuses_defect_outside_store : Instr.wf (.erasingDone [(2048, 0)]) = false := by decide
theorem test_wf_refuses_program_defect_outside_store : Instr.wf (.programmingDone [(2048, 0)]) = false := by decide
theorem test_wf_refuses_late_look : Instr.wf (.readingComplete (some 64)) = false := by decide
theorem test_wf_accepts_boundaries :
    (Instr.wf (.requestFrame .a (.whole [0x30, 9, 1, 2, 3, 4, 5])) && Instr.wf (.statusOnlyFrame .b 0xA5 (.bytes []))
      && Instr.wf (.windowRead .a (.whole [0, 4])) && Instr.wf (.windowWrite .a (.whole [2, 0, 0xFF, 1]))
      && Instr.wf (.responseRead .a (.whole [])) && Instr.wf (.frameCutShort .a .request [0x10, 9, 1, 2, 3, 4])
      && Instr.wf (.frameCutShort .a .windowWrite [2, 0, 0xFF]) && Instr.wf (.erasingDone [(2047, 0)])
      && Instr.wf (.readingComplete (some 63)) && Instr.wf .pinReset) = true := by decide

/-! Reset, words, worked values. -/

theorem test_reset_memory_wf : State.reset.store.wf = true := rfl
theorem test_no_word_spells_a_command : decodeTableWord 16 0x1234 = none := rfl
theorem test_reset_is_power_reset : exec (.powerReset 0) State.reset = .next State.reset := by rfl
theorem test_crc_of_digits :
    crc16 [0x31, 0x32, 0x33, 0x34, 0x35, 0x36, 0x37, 0x38, 0x39] = 0x29B1 := by decide +kernel
theorem test_sensed_levels :
    (sensedAt 32 8, sensedAt 32 20, sensedAt 32 1, sensedAt 32 32) = (12, 6, 15, 0) := by decide
theorem test_dim_levels : (dimLevel 15, dimLevel 12, dimLevel 3, dimLevel 1, dimLevel 0) = (7, 6, 1, 1, 0) := by
  decide
theorem test_deadline_across_wrap : reached 1 0xFFFFFFFF = true ∧ reached 0xFFFFFFFE 1 = false := by decide

theorem test_kind_bytes :
    (frameKindOf 0xA1, frameKindOf 0xA2, frameKindOf 0xA4, frameKindOf 0xA8, frameKindOf 0xA0) =
      (some .windowRead, some .windowWrite, some .request, some .responseRead, none) := by decide

/-! States for the witnesses. -/

/-- Points 0 to 4 stand on lines 0 to 4, the others come from the ports; point 17 latches, 18 rings back, 20 is in
group 1. Lines 0 to 4 sense in the five modes, 5 to 9 are the buttons, 10 to 14 the drives, 15 is off. -/
def cfg : ConfigMem :=
  { ConfigMem.default with
    points := Bank.build 252 fun i =>
      if i < 248 then
        { PointDef.user with
          source := if i < 5 then .line (Fin.ofNat 16 i) else .port
          cls := 3
          latch := i == 17
          ringback := i == 18
          sound := true
          pool := true
          group := if i = 20 then 1 else 0
          shelvable := true }
      else PointDef.systemDefault
    lines := Bank.build 16 fun i =>
      { LineConfig.default with
        role := (LineRole.ofCode (if i < 5 then 1 else if i < 15 then i - 3 else 0)).getD .off
        senseMode := (SenseMode.ofCode i).getD .levelHigh
        activeHigh := true }
    slots := Bank.build 64 fun i => if i = 0 then ⟨.sensor, 0⟩ else if i = 1 then ⟨.pool, 0⟩ else ⟨.unused, 0⟩ }

theorem legal_cfg : cfg.FieldsLegal := by constructor <;> decide +kernel

def operating : State := { State.reset with mode := .operate, config := cfg }
def owning : State := { State.reset with mode := .configure, owner := some .a, config := cfg }

/-- Port A's mailbox holds a request. -/
def asked (code len : Byte) (operands : List Byte) (s : State) : State :=
  s.onPort .a fun x => { x with mailbox := .waiting ⟨code, len, operands⟩ }

/-- The Work Queue holds one item, and its turn has come. -/
def posted (x : WorkSource) (s : State) : State := { s with queue := [x] }

def writing (addr : Half) (s : State) : State := s.onPort .a fun x => { x with frame := some (.write addr false) }

/-- A record of point `p` in state `st`. -/
def recordIn (p : Point) (st : RecState) : Record :=
  { freshRecord (cfg.point p) p st false 0 with sounding := st.unacked }

/-- The tables that hold the records `rs` in rank order, in entries 0, 1, and so on, with the points `ws` waiting. -/
def tableOf (rs : List Record) (ws : List Point) : Table :=
  { Table.reset with
    points := Bank.build 252 fun i =>
      { PointLive.reset with
        condition := rs.any (fun r => r.point.val == i && r.state.standing) || ws.any (·.val == i)
          || (i == 248 && !ws.isEmpty)
        link := (rs.findIdx? fun r => r.point.val == i).map (Fin.ofNat 96)
        waiting := ws.any (·.val == i) }
    entries := Bank.build 96 fun i => rs[i]?
    rank := rs.map (·.point)
    waiting := ws
    shelf := rs.filterMap fun r => r.shelf.map fun x => ⟨x.deadline, r.point⟩ }

def holding (rs : List Record) (ws : List Point) (s : State) : State := { s with table := tableOf rs ws }

/-- Ninety-two records of user points, from point 100 on. -/
def full : List Record := (List.range 92).map fun i => recordIn (Fin.ofNat 252 (100 + i)) .acked

/-- The same with the record of point 17 HELD in place of the last, and point 20 waiting behind it. -/
def fullHeld : List Record :=
  ((List.range 91).map fun i => recordIn (Fin.ofNat 252 (100 + i)) .acked) ++ [recordIn 17 .held]

theorem tableOf_live (rs : List Record) (ws : List Point) (p : Point) :
    ((tableOf rs ws).live p).link = (rs.findIdx? fun r => r.point.val == p.val).map (Fin.ofNat 96) := by
  simp [tableOf, Table.live]

theorem tableOf_waiting (rs : List Record) (ws : List Point) (p : Point) :
    ((tableOf rs ws).live p).waiting = true ↔ p ∈ ws := by
  simp only [tableOf, Table.live, Bank.get_build, List.any_eq_true, beq_iff_eq]
  exact ⟨fun ⟨q, hq, e⟩ => Fin.ext e ▸ hq, fun h => ⟨p, h, rfl⟩⟩

/-- A table laid out from its records is linked. -/
theorem linked_tableOf {rs : List Record} {ws : List Point} (hlen : rs.length ≤ 96)
    (hr : (rs.map (·.point)).Nodup) (hw : ws.Nodup)
    (hd : ∀ p ∈ ws, isSystem p = false ∧ p ∉ rs.map (·.point)) : (tableOf rs ws).Linked := by
  have hnone : ∀ p : Point, (rs.findIdx? fun r => r.point.val == p.val) = none ↔ p ∉ rs.map (·.point) := by
    intro p
    simp only [List.findIdx?_eq_none_iff, List.mem_map, not_exists, not_and, beq_eq_false_iff_ne]
    exact ⟨fun h r hr e => h r hr (by rw [e]), fun h r hr e => h r hr (Fin.ext e)⟩
  refine ⟨hr, ?_, ?_, ?_, hw, ?_, ?_, ?_⟩
  · intro p
    rw [tableOf_live, ne_eq, Option.map_eq_none_iff, hnone]
    exact not_not.symm
  · intro p i hi
    rw [tableOf_live, Option.mem_def, Option.map_eq_some_iff] at hi
    obtain ⟨k, hk, rfl⟩ := hi
    obtain ⟨hlt, he, -⟩ := List.findIdx?_eq_some_iff_getElem.mp hk
    have hk96 : k % 96 = k := Nat.mod_eq_of_lt (by omega)
    simp only [tableOf, Bank.get_build, Fin.ofNat, hk96, List.getElem?_eq_getElem hlt, Option.map_some]
    exact congrArg some (Fin.ext (by simpa using he))
  · intro i r hi
    simp only [tableOf, Bank.get_build, Option.mem_def] at hi
    obtain ⟨hlt, rfl⟩ := List.getElem?_eq_some_iff.mp hi
    rw [tableOf_live]
    have : (rs.findIdx? fun r => r.point.val == rs[i.val].point.val) = some i.val := by
      rw [List.findIdx?_eq_some_iff_getElem]
      refine ⟨hlt, by simp, ?_⟩
      intro j hj
      simp only [beq_iff_eq]
      intro e
      have := (List.nodup_iff_injective_getElem.mp hr)
      have := @this ⟨j, by simp; omega⟩ ⟨i.val, by simpa using hlt⟩ (by simpa using Fin.ext e)
      simp at this
      omega
    rw [this]
    simp only [Option.map_some, Fin.ofNat]
    exact congrArg some (Fin.ext (Nat.mod_eq_of_lt i.isLt))
  · intro p
    rw [tableOf_waiting]
    rfl
  · intro p hp
    rw [tableOf_waiting] at hp
    refine ⟨(hd p hp).1, ?_, ?_⟩
    · rw [tableOf_live, (hnone p).mpr (hd p hp).2]; rfl
    · simp [tableOf, Table.live, PointLive.reset]
  · intro p hp
    simp [tableOf, Table.live, PointLive.reset] at hp

theorem linked_one (p : Point) (st : RecState) : (tableOf [recordIn p st] []).Linked :=
  linked_tableOf (by simp) (by simp) (by simp) (by simp)
theorem linked_empty : (tableOf [] []).Linked := linked_tableOf (by simp) (by simp) (by simp) (by simp)
theorem linked_full : (tableOf full []).Linked :=
  linked_tableOf (by decide) (by decide +kernel) (by simp) (by simp)
theorem linked_fullHeld : (tableOf fullHeld [20]).Linked :=
  linked_tableOf (by decide) (by decide +kernel) (by decide) (by decide +kernel)
theorem capacity_full : (tableOf full []).WithinCapacity := by constructor <;> decide +kernel
theorem capacity_fullHeld : (tableOf fullHeld [20]).WithinCapacity := by constructor <;> decide +kernel

/-- Port A's request is the next grant, in any table of OPERATE. -/
theorem request_at {code len : Byte} {operands : List Byte} (rs : List Record) (ws : List Point) {x : Point} {n : Nat}
    (rev : Bool) (hx : operands.head? = some (byteOfPoint x)) (hd : cfg.defined x = true) (hl : len.toNat = n) :
    (asked code len operands (holding rs ws operating)).PointRequest .a ⟨code, len, operands⟩ code x n rev :=
  ⟨⟨rfl, rfl⟩, rfl, rfl, hx, hd, .inl hl⟩

theorem table_request {code len : Byte} {operands : List Byte} (rs : List Record) (ws : List Point) {n : Nat}
    (hl : len.toNat = n) :
    (asked code len operands (holding rs ws operating)).TableRequest .a ⟨code, len, operands⟩ code n :=
  ⟨⟨rfl, rfl⟩, rfl, rfl, hl⟩

theorem owner_request (code len : Byte) (operands : List Byte) :
    (asked code len operands owning).Grants .a ⟨code, len, operands⟩
      ∧ (asked code len operands owning).OwnsConfiguration .a :=
  ⟨⟨rfl, rfl⟩, rfl, rfl, rfl⟩

/-! Witnesses: for each statement with hypotheses, a state and operands that meet them together. -/

theorem test_StepRunsFrontCommand :
    ({ State.reset with pending := [.pinReset, .flashPhaseChange] } : State).pending = .pinReset :: [.flashPhaseChange]
      ∧ State.reset.pending = [] ∧ State.reset.resetHeld = false
      ∧ (6 + 1 : Nat) = ({ Display.reset with row := 6 } : Display).row.val + 1
      ∧ ({ Display.reset with row := 7 } : Display).row = 7 := ⟨rfl, rfl, rfl, rfl, rfl⟩

theorem test_EveryCommandAnswersNext :
    ({ State.reset with resetHeld := true } : State).resetHeld = true
      ∧ (∀ l, Instr.flashPhaseChange ≠ .powerReset l) ∧ Instr.flashPhaseChange ≠ .pinReset
      ∧ ∀ l, Instr.flashPhaseChange ≠ .pinResetRelease l := by simp

theorem test_PowerResetStartsThePart :
    owning.interrupts = false ∧ ({ owning with storeOp := .erasing .a [] } : State).interrupts = true := by decide

theorem test_PinResetHoldsThenStarts :
    ({ State.reset with resetHeld := true } : State).AtReset
      ∧ ({ State.reset with resetHeld := true } : State).config = ConfigMem.default :=
  ⟨⟨rfl, rfl, rfl, rfl, rfl, rfl, rfl, rfl, rfl, rfl, rfl⟩, rfl⟩

theorem test_ResetCauseRecordsResets :
    (asked 0x5F 0 [] owning).Grants .a ⟨0x5F, 0, []⟩ ∧ (asked 0x5F 0 [] owning).mode ≠ .starting
      ∧ (asked 0x5F 0 [] owning).storeBusy = false
      ∧ ((writing 0x0040 owning).port .a).frame = some (.write 0x0040 false)
      ∧ ((writing 0x0040 State.reset).port .a).frame = some (.write 0x0040 false)
      ∧ (writing 0x0040 State.reset).mode = .starting :=
  ⟨⟨rfl, rfl⟩, by decide, rfl, rfl, rfl, rfl⟩

theorem test_ResetEndsStoreOperation :
    ({ owning with storeOp := .reading .a } : State).storeOp = .reading .a
      ∧ ({ owning with storeOp := .erasing .a [], saveMark := true } : State).saveMark = true
      ∧ ({ owning with storeOp := .verifying .a [], saveMark := true } : State).storeOp = .verifying .a [] :=
  ⟨rfl, rfl, rfl⟩

/-- A save that has ended in success leaves such a state. -/
theorem test_ResetEndsStoreOperation_ended :
    ({ owning with storeOp := .ended .a (.saved true), store := Memory.ofBytes 0 (imageBytes cfg) } : State).store =
        Memory.ofBytes 0 (imageBytes cfg)
      ∧ ({ owning with storeOp := .ended .a (.saved true) } : State).saveMark = false ∧ cfg.FieldsLegal :=
  ⟨rfl, rfl, legal_cfg⟩

theorem test_EndOfStartingEntersTheMode :
    State.reset.resetHeld = false ∧ State.reset.mode = .starting ∧ State.reset.startOperate = false
      ∧ ({ State.reset with startOperate := true, storeFault := true } : State).table = Table.reset
      ∧ ∀ p, (({ State.reset with startOperate := true, storeFault := true } : State).port p).lapse = false :=
  ⟨rfl, rfl, rfl, rfl, fun p => by cases p <;> rfl⟩

theorem test_RequestFrameSubmitsOrIsRefused :
    (owning.port .a).frame = none ∧ (owning.port .a).mailbox = .empty ∧ min (1 : Byte).toNat 5 ≤ [(5 : Byte)].length
      ∧ ((asked 0x10 1 [5] owning).port .a).frame = none ∧ ((asked 0x10 1 [5] owning).port .a).mailbox ≠ .empty
      ∧ min (255 : Byte).toNat 5 ≤ [(1 : Byte), 2, 3, 4, 5].length := by decide

theorem test_WholeFrameIsItsParts :
    (owning.port .b).frame = none ∧ owning.resetHeld = false ∧ (0xA0 : Byte) ≠ 0xA1
      ∧ ((owning.onPort .a fun x => { x with frame := some .selected }).port .a).frame = some .selected
      ∧ ((owning.onPort .a fun x => { x with frame := some (.address false none) }).port .a).frame =
          some (.address false none)
      ∧ ((owning.onPort .a fun x => { x with frame := some (.address true none) }).port .a).frame =
          some (.address true none)
      ∧ ((writing 0x0200 owning).port .a).frame = some (.write 0x0200 false) := by decide

theorem test_WindowReadShiftsOutTheWindow :
    (owning.port .a).frame = none
      ∧ (∀ i, i < 3 → (0xFF : Byte) ++ (0xFF : Byte) + BitVec.ofNat 16 i ≠ 0x0038)
      ∧ (∀ i, i < 7 → (0x00 : Byte) ++ (0x39 : Byte) + BitVec.ofNat 16 i ≠ 0x0038) := ⟨rfl, by decide, by decide⟩

theorem test_LatchHoldsTheCounterAsRead :
    ((owning.onPort .a fun x => { x with frame := some (.read 0x0038) }).port .a).frame = some (.read 0x0038)
      ∧ ((owning.onPort .a fun x => { x with frame := some (.read 0x003B) }).port .a).frame =
          some (.read (0x0038 + BitVec.ofNat 16 3))
      ∧ ((writing 0x003B owning).port .a).frame = some (.write (0x0038 + BitVec.ofNat 16 3) false)
      ∧ (asked 0x5F 0 [] owning).Grants .a ⟨0x5F, 0, []⟩ := ⟨rfl, rfl, rfl, rfl, rfl⟩

/-- One address at each bound of the clauses of Table 9-7. -/
theorem test_PairsNotAppliedChangeNothing :
    ((writing 0x017D operating).port .a).frame = some (.write 0x017D false) ∧ 0x017D % 8 < 6
      ∧ ((writing 0x07EE operating).port .a).frame = some (.write 0x07EE false) ∧ 0x07EE % 4 < 3
      ∧ ((writing 0x0285 State.reset).port .a).frame = some (.write 0x0285 false)
      ∧ ((writing 0x0015 State.reset).port .a).frame = some (.write 0x0015 false)
      ∧ ({ writing 0x0014 owning with storeOp := .reading .a } : State).storeOp ≠ .idle
      ∧ ((writing 0xFFFF owning).port .a).frame = some (.write 0xFFFF false)
      ∧ operating.mode ≠ .configure ∧ State.reset.mode = .starting := by decide

theorem test_StatusAndCauseClearByWritingOne :
    ((writing 0x0010 owning).port .a).frame = some (.write (if false then 0x0011 else 0x0010) false)
      ∧ ((writing 0x0011 owning).port .a).frame = some (.write (if true then 0x0011 else 0x0010) false)
      ∧ ((writing 0x0040 owning).port .a).frame = some (.write 0x0040 false) ∧ owning.mode ≠ .starting
      ∧ State.reset.mode = .starting ∧ (0x80 : Byte) ≠ 0 := by decide

theorem test_EnableAndInterruptPairsDriveThePin :
    ((writing 0x0012 owning).port .a).frame = some (.write (if false then 0x0013 else 0x0012) false)
      ∧ ((writing 0x0013 owning).port .a).frame = some (.write (if true then 0x0013 else 0x0012) false)
      ∧ ((writing 0x0015 owning).port .a).frame = some (.write 0x0015 false) ∧ owning.mode ≠ .starting
      ∧ owning.storeOp = .idle := by decide

theorem test_PeriodPairRestartsSupervision :
    ((writing 0x0014 owning).port .a).frame = some (.write 0x0014 false) ∧ owning.storeOp = .idle
      ∧ owning.config.period.get .a ≠ (7 : Fin 8) ∧ (7 : Byte).toNat < 8 ∧ 8 ≤ (8 : Byte).toNat
      ∧ (0 : Byte).toNat = (owning.config.period.get .a).val := by decide

/-- The six bytes of the last line. -/
theorem test_LineConfigurationPairRestartsTheLine (i : Fin 6) :
    (writing (0x0178 + BitVec.ofNat 16 i.val) owning).OwnsConfiguration .a
      ∧ ((writing (0x0178 + BitVec.ofNat 16 i.val) owning).port .a).frame =
          some (.write (0x0100 + 8 * BitVec.ofNat 16 15 + BitVec.ofNat 16 i.val) false)
      ∧ (7 : Byte).toNat = (7 : Fin 8).val ∧ 8 ≤ (8 : Byte).toNat :=
  ⟨⟨rfl, rfl, rfl⟩, rfl, rfl, by decide⟩

theorem test_SlotMapPairTakesEffect :
    (writing 0x027E owning).OwnsConfiguration .a
      ∧ ((writing 0x027E owning).port .a).frame = some (.write (0x0200 + 2 * BitVec.ofNat 16 63) false)
      ∧ ((writing 0x027F owning).port .a).frame = some (.write (0x0200 + 2 * BitVec.ofNat 16 63 + 1) false)
      ∧ cfg.sensorSlot ≠ none ∧ ConfigMem.default.sensorSlot = none :=
  ⟨⟨rfl, rfl, rfl⟩, rfl, rfl, by decide +kernel, by decide +kernel⟩

theorem test_PointDefinitionPairKeepsFixedFields :
    (writing 0x07EC owning).OwnsConfiguration .a
      ∧ ((writing 0x07EC owning).port .a).frame = some (.write (0x0400 + 4 * BitVec.ofNat 16 251) false)
      ∧ ((writing 0x07ED owning).port .a).frame = some (.write (0x0400 + 4 * BitVec.ofNat 16 251 + 1) false)
      ∧ ((writing 0x07DE owning).port .a).frame = some (.write (0x0400 + 4 * BitVec.ofNat 16 247 + 2) false)
      ∧ isSystem 251 = true ∧ isSystem 247 = false :=
  ⟨⟨rfl, rfl, rfl⟩, rfl, rfl, rfl, rfl, rfl⟩

theorem test_BrightnessPairTakesEffect :
    operating.mode = .operate ∧ owning.OwnsConfiguration .a
      ∧ ((writing 0x0281 operating).port .a).frame = some (.write 0x0281 false)
      ∧ ((writing 0x0280 owning).port .a).frame = some (.write 0x0280 false)
      ∧ ((writing 0x0285 owning).port .a).frame = some (.write 0x0285 false)
      ∧ owning.config.brightness.mode ≠ .step :=
  ⟨rfl, ⟨rfl, rfl, rfl⟩, rfl, rfl, rfl, by decide⟩

/-- A response read whose copy was taken before a response came. -/
def reading : State :=
  owning.onPort .a fun x => { x with frame := some (.response (some (Bank.fill 24 1)) 1 false), respReady := true }

theorem test_ResponseReadShiftsOutTheBuffer :
    (owning.port .a).frame = none ∧ (reading.port .a).frame = some (.response (some (Bank.fill 24 1)) 1 false)
      ∧ (reading.port .a).respReady = true := ⟨rfl, rfl, rfl⟩

/-- A request of five operands with four of them received: one more completes it. -/
def requesting (take : Bool) : State :=
  owning.onPort .a fun x => { x with frame := some (.request take [0x30, 5, 1, 2, 3, 4]) }

theorem test_BadFramesPostFrameError (take : Bool) :
    ((owning.port .a).frame = none ∧ (0xA3 : Byte) ≠ 0xA1 ∧ (0xA3 : Byte) ≠ 0xA2 ∧ (0xA3 : Byte) ≠ 0xA4
      ∧ (0xA3 : Byte) ≠ 0xA8)
    ∧ ([0x10, 2, 5] : List Byte) = 0x10 :: 2 :: [5] ∧ [(5 : Byte)].length < min (2 : Byte).toNat 5
      ∧ ((requesting take).port .a).frame = some (.request take [0x30, 5, 1, 2, 3, 4])
      ∧ [(1 : Byte), 2, 3, 4].length + ([] : List Byte).length < min (5 : Byte).toNat 5
      ∧ min (5 : Byte).toNat 5 ≤ [(1 : Byte), 2, 3, 4].length + [(5 : Byte)].length
      ∧ [(0 : Byte)].length < 2 ∧ ((writing 0x0200 owning).port .a).frame = some (.write 0x0200 false) := by
  cases take <;> decide

theorem test_SupervisionExpiryLapsesThePort :
    ((owning.onPort .a fun x => { x with timer := some 7 }).port .a).timer ≠ none
      ∧ ((owning.onPort .a fun x => { x with timer := some 7 }).port .a).lapse = false
      ∧ ((owning.onPort .a fun x => { x with timer := some 7, lapse := true }).port .a).lapse = true
      ∧ (owning.onPort .a fun x => { x with timer := some 7 }).owner = some .a := by decide

/-! Record requests. -/

theorem quiet_in_operate {code len : Byte} {operands : List Byte} (rs : List Record) (ws : List Point) {x : Point}
    (h1 : isSystem x = false) (h2 : (cfg.point x).enabled = true)
    (h3 : ((tableOf rs ws).live x).inhibited = false) (h4 : ((tableOf rs ws).live x).condition = false)
    (h5 : ((tableOf rs ws).live x).link = none) (h6 : ((tableOf rs ws).live x).waiting = false) :
    (asked code len operands (holding rs ws operating)).Quiet x := ⟨h1, h2, h3, h4, h5, h6⟩

/-- Point 16 at the head of an empty table, point 247 behind a record; RAISE and PULSE. -/
theorem test_RaiseAndPulseCreateTheRecord :
    ((asked 0x10 1 [16] (holding [] [] operating)).PointRequest .a ⟨0x10, 1, [16]⟩ 0x10 16 1 false
      ∧ (cfg.point 16).source = .port ∧ (asked 0x10 1 [16] (holding [] [] operating)).Quiet 16
      ∧ (tableOf [] []).hasRoom = true)
    ∧ (asked 0x12 1 [247] (holding [recordIn 16 .new] [] operating)).PointRequest .a ⟨0x12, 1, [247]⟩ 0x12 247 1 false
      ∧ (asked 0x12 1 [247] (holding [recordIn 16 .new] [] operating)).Quiet 247
      ∧ (tableOf [recordIn 16 .new] []).Linked ∧ (tableOf [recordIn 16 .new] []).hasRoom = true :=
  ⟨⟨request_at [] [] false rfl (by decide +kernel) rfl, by decide +kernel,
      quiet_in_operate [] [] rfl (by decide +kernel) (by decide +kernel) (by decide +kernel) (by decide +kernel)
        (by decide +kernel), by decide +kernel⟩,
    request_at _ [] false rfl (by decide +kernel) rfl,
    quiet_in_operate _ [] rfl (by decide +kernel) (by decide +kernel) (by decide +kernel) (by decide +kernel)
      (by decide +kernel), linked_one _ _, by decide +kernel⟩

theorem test_WaitingQueueFillsAndDrains :
    ((asked 0x10 1 [16] (holding full [] operating)).PointRequest .a ⟨0x10, 1, [16]⟩ 0x10 16 1 false
      ∧ (asked 0x10 1 [16] (holding full [] operating)).Quiet 16 ∧ (tableOf full []).Linked
      ∧ (tableOf full []).WithinCapacity ∧ (tableOf full []).hasRoom = false)
    ∧ (asked 0x28 1 [17] (holding fullHeld [20] operating)).PointRequest .a ⟨0x28, 1, [17]⟩ 0x28 17 1 true
      ∧ (tableOf fullHeld [20]).Linked ∧ (tableOf fullHeld [20]).WithinCapacity
      ∧ (tableOf fullHeld [20]).recordOf 17 = some (recordIn 17 .held)
      ∧ (tableOf fullHeld [20]).waiting = [20] :=
  ⟨⟨request_at _ [] false rfl (by decide +kernel) rfl,
      quiet_in_operate _ [] rfl (by decide +kernel) (by decide +kernel) (by decide +kernel) (by decide +kernel)
        (by decide +kernel), linked_full, capacity_full, by decide +kernel⟩,
    request_at _ _ true rfl (by decide +kernel) rfl, linked_fullHeld, capacity_fullHeld, by decide +kernel, rfl⟩

theorem record_one (p : Point) (st : RecState) : (tableOf [recordIn p st] []).recordOf p = some (recordIn p st) := by
  have h : ((tableOf [recordIn p st] []).live p).link = some 0 := by
    rw [tableOf_live]
    simp [recordIn, freshRecord]
  simp only [Table.recordOf, h]
  simp [tableOf]

theorem test_ReturnAndRaiseMoveTheRecord :
    ((asked 0x11 1 [17] (holding [recordIn 17 .acked] [] operating)).PointRequest .a ⟨0x11, 1, [17]⟩ 0x11 17 1 false
      ∧ ((tableOf [recordIn 17 .acked] []).live 17).condition = true ∧ (cfg.point 17).latch = true
      ∧ (tableOf [recordIn 17 .acked] []).recordOf 17 = some (recordIn 17 .acked))
    ∧ (cfg.point 18).latch = false ∧ (cfg.point 18).ringback = true
    ∧ (asked 0x10 1 [18] (holding [recordIn 18 .ringback] [] operating)).PointRequest .a ⟨0x10, 1, [18]⟩ 0x10 18 1 false
      ∧ ((tableOf [recordIn 18 .ringback] []).live 18).condition = false
      ∧ (tableOf [recordIn 18 .ringback] []).recordOf 18 = some (recordIn 18 .ringback) :=
  ⟨⟨request_at _ [] false rfl (by decide +kernel) rfl, by decide +kernel, by decide +kernel, record_one _ _⟩,
    by decide +kernel, by decide +kernel, request_at _ [] false rfl (by decide +kernel) rfl, by decide +kernel,
    record_one _ _⟩

theorem test_AckFollowsTheTable (st : RecState) :
    (asked 0x20 1 [16] (holding [recordIn 16 st] [] operating)).PointRequest .a ⟨0x20, 1, [16]⟩ 0x20 16 1 true
      ∧ (tableOf [recordIn 16 st] []).Linked ∧ (tableOf [recordIn 16 st] []).waiting = []
      ∧ (tableOf [recordIn 16 st] []).recordOf 16 = some (recordIn 16 st) :=
  ⟨request_at _ [] true rfl (by decide +kernel) rfl, linked_one _ _, rfl, record_one _ _⟩

/-- An ACK with the expected revision, which is 0. -/
theorem test_AckFollowsTheTable_with_revision :
    (asked 0x20 3 [16, 0, 0] (holding [recordIn 16 .new] [] operating)).PointRequest .a ⟨0x20, 3, [16, 0, 0]⟩
      0x20 16 1 true :=
  ⟨⟨rfl, rfl⟩, rfl, rfl, rfl, by decide +kernel, .inr ⟨rfl, rfl, by decide +kernel⟩⟩

theorem test_RetiringRequestsFreeTheRecord :
    (asked 0x28 1 [17] (holding [recordIn 17 .held] [] operating)).PointRequest .a ⟨0x28, 1, [17]⟩ 0x28 17 1 true
    ∧ ((asked 0x2A 1 [17] (holding [recordIn 17 .held] [] operating)).PointRequest .a ⟨0x2A, 1, [17]⟩ 0x2A 17 1 true
      ∧ ((tableOf [recordIn 17 .held] []).live 17).condition = false)
    ∧ ((asked 0x34 1 [17] (holding [recordIn 17 .new] [] operating)).PointRequest .a ⟨0x34, 1, [17]⟩ 0x34 17 1 false
      ∧ ((tableOf [recordIn 17 .new] []).live 17).inhibited = false)
    ∧ (asked 0x11 1 [16] (holding [recordIn 16 .acked] [] operating)).PointRequest .a ⟨0x11, 1, [16]⟩ 0x11 16 1 false
      ∧ ((tableOf [recordIn 16 .acked] []).live 16).condition = true ∧ (cfg.point 16).latch = false
      ∧ (cfg.point 16).ringback = false :=
  ⟨request_at _ [] true rfl (by decide +kernel) rfl,
    ⟨request_at _ [] true rfl (by decide +kernel) rfl, by decide +kernel⟩,
    ⟨request_at _ [] false rfl (by decide +kernel) rfl, by decide +kernel⟩,
    request_at _ [] false rfl (by decide +kernel) rfl, by decide +kernel, by decide +kernel, by decide +kernel⟩

theorem test_SelectionRequestsActOnEachRecord :
    (asked 0x21 0 [] (holding [recordIn 16 .new] [] operating)).TableRequest .a ⟨0x21, 0, []⟩ 0x21 0
      ∧ (asked 0x22 0 [] (holding [recordIn 16 .new] [] operating)).TableRequest .a ⟨0x22, 0, []⟩ 0x22 0
      ∧ (asked 0x23 0 [] (holding [recordIn 16 .new] [] operating)).TableRequest .a ⟨0x23, 0, []⟩ 0x23 0
      ∧ (asked 0x29 0 [] (holding [recordIn 16 .held] [] operating)).TableRequest .a ⟨0x29, 0, []⟩ 0x29 0
      ∧ (tableOf [recordIn 16 .new] []).waiting = [] :=
  ⟨table_request _ [] rfl, table_request _ [] rfl, table_request _ [] rfl, table_request _ [] rfl, rfl⟩

/-- The record of point 16, shelved until second 1 by Port A. -/
def shelved : Record := { recordIn 16 .new with sounding := false, shelf := some ⟨1, .a⟩ }

theorem test_ShelveAndUnshelveMoveTheShelf :
    ((asked 0x30 3 [16, 1, 0] (holding [recordIn 16 .new] [] operating)).PointRequest .a ⟨0x30, 3, [16, 1, 0]⟩
        0x30 16 3 true
      ∧ (cfg.point 16).shelvable = true ∧ Request.half ⟨0x30, 3, [16, 1, 0]⟩ 1 ≠ 0
      ∧ (recordIn 16 .new).shelf ≠ some ⟨operating.counter + (1 : Half).setWidth 32, .a⟩
      ∧ shelved.shelf = some ⟨operating.counter + (1 : Half).setWidth 32, .a⟩)
    ∧ (asked 0x31 1 [16] (holding [shelved] [] operating)).PointRequest .a ⟨0x31, 1, [16]⟩ 0x31 16 1 true
      ∧ (tableOf [shelved] []).Linked ∧ shelved.shelf ≠ none :=
  ⟨⟨request_at _ [] true rfl (by decide +kernel) rfl, by decide +kernel, by decide, by decide, by decide⟩,
    request_at _ [] true rfl (by decide +kernel) rfl,
    linked_tableOf (by simp) (by simp) (by simp) (by simp), by decide⟩

/-- Point 16 inhibited, with its condition present or absent. -/
def inhibited (condition : Bool) : State :=
  { operating with table := (tableOf [] []).setLive 16 ⟨true, condition, 7, none, false⟩ }

theorem test_InhibitAndEnableMoveTheFlag (c : Bool) :
    (asked 0x34 1 [16] (holding [] [] operating)).PointRequest .a ⟨0x34, 1, [16]⟩ 0x34 16 1 false
      ∧ (asked 0x35 1 [16] (inhibited c)).PointRequest .a ⟨0x35, 1, [16]⟩ 0x35 16 1 false
      ∧ ((inhibited c).table.live 16).link = none ∧ ((inhibited c).table.live 16).waiting = false
      ∧ ((inhibited c).table.live 16).inhibited = true ∧ ((inhibited c).table.live 16).condition = c
      ∧ (tableOf [] []).Linked := by
  have h : (inhibited c).table.live 16 = ⟨true, c, 7, none, false⟩ := by simp [inhibited, Table.live, Table.setLive]
  refine ⟨request_at [] [] false rfl (by decide +kernel) rfl, ⟨⟨rfl, rfl⟩, rfl, rfl, rfl, ?_, .inl rfl⟩, ?_⟩
  · exact (by decide +kernel : cfg.defined 16 = true)
  · rw [h]
    exact ⟨rfl, rfl, rfl, rfl, linked_empty⟩

/-- The inhibited point's table is linked. -/
theorem linked_inhibited (c : Bool) : (inhibited c).table.Linked := by
  have hl : ∀ p, ((inhibited c).table.live p).link = none := by
    intro p
    by_cases hp : p = 16
    · subst hp; simp [inhibited, Table.live, Table.setLive]
    · simp [inhibited, Table.live, Table.setLive, Bank.get_set_ne _ _ hp, tableOf, PointLive.reset]
  have hw : ∀ p, ((inhibited c).table.live p).waiting = false := by
    intro p
    by_cases hp : p = 16
    · subst hp; simp [inhibited, Table.live, Table.setLive]
    · simp [inhibited, Table.live, Table.setLive, Bank.get_set_ne _ _ hp, tableOf]
  have hi : ∀ p, ((inhibited c).table.live p).inhibited = true → p = 16 := by
    intro p h
    by_contra hp
    simp [inhibited, Table.live, Table.setLive, Bank.get_set_ne _ _ hp, tableOf, PointLive.reset] at h
  refine ⟨List.nodup_nil, ?_, ?_, ?_, List.nodup_nil, ?_, ?_, ?_⟩
  · intro p; rw [hl p]; simp [inhibited, Table.setLive, tableOf]
  · intro p i h; rw [hl p] at h; cases h
  · intro i r h; simp [inhibited, Table.setLive, tableOf] at h
  · intro p; rw [hw p]; simp [inhibited, Table.setLive, tableOf]
  · intro p h; rw [hw p] at h; cases h
  · intro p h; rw [hi p h]; exact ⟨rfl, by rw [hl]⟩

/-- Point 20 is the first-out point of group 1. -/
def firstOut : State :=
  { operating with
    table := (tableOf [{ recordIn 20 .new with firstOut := true }] []).setGroup 0 ⟨some 20, false, 1⟩ }

theorem test_FirstOutResetRearmsTheGroup :
    (asked 0x38 1 [1] firstOut).TableRequest .a ⟨0x38, 1, [1]⟩ 0x38 1
      ∧ (Request.byte ⟨0x38, 1, [1]⟩ 0).toNat = (0 : Fin 7).val + 1
      ∧ (firstOut.table.groups.get 0).mark = some 20
      ∧ firstOut.table.recordOf 20 = some { recordIn 20 .new with firstOut := true }
      ∧ (asked 0x38 1 [7] firstOut).TableRequest .a ⟨0x38, 1, [7]⟩ 0x38 1
      ∧ (Request.byte ⟨0x38, 1, [7]⟩ 0).toNat = (6 : Fin 7).val + 1 ∧ (firstOut.table.groups.get 6).mark = none :=
  ⟨⟨⟨rfl, rfl⟩, rfl, rfl, rfl⟩, rfl, by decide +kernel, by decide +kernel, ⟨⟨rfl, rfl⟩, rfl, rfl, rfl⟩, rfl,
    by decide +kernel⟩

theorem linked_firstOut : firstOut.table.Linked :=
  have h : (tableOf [{ recordIn 20 .new with firstOut := true }] []).Linked :=
    linked_tableOf (by simp) (by simp) (by simp) (by simp)
  ⟨h.rankOnce, h.ranked, h.entry, h.link, h.waitingOnce, h.waits, h.waitingPoint, h.inhibitedPoint⟩

theorem test_LookupReportsTheRecord :
    (asked 0x40 2 [16, 1] (holding [recordIn 16 .new] [] operating)).PointRequest .a ⟨0x40, 2, [16, 1]⟩ 0x40 16 2 false
      ∧ (Request.byte ⟨0x40, 2, [16, 1]⟩ 1).toNat ≤ 1
      ∧ (tableOf [recordIn 16 .new] []).recordOf 16 = some (recordIn 16 .new)
      ∧ (asked 0x40 2 [251, 0] (holding [] [] operating)).PointRequest .a ⟨0x40, 2, [251, 0]⟩ 0x40 251 2 false
      ∧ (tableOf [] []).recordOf 251 = none :=
  ⟨request_at _ [] false rfl (by decide +kernel) rfl, by decide, record_one _ _,
    request_at [] [] false rfl (by decide +kernel) rfl, by decide +kernel⟩

/-- The optional parts: a shelved record, whose part says one second and Port A, one acknowledged by the panel, and a
slot that shows point 16 after the service, whose number stands in byte 19. -/
theorem test_LookupReportsTheRecord_parts :
    (tableOf [shelved] []).recordOf 16 = some shelved ∧ shelved.shelf = some ⟨1, .a⟩
      ∧ (match exec (.lookup .a) (asked 0x40 2 [16, 0] (holding [shelved] [] operating)) with
        | .next t => ((t.port .a).buffer.items.drop 19).take 3 == [1, 0, 1]
        | _ => false) = true
      ∧ (acknowledged false 0 .panel (recordIn 16 .new)).bind (·.ackedBy) = some .panel
      ∧ (match exec (.lookup .a) (asked 0x40 2 [16, 0] (holding [recordIn 16 .new] [] operating)) with
        | .next t => t.table.shows 16 && (t.table.slots.get 1).map (·.point) == some 16
            && (t.port .a).buffer.get 19 == 1
        | _ => false) = true := by
  refine ⟨by decide +kernel, rfl, by decide +kernel, rfl, by decide +kernel⟩

theorem test_FindNextFindsTheFirstMatch :
    ((asked 0x41 4 [255, 31, 7, 2] (holding [recordIn 16 .new] [] operating)).TableRequest .a
        ⟨0x41, 4, [255, 31, 7, 2]⟩ 0x41 4
      ∧ (Request.mk 0x41 4 [255, 31, 7, 2]).operands.head? = some 255
      ∧ (tableOf [recordIn 16 .new] []).rank = [] ++ [16])
    ∧ (asked 0x41 4 [16, 1, 0, 0] (holding [recordIn 16 .new] [] operating)).TableRequest .a
        ⟨0x41, 4, [16, 1, 0, 0]⟩ 0x41 4
      ∧ Request.Names ⟨0x41, 4, [16, 1, 0, 0]⟩ 16 ∧ (tableOf [recordIn 16 .new] []).rank = [16] ++ []
      ∧ (asked 0x41 4 [255, 1, 0, 0] (holding [recordIn 16 .new] [] operating)).Matches ⟨0x41, 4, [255, 1, 0, 0]⟩ 16 :=
  ⟨⟨table_request _ [] rfl, rfl, rfl⟩, table_request _ [] rfl, rfl, rfl,
    ⟨recordIn 16 .new, record_one _ _, by decide, by decide, .inl rfl⟩⟩

/-- Port A's request names a point and passes the point and form checks, in any table of OPERATE. -/
theorem asks_at {code len : Byte} {operands : List Byte} (rs : List Record) (ws : List Point) {x : Point}
    (hx : operands.head? = some (byteOfPoint x)) (hd : cfg.defined x = true)
    (hf : Request.FormFits ⟨code, len, operands⟩) :
    (asked code len operands (holding rs ws operating)).Asks .a ⟨code, len, operands⟩ x :=
  ⟨⟨rfl, rfl⟩, rfl, hx, hd, hf⟩

/-- By mode, by code, by point, by form, by owner and by store operation. -/
theorem test_RefusedRequestsChangeNothing :
    ((asked 0x10 1 [16] State.reset).Grants .a ⟨0x10, 1, [16]⟩ ∧ State.reset.mode = .starting)
    ∧ ((asked 0x41 4 [255, 1, 0, 0] owning).Grants .a ⟨0x41, 4, [255, 1, 0, 0]⟩ ∧ owning.mode ≠ .operate
      ∧ requestCommand .a ⟨0x41, 4, [255, 1, 0, 0]⟩ ∈ recordCommands .a)
    ∧ ((asked 0x13 0 [] owning).Grants .a ⟨0x13, 0, []⟩ ∧ (0x13 : Byte) ∉ requestCodes)
    ∧ ((asked 0x10 1 [252] operating).Grants .a ⟨0x10, 1, [252]⟩ ∧ (0x10 : Byte) ∈ pointCodes
      ∧ ∀ x, Request.Names ⟨0x10, 1, [252]⟩ x → operating.config.defined x = false)
    ∧ ((asked 0x10 2 [16, 0] operating).Grants .a ⟨0x10, 2, [16, 0]⟩ ∧ ¬ Request.FormFits ⟨0x10, 2, [16, 0]⟩
      ∧ Request.Names ⟨0x10, 2, [16, 0]⟩ 16 ∧ operating.config.defined 16 = true
      ∧ ¬ Request.FormFits ⟨0x48, 1, [11]⟩)
    ∧ (asked 0x52 0 [] { owning with owner := some .b }).Grants .a ⟨0x52, 0, []⟩ ∧ Request.FormFits ⟨0x52, 0, []⟩
      ∧ (asked 0x52 0 [] { owning with storeOp := .reading .a }).Grants .a ⟨0x52, 0, []⟩ := by
  refine ⟨⟨⟨rfl, rfl⟩, rfl⟩, ⟨⟨rfl, rfl⟩, by decide, by decide⟩, ⟨⟨rfl, rfl⟩, by decide⟩,
    ⟨⟨rfl, rfl⟩, by decide, ?_⟩, ⟨⟨rfl, rfl⟩, by unfold Request.FormFits; decide, rfl, by decide +kernel,
      by unfold Request.FormFits; decide⟩, ⟨rfl, rfl⟩, by unfold Request.FormFits; decide, ⟨rfl, rfl⟩⟩
  unfold Request.Names
  decide +kernel

/-- SOURCE_MISMATCH, NOT_PERMITTED, NO_RECORD, STALE with a record and with none, WRONG_STATE twice and
CONDITION_PRESENT. -/
theorem test_RefusedRequestsChangeNothing_point :
    ((asked 0x12 1 [0] (holding [] [] operating)).Asks .a ⟨0x12, 1, [0]⟩ 0 ∧ (cfg.point 0).source ≠ .port)
    ∧ ((asked 0x34 1 [251] (holding [] [] operating)).Asks .a ⟨0x34, 1, [251]⟩ 251 ∧ isSystem 251 = true)
    ∧ ((asked 0x31 1 [16] (holding [] [] operating)).Asks .a ⟨0x31, 1, [16]⟩ 16
      ∧ (tableOf [] []).recordOf 16 = none ∧ (cfg.point 16).shelvable = true)
    ∧ ((asked 0x30 5 [17, 1, 0, 1, 0] (holding [recordIn 17 .held] [] operating)).Asks .a
        ⟨0x30, 5, [17, 1, 0, 1, 0]⟩ 17
      ∧ (tableOf [recordIn 17 .held] []).recordOf 17 ≠ none
      ∧ Request.half ⟨0x30, 5, [17, 1, 0, 1, 0]⟩ 3 ≠ ((tableOf [recordIn 17 .held] []).live 17).revision)
    ∧ ((asked 0x2A 3 [20, 1, 0] (holding fullHeld [20] operating)).Asks .a ⟨0x2A, 3, [20, 1, 0]⟩ 20
      ∧ ((tableOf fullHeld [20]).live 20).waiting = true
      ∧ Request.half ⟨0x2A, 3, [20, 1, 0]⟩ 1 ≠ ((tableOf fullHeld [20]).live 20).revision)
    ∧ (asked 0x28 1 [17] (holding [recordIn 17 .new] [] operating)).Asks .a ⟨0x28, 1, [17]⟩ 17
      ∧ (asked 0x31 1 [17] (holding [recordIn 17 .new] [] operating)).Asks .a ⟨0x31, 1, [17]⟩ 17
      ∧ (tableOf [recordIn 17 .new] []).recordOf 17 = some (recordIn 17 .new) ∧ (recordIn 17 .new).shelf = none
      ∧ (asked 0x28 1 [17] (holding [recordIn 17 .new] [] operating)).RevisionFits ⟨0x28, 1, [17]⟩ 1 17
    ∧ (asked 0x2A 1 [17] (holding [recordIn 17 .new] [] operating)).Asks .a ⟨0x2A, 1, [17]⟩ 17
      ∧ ((tableOf [recordIn 17 .new] []).live 17).condition = true := by
  refine ⟨⟨asks_at [] [] rfl (by decide +kernel) ?_, by decide +kernel⟩,
    ⟨asks_at [] [] rfl (by decide +kernel) ?_, rfl⟩,
    ⟨asks_at [] [] rfl (by decide +kernel) ?_, by decide +kernel, by decide +kernel⟩,
    ⟨asks_at _ [] rfl (by decide +kernel) ?_, by rw [record_one]; simp, by decide +kernel⟩,
    ⟨asks_at _ _ rfl (by decide +kernel) ?_, by decide +kernel, by decide +kernel⟩,
    asks_at _ [] rfl (by decide +kernel) ?_, asks_at _ [] rfl (by decide +kernel) ?_, record_one _ _, rfl,
    fun h => by simp at h, asks_at _ [] rfl (by decide +kernel) ?_, by decide +kernel⟩
  all_goals (unfold Request.FormFits; decide)

/-- A record request, and the grant of either port and of the Work Queue. -/
theorem test_RecordRequestsLeaveTheRest :
    Instr.findNext .a ∈ recordCommands .a ∧ (owning.port .a).mailbox = .empty ∧ owning.engine = .free
      ∧ (asked 0x42 0 [] owning).Grants .a ⟨0x42, 0, []⟩ ∧ (0x42 : Byte) ≠ 0x5F
      ∧ (posted (.lapse .a) owning).GrantsItem (.lapse .a)
      ∧ (posted .store { owning with storeOp := .ended .a (.saved true) }).GrantsItem .store :=
  ⟨by decide, rfl, rfl, ⟨rfl, rfl⟩, by decide, ⟨rfl, rfl⟩, rfl, rfl⟩

/-! Port, mode and store requests. -/

theorem test_ClearWatchAndLampTestAct :
    (asked 0x42 0 [] owning).Grants .a ⟨0x42, 0, []⟩ ∧ (asked 0x48 1 [10] owning).Grants .a ⟨0x48, 1, [10]⟩
      ∧ (Request.byte ⟨0x48, 1, [10]⟩ 0).toNat ≤ 10 ∧ (asked 0x48 1 [11] owning).Grants .a ⟨0x48, 1, [11]⟩
      ∧ 10 < (Request.byte ⟨0x48, 1, [11]⟩ 0).toNat ∧ owning.mode ≠ .starting :=
  ⟨⟨rfl, rfl⟩, ⟨rfl, rfl⟩, by decide, ⟨rfl, rfl⟩, by decide, by decide⟩

theorem test_EnterConfigureTearsDown :
    (asked 0x50 1 [1] (holding [recordIn 16 .new] [] operating)).Grants .a ⟨0x50, 1, [1]⟩
      ∧ (asked 0x50 1 [0] (holding [] [] operating)).Grants .a ⟨0x50, 1, [0]⟩ ∧ (tableOf [] []).rank = []
      ∧ (asked 0x50 1 [0] (holding [recordIn 16 .new] [] operating)).Grants .a ⟨0x50, 1, [0]⟩
      ∧ (tableOf [recordIn 16 .new] []).rank ≠ [] ∧ operating.mode = .operate :=
  ⟨⟨rfl, rfl⟩, ⟨rfl, rfl⟩, rfl, ⟨rfl, rfl⟩, by decide, rfl⟩

theorem test_OwnershipPassesInConfigure :
    (asked 0x50 1 [1] owning).Grants .a ⟨0x50, 1, [1]⟩ ∧ owning.owner ≠ some (other .a)
      ∧ (asked 0x50 1 [0] { owning with owner := some .b }).Grants .a ⟨0x50, 1, [0]⟩
      ∧ (asked 0x51 0 [] owning).Grants .a ⟨0x51, 0, []⟩ ∧ owning.owner = some .a
      ∧ (asked 0x51 0 [] { owning with owner := some .b }).Grants .a ⟨0x51, 0, []⟩ :=
  ⟨⟨rfl, rfl⟩, by decide, ⟨rfl, rfl⟩, ⟨rfl, rfl⟩, rfl, ⟨rfl, rfl⟩⟩

/-- A configuration that passes every check, one that fails check 1 (point 0 names line 0, which is OFF), and one that
fails check 7 alone. -/
theorem test_LeaveConfigureValidates :
    (asked 0x52 0 [] owning).Grants .a ⟨0x52, 0, []⟩ ∧ (asked 0x52 0 [] owning).OwnsConfiguration .a
      ∧ (∀ i, cfg.Passes i)
      ∧ ¬ ({ cfg with lines := Bank.fill 16 LineConfig.default } : ConfigMem).Passes 0
      ∧ (∀ j : Fin 7, j < 6 →
          ({ cfg with brightness := { Brightness.default with minimum := 15, maximum := 0 } } : ConfigMem).Passes j)
      ∧ ¬ ({ cfg with brightness := { Brightness.default with minimum := 15, maximum := 0 } } :
          ConfigMem).Passes 6 := by
  simp only [← ConfigMem.check_iff]
  exact ⟨⟨rfl, rfl⟩, ⟨rfl, rfl, rfl⟩, by decide +kernel, by decide +kernel, by decide +kernel, by decide +kernel⟩

theorem test_StoreRequestsBeginTheirOperation :
    (asked 0x58 0 [] owning).Grants .a ⟨0x58, 0, []⟩ ∧ (asked 0x59 0 [] owning).Grants .a ⟨0x59, 0, []⟩
      ∧ owning.mode = .configure ∧ owning.owner = some .a ∧ owning.storeOp = .idle
      ∧ (asked 0x59 0 [] { owning with storeOp := .reading .b }).Grants .a ⟨0x59, 0, []⟩ :=
  ⟨⟨rfl, rfl⟩, ⟨rfl, rfl⟩, rfl, rfl, rfl, ⟨rfl, rfl⟩⟩

theorem test_StorePhasesRunInOrder :
    (List.replicate 1280 (0 : Byte)).length = 1280 ∧ State.reset.store = [] ∧ State.reset.StoreCanonical
      ∧ ({ owning with storeOp := .programming .a (List.replicate 1280 0) } : State).storeOp =
          .programming .a (List.replicate 1280 0) := ⟨List.length_replicate, rfl, rfl, rfl⟩

theorem test_StoreItemCompletesTheRequest (x : StoreResult) :
    (posted .store { owning with storeOp := .ended .a x }).GrantsItem .store := ⟨rfl, rfl⟩

theorem test_RestartBeginsStarting :
    (asked 0x5F 0 [] operating).Grants .a ⟨0x5F, 0, []⟩ ∧ operating.mode ≠ .starting ∧ operating.storeOp = .idle
      ∧ (asked 0x5F 0 [] { owning with storeOp := .reading .b }).Grants .a ⟨0x5F, 0, []⟩ :=
  ⟨⟨rfl, rfl⟩, by decide, rfl, ⟨rfl, rfl⟩⟩

/-! Items, lines, time and light. -/

/-- Line `n` with its levels, its timer and its marks. -/
def withLine (n : Fin 16) (l : LineState) (s : State) : State := s.setLine n l

theorem test_SenseLineItemDelivers :
    ((posted (.line 0) owning).GrantsItem (.line 0) ∧ (owning.lineCfg 0).role = .sense ∧ owning.mode ≠ .operate)
    ∧ ((posted (.line 0) (holding [] [] operating)).GrantsItem (.line 0) ∧ cfg.pointOfLine 0 = some 0
      ∧ (cfg.lines.get 0).senseMode.isLevel = true ∧ (cfg.lines.get 0).assertedLevel = true)
    ∧ ((tableOf [recordIn 0 .new] []).live 0).condition = true
      ∧ (tableOf [recordIn 0 .new] []).recordOf 0 = some (recordIn 0 .new)
    ∧ (cfg.lines.get 4).senseMode.isLevel = false ∧ cfg.pointOfLine 4 = some 4
      ∧ (withLine 4 ⟨true, true, none, true, false⟩ (posted (.line 4) (holding [] [] operating))).GrantsItem (.line 4)
      ∧ (holding [] [] operating).Quiet 4 :=
  ⟨⟨⟨rfl, rfl⟩, by decide +kernel, by decide⟩,
    ⟨⟨rfl, rfl⟩, by decide +kernel, by decide +kernel, by decide +kernel⟩, by decide +kernel, record_one _ _,
    by decide +kernel, by decide +kernel, ⟨rfl, rfl⟩, ⟨rfl, by decide +kernel, by decide +kernel, by decide +kernel,
      by decide +kernel, by decide +kernel⟩⟩

theorem test_ButtonItemsAct :
    ((posted (.line 5) owning).GrantsItem (.line 5) ∧ (cfg.lines.get 5).role = .buttonAck
      ∧ (cfg.lines.get 6).role = .buttonSilence ∧ (cfg.lines.get 7).role = .buttonReset)
    ∧ (withLine 7 ⟨true, true, none, false, true⟩
        (posted (.line 7) (holding [recordIn 17 .held] [] operating))).GrantsItem (.line 7)
      ∧ ((withLine 7 ⟨true, true, none, false, true⟩ operating).line 7).pressSeen = true :=
  ⟨⟨⟨rfl, rfl⟩, by decide +kernel, by decide +kernel, by decide +kernel⟩, ⟨rfl, rfl⟩, by decide +kernel⟩

/-- With the shelved record of point 16 in the table, whose deadline is reached at second 1. -/
theorem test_UnitItemsAct :
    ((posted .shelfDue { holding [shelved] [] operating with counter := 1 }).GrantsItem .shelfDue
      ∧ (tableOf [shelved] []).shelf.head? = some ⟨1, 16⟩)
    ∧ ((posted (.lapse .b) (holding [] [] operating)).GrantsItem (.lapse .b)
      ∧ ((tableOf [] []).live (lapsePoint .b)).condition = false ∧ (tableOf [] []).recordOf (lapsePoint .b) = none
      ∧ (tableOf [recordIn 250 .new] []).recordOf (lapsePoint .b) = some (recordIn 250 .new))
    ∧ (posted .sensor owning).GrantsItem .sensor :=
  ⟨⟨⟨rfl, rfl⟩, rfl⟩, ⟨⟨rfl, rfl⟩, by decide +kernel, by decide +kernel, record_one _ _⟩, rfl, rfl⟩

/-- The only record of that table is the shelved one of point 16. -/
theorem record_shelved {p : Point} {r : Record} (h : (tableOf [shelved] []).recordOf p = some r) :
    p = 16 ∧ r = shelved := by
  by_cases e : p = 16
  · subst e
    refine ⟨rfl, ?_⟩
    rw [(by decide +kernel : (tableOf [shelved] []).recordOf 16 = some shelved)] at h
    exact (Option.some.inj h).symm
  · have hv : ¬ 16 = p.val := fun h => e (Fin.ext h.symm)
    have hl : ((tableOf [shelved] []).live p).link = none := by
      rw [tableOf_live]
      simp [shelved, recordIn, freshRecord, List.findIdx?_cons, hv]
    simp [Table.recordOf, hl] at h

theorem records_shelved : (tableOf [shelved] []).RecordsSound cfg := by
  refine ⟨?_, by decide, ?_⟩
  · intro p r h
    obtain ⟨rfl, rfl⟩ := record_shelved h
    decide +kernel
  · intro p
    by_cases e : p = 16
    · subst e; decide +kernel
    · have h1 : (tableOf [shelved] []).recordOf p = none := by
        rcases h : (tableOf [shelved] []).recordOf p with _ | r
        · rfl
        · exact absurd (record_shelved h).1 e
      have : ((16 : Point) == p) = false := by simpa using fun h => e h.symm
      rw [h1]
      simp [tableOf, shelved, recordIn, freshRecord, this]

theorem test_LinesQualifyTheirLevels :
    (owning.line 0).raw ≠ true ∧ State.reset.mode = .starting ∧ (cfg.lines.get 15).role.qualifies = false
      ∧ (cfg.lines.get 0).role.qualifies = true ∧ true ≠ (owning.line 0).qualified
      ∧ (cfg.lines.get 0).onDelay = 0 ∧ (cfg.lines.get 0).offDelay = 0
      ∧ ((withLine 0 ⟨true, false, some 5, false, false⟩ owning).line 0).raw ≠ false
      ∧ false = ((withLine 0 ⟨true, false, some 5, false, false⟩ owning).line 0).qualified
      ∧ ((withLine 0 ⟨true, false, some 5, false, false⟩ owning).line 0).timer ≠ none := by decide +kernel

theorem test_LinesQualifyTheirLevels_delayed :
    ({ cfg.lines.get 0 with onDelay := 255 } : LineConfig).onDelay ≠ 0
      ∧ ({ cfg.lines.get 0 with onDelay := 255 } : LineConfig).assertedLevel = true := by decide +kernel

/-- A line of each role with a pending timer: the sense modes on lines 0 to 4, the buttons on lines 5 to 9. -/
theorem test_QualifiedChangesHaveTheirConsequences (n : Fin 16) (level : Bool) :
    (withLine n ⟨level, !level, some 1, false, false⟩ operating).resetHeld = false
      ∧ ((withLine n ⟨level, !level, some 1, false, false⟩ operating).line n).timer ≠ none
      ∧ ((withLine n ⟨level, !level, some 1, false, false⟩ operating).line n).raw = level
      ∧ ((cfg.lines.get 2).senseMode = .rise ∧ (cfg.lines.get 3).senseMode = .fall
        ∧ (cfg.lines.get 4).senseMode = .both ∧ (cfg.lines.get 7).role.postsPress = true
        ∧ (cfg.lines.get 8).role = .buttonTest ∧ (cfg.lines.get 9).role = .buttonBright) := by
  refine ⟨rfl, ?_, ?_, by decide +kernel⟩ <;> simp [withLine, State.line, State.setLine]

theorem test_TimeStepsMoveTheirCounters :
    operating.resetHeld = false ∧ (tableOf [shelved] []).shelf.head? = some ⟨1, 16⟩
      ∧ (operating.counter + 1 - (1 : Word)).toNat < 2 ^ 31 ∧ 2 ^ 31 ≤ (operating.counter + 1 - (2 : Word)).toNat := by
  decide +kernel

/-- The reading of the SENSOR slot, in row 0, in its charge. -/
def charging : State := { operating with display := { Display.reset with reading := some ⟨32, .charging⟩ } }

theorem test_FrameStartTakesLevelAndPatterns :
    operating.mode ≠ .starting ∧ ¬ operating.LampTestHolds
      ∧ ({ operating with display := { Display.reset with lampTimer := some 1 } } : State).LampTestHolds
      ∧ cfg.brightness.minimum ≤ cfg.brightness.maximum ∧ (cfg.slots.get 0).role = .sensor
      ∧ (cfg.slots.get 1).role = .pool ∧ (cfg.slots.get 63).role = .unused := by
  unfold State.LampTestHolds
  decide +kernel

/-- The columns of the row that the scan stands in: slot 7 of row 0, and the SENSOR slot while it is charged. -/
theorem test_FrameStartTakesLevelAndPatterns_columns :
    (7 : Fin 64).val / 8 = charging.display.row.val ∧ (7 : Fin 64).val % 8 = (7 : Fin 8).val
      ∧ charging.config.sensorSlot ≠ some 7 ∧ charging.display.reading = some ⟨32, .charging⟩
      ∧ charging.config.sensorSlot = some 0 := by decide +kernel

/-- A reading that began is charged in the next row period of its row, row 0. -/
theorem test_charge_in_its_row_period :
    (operating.beginReading.enterRow 0).columnDrive 0 3 = .charge
      ∧ (operating.beginReading.enterRow 1).columnDrive 0 3 = .dark := by decide +kernel

theorem test_ReadingsJudgeTheSensorLamp :
    operating.mode ≠ .starting ∧ operating.config.sensorSlot ≠ none ∧ operating.display.reading = none
      ∧ operating.beginReading.display.reading = some ⟨32, .toCharge⟩ ∧ (0 : Fin 64) < 1 ∧ (32 : Fin 64) ≤ 32
      ∧ (32 : Fin 64).val < 33 := by
  decide +kernel

theorem test_DrivePinFollowsTheLogicalState :
    operating.mode ≠ .starting ∧ (cfg.lines.get 14).role.isDrive = true
      ∧ driveActive (cfg.lines.get 14) operating.table.counts operating.mode = true
      ∧ (cfg.lines.get 12).role = .driveRelay := by decide +kernel

theorem test_CommandsLeaveTheRest :
    frameCommands .a (.secondCounterLatch .a) ∧ Instr.slotMapWrite .a 1 2 ∈ pairCommands .a 1 2
      ∧ Instr.buttonAckItem 15 ∈ itemCommands ∧ Instr.loadStore .b ∈ modeCommands .b
      ∧ Instr.readingStart ∈ unitCommands 0 true none :=
  ⟨.inr (.inr (.inl rfl)), by decide, by decide, by decide, by decide⟩

/-! Configuration and invariants. -/

theorem test_SavedImageLoadsBack : cfg.FieldsLegal := legal_cfg

/-- A part in CONFIGURE, owned by Port A, about to run a command. -/
def waitingOwner : State := { owning with pending := [.flashPhaseChange] }

theorem empty_owner : waitingOwner.EmptyOutsideOperate :=
  ⟨fun _ => ⟨rfl, rfl, rfl, rfl⟩, fun _ i => by simp [waitingOwner, owning, State.reset, Table.reset],
    fun _ p => by simp [waitingOwner, owning, State.reset, Table.reset, Table.live, PointLive.reset],
    fun _ p => by cases p <;> rfl⟩

theorem test_StepKeepsControl :
    waitingOwner.StoreCanonical ∧ waitingOwner.QueueNoRepeats ∧ waitingOwner.OwnedInConfigure
      ∧ waitingOwner.MailboxesAgree ∧ waitingOwner.EmptyOutsideOperate ∧ waitingOwner.QuietInStarting
      ∧ ∃ t, step waitingOwner = .next t :=
  ⟨rfl, List.nodup_nil, ⟨fun _ => rfl, fun _ => rfl⟩,
    ⟨fun p => by cases p <;> decide, fun p => by cases p <;> decide, by decide,
      fun p r => by cases p <;> exact Mailbox.noConfusion, fun p _ _ => by cases p <;> rfl⟩,
    empty_owner, (by constructor <;> (intro h; cases h)), _, rfl⟩

/-- A part in OPERATE with a shelved record, about to run a command. -/
def waitingShelved : State := { holding [shelved] [] operating with pending := [.secondCounterIncrement] }

theorem held_shelved : waitingShelved.HeldAtReset := fun h => absurd h (by decide)

/-- The invariant speaks of the held reset input, which a pin reset leaves so. -/
theorem test_HeldAtReset : ({ State.reset with resetHeld := true } : State).HeldAtReset :=
  fun _ => test_PinResetHoldsThenStarts.1

theorem test_StepKeepsConfigurationAndLines :
    waitingShelved.OwnedInConfigure ∧ waitingShelved.config.FieldsLegal ∧ waitingShelved.MapSoundInOperate
      ∧ waitingShelved.LinesAgree ∧ waitingShelved.SensingAgrees ∧ waitingShelved.HeldAtReset
      ∧ ∃ t, step waitingShelved = .next t :=
  ⟨⟨by decide, by decide⟩, test_SavedImageLoadsBack, ⟨fun _ => by decide +kernel, fun h => by cases h⟩,
    by constructor <;> simp [State.line, waitingShelved, holding, operating, State.reset, LineState.reset],
    by constructor <;> simp [waitingShelved, holding, operating, State.reset, Display.reset], held_shelved, _, rfl⟩

theorem test_StepKeepsTables :
    waitingShelved.OwnedInConfigure ∧ waitingShelved.config.FieldsLegal ∧ waitingShelved.TablesAgree
      ∧ waitingShelved.HeldAtReset ∧ ∃ t, step waitingShelved = .next t :=
  ⟨⟨by decide, by decide⟩, test_SavedImageLoadsBack,
    ⟨⟨fun h => absurd rfl h, fun h => absurd rfl h, fun h => absurd rfl h, fun h => absurd rfl h⟩,
      linked_tableOf (by simp) (by simp) (by simp) (by simp), by unfold Table.RankedByClass; decide +kernel,
      by constructor <;> decide +kernel, records_shelved,
      ⟨by decide +kernel, by decide +kernel, by decide +kernel, by decide +kernel, fun p r h => by
        obtain ⟨rfl, rfl⟩ := record_shelved h
        decide +kernel⟩⟩, held_shelved, _, rfl⟩

theorem test_StepKeepsDisplay :
    waitingOwner.OwnedInConfigure ∧ waitingOwner.EmptyOutsideOperate ∧ waitingOwner.DisplayAgrees
      ∧ waitingOwner.DueIsPosted ∧ waitingOwner.HeldAtReset ∧ ∃ t, step waitingOwner = .next t :=
  ⟨⟨fun _ => rfl, fun _ => rfl⟩, empty_owner, waitingOwner.displayAgrees_iff.mpr (by decide +kernel),
    fun e h => by simp [waitingOwner, owning, State.reset, Table.reset] at h,
    fun h => absurd h (by decide), _, rfl⟩

end Sys2Proof.Slice0
end

section
/-! The outputs of the field lines: what the pin and the pull of a DRIVE line are (R112, R113). -/

namespace Sys2Proof

/-- A test holds somewhere in a bank's items from place `k` on exactly when it holds at an index not below `k`. -/
theorem Bank.any_drop_items {α : Type} {n : Nat} (b : Bank α n) (k : Nat) (q : α → Bool) :
    (b.items.drop k).any q = true ↔ ∃ i : Fin n, k ≤ i.val ∧ q (b.get i) = true := by
  rw [List.any_eq_true]
  constructor
  · rintro ⟨x, hx, hq⟩
    obtain ⟨j, hj, rfl⟩ := List.mem_drop_iff_getElem.mp hx
    exact ⟨⟨k + j, by rw [← b.size]; omega⟩, Nat.le_add_right k j, by rwa [Bank.get_eq_getElem]⟩
  · rintro ⟨i, hi, hq⟩
    refine ⟨b.get i, List.mem_drop_iff_getElem.mpr ⟨i.val - k, ?_, ?_⟩, hq⟩
    · rw [Nat.sub_add_cancel hi, b.size]; exact i.isLt
    · rw [Bank.get_eq_getElem]
      congr 1
      omega

end Sys2Proof

namespace Sys2Proof.Machine

/-! The logical state of each DRIVE role (R112). -/

section
variable {c : LineConfig} (k : Counts) (m : Mode)

theorem driveActive_alert (hr : c.role = .driveAlert) : driveActive c k m = true ↔ 0 < k.alertSounding := by
  simp [driveActive, hr]

theorem driveActive_return (hr : c.role = .driveReturn) : driveActive c k m = true ↔ 0 < k.returnSounding := by
  simp [driveActive, hr]

theorem driveActive_relay (hr : c.role = .driveRelay) :
    driveActive c k m = true ↔ ∃ i : Fin 8, c.threshold ≤ i ∧ 0 < k.presentByClass.get i := by
  simp only [driveActive, hr, Bank.any_drop_items, decide_eq_true_eq, Fin.le_def]

theorem driveActive_fault (hr : c.role = .driveFault) :
    driveActive c k m = true ↔ 0 < k.liveSystem ∨ k.sensorFault = true := by
  simp [driveActive, hr]

theorem driveActive_health (hr : c.role = .driveHealth) : driveActive c k m = true ↔ m = .operate := by
  simp [driveActive, hr]

end

/-! Pattern, polarity and drive type (R113). -/

theorem driveOn_iff (c : LineConfig) (active : Bool) (phase : Fin 8) :
    driveOn c active phase = true ↔ active = true ∧ (c.pulsed = false ∨ phase.val < 4) := by
  simp [driveOn, Pattern.lit]

/-- The pin by the level `high` that the polarity gives. -/
theorem drivePin_of_level {on activeHigh high : Bool} (pushPull : Bool)
    (h : high = true ↔ (on = true ↔ activeHigh = true)) :
    drivePin on activeHigh pushPull = if high then (if pushPull then .high else .released) else .low := by
  have hlevel : (on == activeHigh) = high := by
    rw [Bool.eq_iff_iff, h, beq_iff_eq, Bool.eq_iff_iff]
  rw [drivePin, hlevel]

section
variable {s : State} {n : Fin 16} (hm : s.mode ≠ .starting) (hd : (s.lineCfg n).role.isDrive = true)
include hm hd

theorem State.linePin_of_drive :
    s.linePin n = drivePin
      (driveOn (s.lineCfg n) (driveActive (s.lineCfg n) s.table.counts s.mode) s.display.phase)
      (s.lineCfg n).driveHigh (s.lineCfg n).pushPull := by
  simp [State.linePin, hm, hd]

theorem State.linePull_of_drive :
    s.linePull n = if (s.lineCfg n).pushPull then .none else (s.lineCfg n).pull := by
  simp [State.linePull, hm, hd]

/-- The steps of R113 in order: `on` by the pattern, `high` by the polarity, the pin by the drive type. -/
theorem State.linePin_of_level {on high : Bool}
    (hon : on = true ↔ driveActive (s.lineCfg n) s.table.counts s.mode = true
      ∧ ((s.lineCfg n).pulsed = false ∨ s.display.phase.val < 4))
    (hhigh : high = true ↔ (on = true ↔ (s.lineCfg n).driveHigh = true)) :
    s.linePin n = if high then (if (s.lineCfg n).pushPull then .high else .released) else .low := by
  have hpattern : on = driveOn (s.lineCfg n) (driveActive (s.lineCfg n) s.table.counts s.mode) s.display.phase := by
    rw [Bool.eq_iff_iff, hon, driveOn_iff]
  rw [State.linePin_of_drive hm hd, ← hpattern]
  exact drivePin_of_level _ hhigh

end

/-- Settles O53: the steps of R113 give the pin and its pull, and each role's clause of R112 its logical state. -/
theorem drivePinFollowsTheLogicalState : Obligations.DrivePinFollowsTheLogicalState := by
  unfold Obligations.DrivePinFollowsTheLogicalState
  intro s n on high hm hd hon hhigh
  exact ⟨State.linePin_of_level hm hd hon hhigh, State.linePull_of_drive hm hd,
    driveActive_alert _ _, driveActive_return _ _, driveActive_relay _ _,
    driveActive_fault _ _, driveActive_health _ _⟩

end Sys2Proof.Machine
end

section
/-! The five display patterns: the phases in which each is lit, and its level (R146). -/

namespace Sys2Proof.Machine

/-! The phases of the flashing patterns, by number. -/

section
variable (ph : Fin 8)

theorem Pattern.fast_lit_iff : Pattern.fast.lit ph = true ↔ ph = 0 ∨ ph = 2 ∨ ph = 4 ∨ ph = 6 := by
  rw [Pattern.lit, decide_eq_true_iff]
  omega

theorem Pattern.first_lit_iff : Pattern.first.lit ph = true ↔ ph = 0 ∨ ph = 2 := by
  rw [Pattern.lit, Bool.or_eq_true, decide_eq_true_iff, decide_eq_true_iff]
  omega

theorem Pattern.slow_lit_iff : Pattern.slow.lit ph = true ↔ ph = 0 ∨ ph = 1 ∨ ph = 2 ∨ ph = 3 := by
  rw [Pattern.lit, decide_eq_true_iff]
  omega

theorem Pattern.steady_lit : Pattern.steady.lit ph = true := rfl

theorem Pattern.dim_lit : Pattern.dim.lit ph = true := rfl

end

/-! The level: DIM alone departs from the current level. -/

theorem Pattern.level_of_ne_dim (x : Pattern) (hx : x ≠ .dim) (level : Fin 16) : x.level level = level.val := by
  cases x with
  | dim => exact absurd rfl hx
  | fast | first | slow | steady => rfl

/-- Level 0 first: there half the level is 0 and stays 0; at any other level a half of 0 is raised to 1. -/
theorem dimLevel_eq (level : Fin 16) :
    dimLevel level = if level.val = 0 then 0 else if level.val / 2 = 0 then 1 else level.val / 2 := by
  rw [dimLevel]
  by_cases hzero : level.val = 0
  · simp [hzero]
  · have hpos : 1 ≤ level.val := Nat.one_le_iff_ne_zero.mpr hzero
    simp only [hzero, hpos, and_true, if_false]

theorem Pattern.dim_level (level : Fin 16) : Pattern.dim.level level = dimLevel level := rfl

/-- Settles O51: the phases of each pattern, and its level by whether it is DIM. -/
theorem patternsLightTheirPhases : Obligations.PatternsLightTheirPhases := by
  unfold Obligations.PatternsLightTheirPhases
  intro ph level
  exact ⟨Pattern.fast_lit_iff ph, Pattern.first_lit_iff ph, Pattern.slow_lit_iff ph,
    Pattern.steady_lit ph, Pattern.dim_lit ph,
    Pattern.level_of_ne_dim .fast nofun level, Pattern.level_of_ne_dim .first nofun level,
    Pattern.level_of_ne_dim .slow nofun level, Pattern.level_of_ne_dim .steady nofun level,
    (Pattern.dim_level level).trans (dimLevel_eq level)⟩

end Sys2Proof.Machine
end

section
/-! The flags that a pair clears by writing 1: the event status and the Reset Cause (R168). -/

namespace Sys2Proof.Machine

/-! Commands outside the hold of the reset input, and updates that change nothing. -/

theorem unlessHeld_of_released {s : State} (h : s.resetHeld = false) (t : State) : unlessHeld s t = .next t := by
  simp [unlessHeld, h]

theorem State.onPort_of_fixed (s : State) (p : PortId) {f : Port → Port} (h : f (s.port p) = s.port p) :
    s.onPort p f = s := by
  calc s.onPort p f = s.setPort p (f (s.port p)) := rfl
    _ = s.setPort p (s.port p) := congrArg (s.setPort p) h
    _ = s := by cases p <;> rfl

/-! Clearing by writing 1, bit by bit. A mask of 0 clears nothing. -/

/-- The bits of 0x0011 stand at bits 8 and 9 of the event status, those of 0x0010 at bits 0 to 7. -/
theorem Port.getLsbD_clearStatus (x : Port) (high : Bool) (mask data : Byte) (i : Fin 10) :
    (x.clearStatus high mask data).status.getLsbD i.val =
      (x.status.getLsbD i.val &&
        !(if high then decide (8 ≤ i.val) && mask.getLsbD (i.val - 8) && data.getLsbD (i.val - 8)
          else decide (i.val < 8) && mask.getLsbD i.val && data.getLsbD i.val)) := by
  cases high with
  | true =>
    by_cases hi : i.val < 8
    · simp [Port.clearStatus, hi, Nat.not_le.mpr hi]
    · simp [Port.clearStatus, hi, Nat.not_lt.mp hi]
  | false =>
    by_cases hi : i.val < 8
    · simp [Port.clearStatus, hi]
    · simp [Port.clearStatus, hi, BitVec.getLsbD_of_ge mask i.val (Nat.not_lt.mp hi)]

theorem Port.clearStatus_zero (x : Port) (high : Bool) (data : Byte) : x.clearStatus high 0 data = x := by
  have hstatus : (x.clearStatus high 0 data).status = x.status :=
    BitVec.eq_of_getLsbD_eq fun i hi => by
      simpa using Port.getLsbD_clearStatus x high 0 data ⟨i, hi⟩
  calc x.clearStatus high 0 data = { x with status := (x.clearStatus high 0 data).status } := rfl
    _ = x := by rw [hstatus]

theorem ResetCause.clear_zero (c : ResetCause) (data : Byte) : c.clear (0 &&& data) = c := by
  simp [ResetCause.clear]

/-! The two commands as pairs of their regions. -/

theorem State.exec_eventStatusClear_eq_pair {s : State} (hheld : s.resetHeld = false) (p : PortId) (mask data : Byte) :
    exec (.eventStatusClear p mask data) s = .next (s.pair p Region.isEventStatus mask data) :=
  unlessHeld_of_released hheld _

theorem State.exec_resetCauseClear_eq_pair {s : State} (hheld : s.resetHeld = false) (p : PortId) (mask data : Byte) :
    exec (.resetCauseClear p mask data) s = .next (s.pair p (· == .resetCause) mask data) :=
  unlessHeld_of_released hheld _

/-! Pairs at 0x0010, 0x0011 and 0x0040: Table 9-7 refuses them in STARTING alone. -/

theorem regionOf_eventStatus (high : Bool) : regionOf (if high then 0x0011 else 0x0010) = .eventStatus high := by
  cases high <;> rfl

theorem regionOf_resetCause : regionOf 0x0040 = .resetCause := rfl

theorem State.applyPair_eventStatus (s : State) (p : PortId) (high : Bool) (mask data : Byte) :
    s.applyPair p (.eventStatus high) mask data = s.onPort p (·.clearStatus high mask data) := rfl

theorem State.applyPair_eventStatus_zero (s : State) (p : PortId) (high : Bool) (data : Byte) :
    s.applyPair p (.eventStatus high) 0 data = s :=
  s.onPort_of_fixed p (f := (·.clearStatus high 0 data)) ((s.port p).clearStatus_zero high data)

theorem State.applyPair_resetCause (s : State) (p : PortId) (mask data : Byte) :
    s.applyPair p .resetCause mask data = { s with resetCause := s.resetCause.clear (mask &&& data) } := rfl

theorem State.applyPair_resetCause_zero (s : State) (p : PortId) (data : Byte) :
    s.applyPair p .resetCause 0 data = s := by
  rw [State.applyPair_resetCause, ResetCause.clear_zero]

theorem verdictIf_of_true {c : Bool} (h : c = true) : verdictIf c = .apply := h ▸ rfl

theorem verdictIf_of_false {c : Bool} (h : c = false) : verdictIf c = .refuse := h ▸ rfl

section
variable {s : State} {p : PortId} {addr : Half} {refused : Bool} (hf : (s.port p).frame = some (.write addr refused))
include hf

/-- A pair that Table 9-7 applies, in a region that a mask of 0 leaves as it is: the effect is that of the region under
any mask. -/
theorem State.pair_of_permitted {region : Region} (ha : regionOf addr = region) (regions : Region → Bool)
    (hr : regions region = true) (hv : s.verdict p region = .apply) (mask data : Byte)
    (hzero : ∀ t : State, t.applyPair p region 0 data = t) :
    s.pair p regions mask data =
      ((s.shiftOut p [s.status p, s.status p]).applyPair p region mask data).onPort p (Port.pairDone addr refused) := by
  by_cases hm : mask = 0
  · rw [hm, State.pair_of_mask_zero hf regions (ha ▸ hr), hzero]
  · exact State.pair_of_apply hf ha regions hr hm hv data

variable (hheld : s.resetHeld = false)
include hheld

theorem State.exec_eventStatusClear {high : Bool} (ha : regionOf addr = .eventStatus high) (hm : s.mode ≠ .starting)
    (mask data : Byte) :
    exec (.eventStatusClear p mask data) s =
      .next (((s.shiftOut p [s.status p, s.status p]).onPort p (·.clearStatus high mask data)).onPort p
        (Port.pairDone addr refused)) := by
  have hv : s.verdict p (.eventStatus high) = .apply := verdictIf_of_true (decide_eq_true hm)
  rw [State.exec_eventStatusClear_eq_pair hheld,
    State.pair_of_permitted hf ha Region.isEventStatus rfl hv mask data
      fun t => t.applyPair_eventStatus_zero p high data]
  rfl

theorem State.exec_resetCauseClear (ha : regionOf addr = .resetCause) (hm : s.mode ≠ .starting) (mask data : Byte) :
    exec (.resetCauseClear p mask data) s =
      .next (({ s.shiftOut p [s.status p, s.status p] with
          resetCause := s.resetCause.clear (mask &&& data) } : State).onPort p (Port.pairDone addr refused)) := by
  have hv : s.verdict p .resetCause = .apply := verdictIf_of_true (decide_eq_true hm)
  rw [State.exec_resetCauseClear_eq_pair hheld,
    State.pair_of_permitted hf ha (· == .resetCause) rfl hv mask data
      fun t => t.applyPair_resetCause_zero p data]
  rfl

variable {mask : Byte} (hmask : mask ≠ 0) (data : Byte)
include hmask

theorem State.exec_eventStatusClear_starting {high : Bool} (ha : regionOf addr = .eventStatus high)
    (hm : s.mode = .starting) :
    exec (.eventStatusClear p mask data) s = .next (s.pairAt s p addr true) := by
  have hv : s.verdict p (.eventStatus high) = .refuse := verdictIf_of_false (decide_eq_false (not_not_intro hm))
  rw [State.exec_eventStatusClear_eq_pair hheld, State.pair_of_refuse hf ha Region.isEventStatus rfl hmask hv,
    State.pairDone_eq_pairAt]

theorem State.exec_resetCauseClear_starting (ha : regionOf addr = .resetCause) (hm : s.mode = .starting) :
    exec (.resetCauseClear p mask data) s = .next (s.pairAt s p addr true) := by
  have hv : s.verdict p .resetCause = .refuse := verdictIf_of_false (decide_eq_false (not_not_intro hm))
  rw [State.exec_resetCauseClear_eq_pair hheld, State.pair_of_refuse hf ha (· == .resetCause) rfl hmask hv,
    State.pairDone_eq_pairAt]

end

/-- An update of a port that keeps its event status keeps both ports' event status. -/
theorem State.port_onPort_status (s : State) (p q : PortId) {f : Port → Port} (h : ∀ x, (f x).status = x.status) :
    ((s.onPort p f).port q).status = (s.port q).status := by
  by_cases hq : q = p
  · rw [hq, State.port_onPort, h]
  · rw [State.port_onPort_ne s f hq]

theorem State.port_pairDone_status (s : State) (p q : PortId) (addr : Half) (refused : Bool) :
    ((s.onPort p (Port.pairDone addr refused)).port q).status = (s.port q).status :=
  s.port_onPort_status p q fun _ => rfl

theorem State.port_shiftOut_status (s : State) (p q : PortId) (bs : List Byte) :
    ((s.shiftOut p bs).port q).status = (s.port q).status :=
  s.port_onPort_status p q fun _ => rfl

/-- Settles O13: the outcome of each pair by the address and the mode. -/
theorem statusAndCauseClearByWritingOne : Obligations.StatusAndCauseClearByWritingOne := by
  unfold Obligations.StatusAndCauseClearByWritingOne
  refine ⟨?eventStatus, ?resetCause, ?starting⟩
  case eventStatus =>
    intro s p high refused mask data hheld hf hm
    refine ⟨_, State.exec_eventStatusClear hf hheld (regionOf_eventStatus high) hm mask data, fun i => ?_, ?_, rfl⟩
    · rw [State.port_pairDone_status, State.port_onPort, Port.getLsbD_clearStatus, State.port_shiftOut_status]
    · rw [State.port_pairDone_status, State.port_onPort_ne _ _ (other_ne p), State.port_shiftOut_status]
  case resetCause =>
    intro s p refused mask data hheld hf hm
    refine ⟨_, State.exec_resetCauseClear hf hheld regionOf_resetCause hm mask data, rfl, fun q => ?_⟩
    rw [State.port_pairDone_status]
    exact s.port_shiftOut_status p q _
  case starting =>
    intro s p refused mask data hheld hm hmask
    exact ⟨fun high hf => State.exec_eventStatusClear_starting hf hheld hmask data (regionOf_eventStatus high) hm,
      fun hf => State.exec_resetCauseClear_starting hf hheld hmask data regionOf_resetCause hm⟩

end Sys2Proof.Machine
end

section
/-! The expiry of a port's supervision timer (R176). -/

namespace Sys2Proof.Machine

/-! The expiry of a running timer: with the lapse present and with the lapse absent. -/

section
variable (s : State) (p : PortId)

/-- The port with its timer STOPPED and its lapse present. -/
def State.lapsed : State := s.onPort p fun x => { x with timer := none, lapse := true }

theorem State.lapsed_port : (s.lapsed p).port p = { s.port p with timer := none, lapse := true } :=
  s.port_onPort p _

theorem State.lapsed_port_other : (s.lapsed p).port (other p) = s.port (other p) :=
  s.port_onPort_ne _ (other_ne p)

theorem State.lapsed_mode : (s.lapsed p).mode = s.mode := rfl
theorem State.lapsed_owner : (s.lapsed p).owner = s.owner := rfl
theorem State.lapsed_queue : (s.lapsed p).queue = s.queue := rfl

theorem State.expire_eq :
    s.expire p =
      if (s.port p).lapse then s.lapsed p
      else if s.owner = some p then
        { ((s.lapsed p).post (.lapse p)).postTo (other p) .peerLapse with owner := none }
      else ((s.lapsed p).post (.lapse p)).postTo (other p) .peerLapse := rfl

theorem State.expire_of_lapse (h : (s.port p).lapse = true) : s.expire p = s.lapsed p := by
  rw [State.expire_eq, if_pos h]

/-- The three consequences: the LAPSE item, PEER_LAPSE to the other port, and the owner. -/
theorem State.expire_of_no_lapse (h : (s.port p).lapse = false) :
    s.expire p = { ((s.lapsed p).post (.lapse p)).postTo (other p) .peerLapse with
      owner := if s.owner = some p then none else s.owner } := by
  rw [State.expire_eq, if_neg (Bool.eq_false_iff.mp h)]
  by_cases ho : s.owner = some p
  · rw [if_pos ho, if_pos ho]
  · rw [if_neg ho, if_neg ho]
    rfl

theorem State.expire_ports_of_no_lapse (h : (s.port p).lapse = false) (q : PortId) :
    (s.expire p).port q = (((s.lapsed p).post (.lapse p)).onPort (other p) (·.post .peerLapse)).port q := by
  rw [s.expire_of_no_lapse p h]
  rfl

theorem State.exec_supervisionExpiry (hheld : s.resetHeld = false) (ht : (s.port p).timer ≠ none) :
    exec (.supervisionExpiry p) s = .next (s.expire p) := by
  refine (unlessHeld_of_released hheld _).trans ?_
  rw [if_pos (Option.isSome_iff_ne_none.mpr ht)]

/-- Whether the lapse is present or absent, of the port itself the timer and the lapse change and no more. -/
theorem State.expire_port : (s.expire p).port p = { s.port p with timer := none, lapse := true } := by
  cases h : (s.port p).lapse with
  | true => rw [s.expire_of_lapse p h, State.lapsed_port]
  | false =>
    rw [s.expire_ports_of_no_lapse p h, State.port_onPort_ne _ _ (other_ne p).symm, State.post_port, State.lapsed_port]

theorem State.expire_mode : (s.expire p).mode = s.mode := by
  cases h : (s.port p).lapse with
  | true => rw [s.expire_of_lapse p h, State.lapsed_mode]
  | false => rw [s.expire_of_no_lapse p h]; rfl

theorem State.expire_queue_of_no_lapse (h : (s.port p).lapse = false) :
    (s.expire p).queue = Machine.post s.queue (.lapse p) := by
  rw [s.expire_of_no_lapse p h]
  rfl

theorem State.expire_peer_of_no_lapse (h : (s.port p).lapse = false) :
    (s.expire p).port (other p) = (s.port (other p)).post .peerLapse := by
  rw [s.expire_ports_of_no_lapse p h, State.port_onPort, State.post_port, State.lapsed_port_other]

theorem State.expire_owner_of_no_lapse (h : (s.port p).lapse = false) :
    (s.expire p).owner = if s.owner = some p then none else s.owner := by
  rw [s.expire_of_no_lapse p h]

end

/-- Settles O22: what the expiry does in both cases, then what it does by whether the lapse is present. -/
theorem supervisionExpiryLapsesThePort : Obligations.SupervisionExpiryLapsesThePort := by
  unfold Obligations.SupervisionExpiryLapsesThePort
  intro s p hheld ht
  refine ⟨s.expire p, s.exec_supervisionExpiry p hheld ht, ?_⟩
  rw [s.expire_port p]
  refine ⟨rfl, rfl, s.expire_mode p, rfl, rfl, rfl, rfl, rfl, fun hlapse => ?absent, fun hlapse => ?present⟩
  case absent =>
    rw [s.expire_queue_of_no_lapse p hlapse, s.expire_peer_of_no_lapse p hlapse, s.expire_owner_of_no_lapse p hlapse]
    exact ⟨mem_post _ _, post_of_mem, post_of_not_mem, rfl, fun ho => if_pos ho, fun ho => if_neg ho⟩
  case present =>
    rw [s.expire_of_lapse p hlapse]
    exact ⟨s.lapsed_queue p, s.lapsed_port_other p, s.lapsed_owner p⟩

end Sys2Proof.Machine
end

section
/-! The Reset Cause (R197): the flag that each kind of reset sets, and the flags that a pair clears by writing 1. -/

namespace Sys2Proof.Machine

/-! The commands of the resets. -/

theorem State.exec_powerReset (s : State) (levels : BitVec 16) :
    exec (.powerReset levels) s = .next (s.cleared.startUp levels) := rfl

theorem State.exec_pinReset (s : State) :
    exec .pinReset s = .next { s.cleared with resetHeld := true, resetCause := s.resetCause } := rfl

theorem State.exec_pinResetRelease {s : State} (hheld : s.resetHeld = true) (levels : BitVec 16) :
    exec (.pinResetRelease levels) s =
      .next (({ s with resetHeld := false, resetCause := { s.resetCause with pin := true } } : State).startUp
        levels) :=
  congrArg Host.Outcome.next (if_pos hheld)

theorem State.startUp_resetCause (s : State) (levels : BitVec 16) :
    (s.startUp levels).resetCause = s.resetCause := rfl

theorem State.cleared_resetCause (s : State) : s.cleared.resetCause = ⟨true, false, false⟩ := rfl

/-! A RESTART that is taken (R95, R198). -/

theorem restartRefusal_eq_none {s : State} {r : Request} (hlen : r.len = 0) (hm : s.mode ≠ .starting)
    (hb : s.storeBusy = false) : restartRefusal r s = none := by
  have hform : r.lengthIn [0] = true := by rw [Request.lengthIn, hlen]; rfl
  simp [restartRefusal, hform, hm, hb]

/-- The grant changes none of what the refusals of a RESTART are read from. -/
theorem State.exec_restart {s : State} {p : PortId} {r : Request} (hg : s.Grants p r) (hcode : r.code = 0x5F)
    (hlen : r.len = 0) (hm : s.mode ≠ .starting) (hb : s.storeBusy = false) :
    exec (.restart p) s = .next (s.grantMailbox p r).restart := by
  have hnone : restartRefusal r (s.grantMailbox p r) = none := restartRefusal_eq_none hlen hm hb
  calc exec (.restart p) s = unlessHeld s (s.serveBy p (· == 0x5F) (restartService p)) := rfl
    _ = .next (restartService p r (s.grantMailbox p r)) := State.serveBy_of_grants hg _ _ (beq_iff_eq.mpr hcode)
    _ = .next (s.grantMailbox p r).restart := by rw [restartService, hnone]

theorem State.restart_resetCause (s : State) :
    s.restart.resetCause = { s.resetCause with restart := true } := rfl

/-! The flags that a pair clears (R168): those whose mask bit and data bit are 1. -/

theorem ResetCause.clear_and (c : ResetCause) (mask data : Byte) :
    c.clear (mask &&& data) =
      ⟨c.power && !(mask.getLsbD 0 && data.getLsbD 0), c.pin && !(mask.getLsbD 1 && data.getLsbD 1),
        c.restart && !(mask.getLsbD 2 && data.getLsbD 2)⟩ := by
  simp only [ResetCause.clear, BitVec.getLsbD_and]

theorem State.port_pairDone_frame (s : State) (p : PortId) (addr : Half) (refused : Bool) :
    ((s.onPort p (Port.pairDone addr refused)).port p).frame = some (.write (addr + 1) refused) :=
  congrArg Port.frame (s.port_onPort p _)

/-- Settles O5: each reset by what its command leaves, the pair by the mode. -/
theorem resetCauseRecordsResets : Obligations.ResetCauseRecordsResets := by
  unfold Obligations.ResetCauseRecordsResets
  refine ⟨?power, ?pin, ?restart, ?cleared, ?refused⟩
  case power =>
    exact fun levels s => ⟨_, s.exec_powerReset levels,
      (State.startUp_resetCause _ levels).trans s.cleared_resetCause⟩
  case pin =>
    exact fun levels s hheld => ⟨_, State.exec_pinResetRelease hheld levels, State.startUp_resetCause _ levels⟩
  case restart =>
    intro s p r hg hcode hlen hm hb
    exact ⟨_, State.exec_restart hg hcode hlen hm hb, (s.grantMailbox p r).restart_resetCause⟩
  case cleared =>
    intro s p refused mask data hheld hf hm
    have hclear := s.resetCause.clear_and mask data
    exact ⟨_, State.exec_resetCauseClear hf hheld regionOf_resetCause hm mask data,
      congrArg ResetCause.power hclear, congrArg ResetCause.pin hclear, congrArg ResetCause.restart hclear,
      State.port_pairDone_frame _ p 0x0040 refused⟩
  case refused =>
    intro s p refused mask data hheld hf hm hmask
    refine ⟨_, State.exec_resetCauseClear_starting hf hheld hmask data regionOf_resetCause hm, rfl, ?_⟩
    rw [← State.pairDone_eq_pairAt]
    exact State.port_pairDone_frame _ p 0x0040 true

end Sys2Proof.Machine
end

section
/-! The items of configuration memory and their bytes: an item taken from the bytes it was written as is that item
(R191, R194). -/

namespace Sys2Proof.Machine

/-! Numbers in a byte, and fields and bits of a byte. -/

theorem toNat_ofNat_of_lt {x : Nat} (h : x < 256) : (BitVec.ofNat 8 x).toNat = x := by
  rw [BitVec.toNat_ofNat]
  exact Nat.mod_eq_of_lt h

theorem field_ofNat {x : Nat} (h : x < 256) (low width : Nat) :
    field (BitVec.ofNat 8 x) low width = x / 2 ^ low % 2 ^ width := by
  rw [field, toNat_ofNat_of_lt h]

/-- The bit of a byte at place `i`, from the place's quotient. -/
theorem getLsbD_ofNat_of_div {x i : Nat} {b : Bool} (hi : i < 8) (h : x / 2 ^ i % 2 = b.toNat) :
    (BitVec.ofNat 8 x).getLsbD i = b := by
  rw [BitVec.getLsbD_ofNat, decide_eq_true hi, Bool.true_and, Nat.testBit_eq_decide_div_mod_eq, h]
  cases b <;> rfl

theorem bitAt_eq_mul (b : Bool) (i : Nat) : bitAt b i = 2 ^ i * b.toNat ∧ b.toNat ≤ 1 := by
  cases b with
  | false => exact ⟨(Nat.mul_zero _).symm, Nat.zero_le 1⟩
  | true => exact ⟨(Nat.mul_one _).symm, Nat.le_refl 1⟩

theorem finOf_ofNat {n : Nat} (x : Fin n) (h : n ≤ 256) : finOf n (BitVec.ofNat 8 x.val).toNat = some x := by
  rw [toNat_ofNat_of_lt (Nat.lt_of_lt_of_le x.isLt h)]
  exact dif_pos x.isLt

theorem windowOf_ofNat {x : Fin 64} (h : x ≠ 0) : windowOf (BitVec.ofNat 8 x.val).toNat = some x := by
  have hpos : (BitVec.ofNat 8 x.val).toNat ≠ 0 := by
    rw [toNat_ofNat_of_lt (by omega)]
    exact fun e => h (Fin.ext e)
  exact (if_neg hpos).trans (finOf_ofNat x (by omega))

/-! Each code names the value that it was taken from. -/

theorem PointSource.code_lt (x : PointSource) : x.code < 256 := by
  cases x with
  | line n => exact Nat.lt_of_lt_of_le (Nat.add_lt_add_left n.isLt 0x10) (by decide)
  | none | port | system => decide

theorem PointSource.ofCode_code {x : PointSource} (h : x ≠ .system) : PointSource.ofCode x.code = some x := by
  cases x with
  | none | port => rfl
  | system => exact absurd rfl h
  | line n =>
    have hne : ¬ 0x10 + n.val = 0 := by omega
    have hline : 0x10 ≤ 0x10 + n.val ∧ 0x10 + n.val < 0x20 := by omega
    exact (if_neg hne).trans ((dif_pos hline).trans
      (congrArg (fun k => some (PointSource.line k)) (Fin.ext (Nat.add_sub_cancel_left 0x10 n.val))))

theorem LineRole.code_lt (x : LineRole) : x.code < 256 := by cases x <;> decide
theorem LineRole.ofCode_code (x : LineRole) : LineRole.ofCode x.code = some x := by cases x <;> rfl

theorem Pull.code_lt (x : Pull) : x.code < 4 := by cases x <;> decide
theorem Pull.ofCode_code (x : Pull) : Pull.ofCode x.code = some x := by cases x <;> rfl

theorem SenseMode.code_lt (x : SenseMode) : x.code < 8 := by cases x <;> decide
theorem SenseMode.ofCode_code (x : SenseMode) : SenseMode.ofCode x.code = some x := by cases x <;> rfl

theorem SlotRole.code_lt (x : SlotRole) : x.code < 256 := by cases x <;> decide
theorem SlotRole.ofCode_code (x : SlotRole) : SlotRole.ofCode x.code = some x := by cases x <;> rfl

theorem BrightMode.code_lt (x : BrightMode) : x.code < 256 := by cases x <;> decide
theorem BrightMode.ofCode_code (x : BrightMode) : BrightMode.ofCode x.code = some x := by cases x <;> rfl

/-! Point definitions. -/

theorem pointBytes_eq (d : PointDef) :
    pointBytes d = [BitVec.ofNat 8 d.source.code, BitVec.ofNat 8 (d.cls.val + 16 * d.group.val),
      BitVec.ofNat 8 (bitAt d.latch 0 + bitAt d.ringback 1 + bitAt d.sound 2 + bitAt d.pool 3 + bitAt d.shelvable 4
        + bitAt d.enabled 5), 0] := rfl

/-- A user point takes every field from its bytes. -/
theorem PointDef.fromBytes_user (x : PointDef) (b0 b1 b2 b3 : Byte) :
    fromBytes (PointDef.setByte false) x [b0, b1, b2, b3] =
      { source := (PointSource.ofCode b0.toNat).getD x.source
        cls := Fin.ofNat 8 (field b1 0 3)
        latch := b2.getLsbD 0
        ringback := b2.getLsbD 1
        sound := b2.getLsbD 2
        pool := b2.getLsbD 3
        group := Fin.ofNat 8 (field b1 4 3)
        shelvable := b2.getLsbD 4
        enabled := b2.getLsbD 5 } := rfl

/-- The fixed fields of a system point stand (R3). -/
theorem PointDef.fromBytes_system (x : PointDef) (b0 b1 b2 b3 : Byte) :
    fromBytes (PointDef.setByte true) x [b0, b1, b2, b3] =
      { x with
        cls := Fin.ofNat 8 (field b1 0 3)
        sound := b2.getLsbD 2
        pool := b2.getLsbD 3
        group := Fin.ofNat 8 (field b1 4 3) } := rfl

theorem field_classAndGroup (c g : Fin 8) :
    Fin.ofNat 8 (field (BitVec.ofNat 8 (c.val + 16 * g.val)) 0 3) = c
      ∧ Fin.ofNat 8 (field (BitVec.ofNat 8 (c.val + 16 * g.val)) 4 3) = g := by
  have hlt : c.val + 16 * g.val < 256 := by omega
  rw [field_ofNat hlt, field_ofNat hlt]
  exact ⟨Fin.ext (by rw [Fin.val_ofNat]; omega), Fin.ext (by rw [Fin.val_ofNat]; omega)⟩

theorem getLsbD_pointFlags (b0 b1 b2 b3 b4 b5 : Bool) :
    let x := BitVec.ofNat 8 (bitAt b0 0 + bitAt b1 1 + bitAt b2 2 + bitAt b3 3 + bitAt b4 4 + bitAt b5 5)
    x.getLsbD 0 = b0 ∧ x.getLsbD 1 = b1 ∧ x.getLsbD 2 = b2 ∧ x.getLsbD 3 = b3 ∧ x.getLsbD 4 = b4
      ∧ x.getLsbD 5 = b5 := by
  have h0 := bitAt_eq_mul b0 0
  have h1 := bitAt_eq_mul b1 1
  have h2 := bitAt_eq_mul b2 2
  have h3 := bitAt_eq_mul b3 3
  have h4 := bitAt_eq_mul b4 4
  have h5 := bitAt_eq_mul b5 5
  refine ⟨?_, ?_, ?_, ?_, ?_, ?_⟩ <;> exact getLsbD_ofNat_of_div (by omega) (by omega)

theorem loadPoint_user {i : Nat} (hi : ¬ 248 ≤ i) {d : PointDef} (h : d.source ≠ .system) :
    loadPoint i (pointBytes d) = d := by
  obtain ⟨hcls, hgroup⟩ := field_classAndGroup d.cls d.group
  obtain ⟨hlatch, hringback, hsound, hpool, hshelvable, henabled⟩ :=
    getLsbD_pointFlags d.latch d.ringback d.sound d.pool d.shelvable d.enabled
  rw [loadPoint, decide_eq_false hi, pointBytes_eq, PointDef.fromBytes_user, toNat_ofNat_of_lt d.source.code_lt,
    PointSource.ofCode_code h, hcls, hgroup, hlatch, hringback, hsound, hpool, hshelvable, henabled, Option.getD_some]

/-- The fixed fields of a system point come from its default definition (R3). -/
theorem loadPoint_system {i : Nat} (hi : 248 ≤ i) {d : PointDef}
    (h : d.source = .system ∧ d.latch = false ∧ d.ringback = false ∧ d.shelvable = false ∧ d.enabled = true) :
    loadPoint i (pointBytes d) = d := by
  have hdefault : PointDef.default i = PointDef.systemDefault := if_neg (Nat.not_lt.mpr hi)
  obtain ⟨hcls, hgroup⟩ := field_classAndGroup d.cls d.group
  obtain ⟨-, -, hsound, hpool, -, -⟩ :=
    getLsbD_pointFlags d.latch d.ringback d.sound d.pool d.shelvable d.enabled
  rw [loadPoint, decide_eq_true hi, hdefault, pointBytes_eq, PointDef.fromBytes_system, hcls, hgroup, hsound, hpool]
  obtain ⟨source, cls, latch, ringback, sound, pool, group, shelvable, enabled⟩ := d
  obtain ⟨rfl, rfl, rfl, rfl, rfl⟩ := h
  rfl

/-! Line configurations. -/

theorem LineConfig.fromBytes_eq (x : LineConfig) (b0 b1 b2 b3 b4 b5 b6 b7 : Byte) :
    fromBytes LineConfig.setByte x [b0, b1, b2, b3, b4, b5, b6, b7] =
      { role := (LineRole.ofCode b0.toNat).getD x.role
        pull := (Pull.ofCode (field b1 0 2)).getD x.pull
        senseMode := (SenseMode.ofCode (field b1 2 3)).getD x.senseMode
        activeHigh := b1.getLsbD 7
        onDelay := b2
        offDelay := b3
        pushPull := b4.getLsbD 0
        driveHigh := b4.getLsbD 1
        pulsed := b4.getLsbD 2
        threshold := (finOf 8 b5.toNat).getD x.threshold } := rfl

theorem lineBytes_eq (c : LineConfig) :
    lineBytes c = [BitVec.ofNat 8 c.role.code,
      BitVec.ofNat 8 (c.pull.code + 4 * c.senseMode.code + bitAt c.activeHigh 7), c.onDelay, c.offDelay,
      BitVec.ofNat 8 (bitAt c.pushPull 0 + bitAt c.driveHigh 1 + bitAt c.pulsed 2), BitVec.ofNat 8 c.threshold.val,
      0, 0] := rfl

theorem field_pullAndSense (x : Pull) (m : SenseMode) (active : Bool) :
    let b := BitVec.ofNat 8 (x.code + 4 * m.code + bitAt active 7)
    field b 0 2 = x.code ∧ field b 2 3 = m.code ∧ b.getLsbD 7 = active := by
  intro b
  have hpull := x.code_lt
  have hsense := m.code_lt
  have hactive := bitAt_eq_mul active 7
  have hlt : x.code + 4 * m.code + bitAt active 7 < 256 := by omega
  rw [field_ofNat hlt, field_ofNat hlt]
  exact ⟨by omega, by omega, getLsbD_ofNat_of_div (by omega) (by omega)⟩

theorem getLsbD_driveFlags (b0 b1 b2 : Bool) :
    let x := BitVec.ofNat 8 (bitAt b0 0 + bitAt b1 1 + bitAt b2 2)
    x.getLsbD 0 = b0 ∧ x.getLsbD 1 = b1 ∧ x.getLsbD 2 = b2 := by
  have h0 := bitAt_eq_mul b0 0
  have h1 := bitAt_eq_mul b1 1
  have h2 := bitAt_eq_mul b2 2
  refine ⟨?_, ?_, ?_⟩ <;> exact getLsbD_ofNat_of_div (by omega) (by omega)

theorem fromBytes_lineBytes (c x : LineConfig) : fromBytes LineConfig.setByte x (lineBytes c) = c := by
  obtain ⟨hpull, hsense, hactive⟩ := field_pullAndSense c.pull c.senseMode c.activeHigh
  obtain ⟨hpush, hhigh, hpulsed⟩ := getLsbD_driveFlags c.pushPull c.driveHigh c.pulsed
  rw [lineBytes_eq, LineConfig.fromBytes_eq, toNat_ofNat_of_lt c.role.code_lt, LineRole.ofCode_code, hpull,
    Pull.ofCode_code, hsense, SenseMode.ofCode_code, hactive, hpush, hhigh, hpulsed,
    finOf_ofNat c.threshold (by omega), Option.getD_some, Option.getD_some, Option.getD_some, Option.getD_some]

/-! Slot Map entries, brightness and port configuration. -/

theorem SlotEntry.fromBytes_eq (x : SlotEntry) (b0 b1 : Byte) :
    fromBytes SlotEntry.setByte x [b0, b1] = ⟨(SlotRole.ofCode b0.toNat).getD x.role, b1⟩ := rfl

theorem entryBytes_eq (e : SlotEntry) : entryBytes e = [BitVec.ofNat 8 e.role.code, e.operand] := rfl

theorem fromBytes_entryBytes (e x : SlotEntry) : fromBytes SlotEntry.setByte x (entryBytes e) = e := by
  rw [entryBytes_eq, SlotEntry.fromBytes_eq, toNat_ofNat_of_lt e.role.code_lt, SlotRole.ofCode_code, Option.getD_some]

theorem Brightness.fromBytes_eq (x : Brightness) (b0 b1 b2 b3 b4 b5 : Byte) :
    fromBytes Brightness.setByte x [b0, b1, b2, b3, b4, b5] =
      { mode := (BrightMode.ofCode b0.toNat).getD x.mode
        fixed := (finOf 16 b1.toNat).getD x.fixed
        minimum := (finOf 16 b2.toNat).getD x.minimum
        maximum := (finOf 16 b3.toNat).getD x.maximum
        sensePeriod := (finOf 4 b4.toNat).getD x.sensePeriod
        window := (windowOf b5.toNat).getD x.window } := rfl

theorem brightnessBytes_eq (c : Brightness) :
    brightnessBytes c = [BitVec.ofNat 8 c.mode.code, BitVec.ofNat 8 c.fixed.val, BitVec.ofNat 8 c.minimum.val,
      BitVec.ofNat 8 c.maximum.val, BitVec.ofNat 8 c.sensePeriod.val, BitVec.ofNat 8 c.window.val] := rfl

theorem fromBytes_brightnessBytes {c : Brightness} (h : c.window ≠ 0) (x : Brightness) :
    fromBytes Brightness.setByte x (brightnessBytes c) = c := by
  rw [brightnessBytes_eq, Brightness.fromBytes_eq, toNat_ofNat_of_lt c.mode.code_lt, BrightMode.ofCode_code,
    finOf_ofNat c.fixed (by omega), finOf_ofNat c.minimum (by omega), finOf_ofNat c.maximum (by omega),
    finOf_ofNat c.sensePeriod (by omega), windowOf_ofNat h]
  rfl

theorem setPeriodByte_periodByte (x y : Fin 8) : setPeriodByte x (periodByte y) = y :=
  congrArg (fun k => k.getD x) (finOf_ofNat y (by omega))

theorem InterruptConfig.ofByte_byte (c : InterruptConfig) : InterruptConfig.ofByte c.byte = c := by
  have h0 := bitAt_eq_mul c.activeHigh 0
  have h1 := bitAt_eq_mul c.pushPull 1
  have hactive : c.byte.getLsbD 0 = c.activeHigh := getLsbD_ofNat_of_div (by omega) (by omega)
  have hpush : c.byte.getLsbD 1 = c.pushPull := getLsbD_ofNat_of_div (by omega) (by omega)
  exact congrArg₂ InterruptConfig.mk hactive hpush

end Sys2Proof.Machine
end

section
/-! The store image: where its items stand, its class and what is loaded from it (R191, R193, R194). -/

namespace Sys2Proof.Machine

/-! Items of `k` bytes each, one after the other. -/

section
variable {α : Type} {k : Nat} {f : α → List Byte} (hf : ∀ x, (f x).length = k)
include hf

theorem length_flatMap_of_const (xs : List α) : (xs.flatMap f).length = k * xs.length := by
  simp only [List.length_flatMap, hf, List.map_const', List.sum_replicate, smul_eq_mul, Nat.mul_comm]

theorem Bank.length_flatMap_items {n : Nat} (b : Bank α n) : (b.items.flatMap f).length = k * n := by
  rw [length_flatMap_of_const hf, b.size]

theorem take_drop_flatMap (xs : List α) (rest : List Byte) (i : Nat) (hi : i < xs.length) :
    ((xs.flatMap f ++ rest).drop (k * i)).take k = f xs[i] := by
  induction xs generalizing i with
  | nil => exact absurd hi (Nat.not_lt_zero i)
  | cons x xs ih =>
    rw [List.flatMap_cons, List.append_assoc]
    cases i with
    | zero => exact List.take_left' (hf x)
    | succ i =>
      rw [Nat.mul_succ, Nat.add_comm, ← List.drop_drop, List.drop_left' (hf x)]
      exact ih i (Nat.lt_of_succ_lt_succ hi)

/-- A bank built from its items' bytes, when each item is taken from its own bytes, is the bank. -/
theorem Bank.build_of_flatMap_items {n : Nat} (b : Bank α n) (rest : List Byte) (load : Nat → List Byte → α)
    (hload : ∀ i : Fin n, load i.val (f (b.get i)) = b.get i) :
    Bank.build n (fun i => load i (((b.items.flatMap f ++ rest).drop (k * i)).take k)) = b := by
  refine Bank.ext_get fun i => ?_
  have hi : i.val < b.items.length := by rw [b.size]; exact i.isLt
  rw [Bank.get_build, take_drop_flatMap hf b.items rest i.val hi, ← b.get_eq_getElem i, hload]

end

/-! The body. -/

theorem length_pointBytes (d : PointDef) : (pointBytes d).length = 4 := rfl
theorem length_lineBytes (c : LineConfig) : (lineBytes c).length = 8 := rfl
theorem length_entryBytes (e : SlotEntry) : (entryBytes e).length = 2 := rfl
theorem length_brightnessBytes (b : Brightness) : (brightnessBytes b).length = 6 := rfl

theorem length_imageBody (c : ConfigMem) : (imageBody c).length = 1275 := by
  simp only [imageBody, List.length_append, Bank.length_flatMap_items length_pointBytes,
    Bank.length_flatMap_items length_lineBytes, Bank.length_flatMap_items length_entryBytes, length_brightnessBytes,
    List.length_cons, List.length_nil]

/-- The bytes of the ports, which end the body. -/
def portBytes (c : ConfigMem) : List Byte :=
  [periodByte c.period.a, periodByte c.period.b, c.interrupt.a.byte, c.interrupt.b.byte]

theorem imageBody_eq_cons (c : ConfigMem) :
    imageBody c = (if c.autoRun then 1 else 0) :: (c.points.items.flatMap pointBytes
      ++ (c.lines.items.flatMap lineBytes ++ (c.slots.items.flatMap entryBytes
        ++ (brightnessBytes c.brightness ++ portBytes c)))) := by
  simp only [imageBody, portBytes, List.append_assoc, List.cons_append, List.nil_append]

theorem ConfigMem.load_point {c : ConfigMem} (h : c.FieldsLegal) (i : Point) :
    loadPoint i.val (pointBytes (c.points.get i)) = c.points.get i := by
  by_cases hi : 248 ≤ i.val
  · exact loadPoint_system hi (h.system i (decide_eq_true hi))
  · exact loadPoint_user hi (h.user i (decide_eq_false hi))

/-- Each item is loaded as it was saved; the drops of `loadBody` stop where the items' bytes begin. -/
theorem loadBody_imageBody {c : ConfigMem} (h : c.FieldsLegal) : loadBody (imageBody c) = c := by
  have hauto : decide ((if c.autoRun then 1 else 0 : Byte) = 1) = c.autoRun := by
    cases c.autoRun <;> rfl
  have hpoints (rest : List Byte) := Bank.build_of_flatMap_items length_pointBytes c.points rest loadPoint
    (ConfigMem.load_point h)
  have hlines (rest : List Byte) := Bank.build_of_flatMap_items length_lineBytes c.lines rest
    (fun _ => fromBytes LineConfig.setByte LineConfig.default) fun i => fromBytes_lineBytes (c.lines.get i) _
  have hslots (rest : List Byte) := Bank.build_of_flatMap_items length_entryBytes c.slots rest
    (fun _ => fromBytes SlotEntry.setByte SlotEntry.default) fun i => fromBytes_entryBytes (c.slots.get i) _
  have hbrightness := fromBytes_brightnessBytes h.window Brightness.default
  rw [imageBody_eq_cons, loadBody]
  simp only [List.getD_cons_zero, List.drop_succ_cons, List.drop_zero,
    List.drop_left' (Bank.length_flatMap_items length_pointBytes c.points),
    List.drop_left' (Bank.length_flatMap_items length_lineBytes c.lines),
    List.drop_left' (Bank.length_flatMap_items length_entryBytes c.slots),
    List.drop_left' (length_brightnessBytes c.brightness), List.take_left' (length_brightnessBytes c.brightness),
    hauto, hpoints, hlines, hslots, hbrightness]
  simp only [portBytes, List.getD_cons_zero, List.getD_cons_succ, List.drop_succ_cons, List.drop_zero,
    setPeriodByte_periodByte, InterruptConfig.ofByte_byte]

/-! The image in the store. -/

theorem length_imageHeader (body : List Byte) : (imageHeader body).length = 5 := rfl

theorem length_imageBytes (c : ConfigMem) : (imageBytes c).length = imageSize := by
  rw [imageBytes, List.length_append, length_imageHeader, length_imageBody, imageSize]

theorem drop_header_imageBytes (c : ConfigMem) : (imageBytes c).drop 5 = imageBody c :=
  List.drop_left' (length_imageHeader _)

theorem headerFits_imageBytes (c : ConfigMem) : headerFits (imageBytes c) = true := by
  have htake : (imageBytes c).take 5 = imageHeader (imageBody c) := List.take_left' (length_imageHeader _)
  rw [headerFits, htake, drop_header_imageBytes, beq_self_eq_true]

/-- The dump of a store that holds some bytes from address 0 on gives them back. -/
theorem Memory.dump_ofBytes {bs : List Byte} (h : bs.length ≤ storeSize) :
    Memory.dump 0 bs.length (Memory.ofBytes 0 bs) = bs := by
  rw [Memory.dump_eq (Memory.wfFrom_ofBytes 0 bs (by omega))]
  refine List.ext_getElem (by simp) fun i hi hbs => ?_
  simp [Memory.read_ofBytes, List.getElem?_eq_getElem hbs]

/-- The store after a SAVE of `c` that agreed (R193). -/
def savedStore (c : ConfigMem) : Memory := Memory.ofBytes 0 (imageBytes c)

theorem dump_savedStore (c : ConfigMem) : (savedStore c).dump 0 imageSize = imageBytes c := by
  rw [← length_imageBytes c]
  exact Memory.dump_ofBytes (by rw [length_imageBytes, imageSize, storeSize]; omega)

theorem loadImage_savedStore {c : ConfigMem} (h : c.FieldsLegal) : loadImage (savedStore c) = c := by
  rw [loadImage, dump_savedStore, drop_header_imageBytes, loadBody_imageBody h]

/-- The format number, 1, is not the erased byte. -/
theorem isEmpty_savedStore (c : ConfigMem) : (savedStore c).isEmpty = false := rfl

theorem address_lt_of_savedStore (c : ConfigMem) :
    (savedStore c).all (fun cell => decide (cell.1 < imageSize)) = true := by
  refine List.all_eq_true.mpr fun cell hcell => decide_eq_true ?_
  have hlt := Memory.lt_of_mem_ofBytes hcell
  rwa [length_imageBytes, Nat.zero_add] at hlt

theorem classify_savedStore (c : ConfigMem) : classify false (savedStore c) = .valid := by
  simp [classify, isEmpty_savedStore, dump_savedStore, headerFits_imageBytes, address_lt_of_savedStore]

theorem classify_of_mark (m : Memory) : classify true m = .corrupt := rfl

end Sys2Proof.Machine
end

section
/-! A power reset, and a pin reset with its release, end the store operation that runs (R195, R196). -/

namespace Sys2Proof.Machine

/-! What both kinds of reset come to: the start-up work on the cleared state, with the kind's own Reset Cause. -/

/-- The state that the start-up work begins from, with the Reset Cause `cause` (R197). -/
def State.clearedWith (s : State) (cause : ResetCause) : State := { s.cleared with resetCause := cause }

theorem runAll_powerReset (s : State) (levels : BitVec 16) :
    runAll [.powerReset levels] s = .next ((s.clearedWith ⟨true, false, false⟩).startUp levels) := rfl

theorem runAll_pinReset_release (s : State) (levels : BitVec 16) :
    runAll [.pinReset, .pinResetRelease levels] s =
      .next ((s.clearedWith { s.resetCause with pin := true }).startUp levels) := by
  rw [runAll, s.exec_pinReset]
  rfl

theorem runAll_resets {cs : List Instr} {levels : BitVec 16}
    (hcs : cs = [.powerReset levels] ∨ cs = [.pinReset, .pinResetRelease levels]) (s : State) :
    ∃ cause, runAll cs s = .next ((s.clearedWith cause).startUp levels) := by
  rcases hcs with rfl | rfl
  · exact ⟨_, runAll_powerReset s levels⟩
  · exact ⟨_, runAll_pinReset_release s levels⟩

section
variable (s : State) (cause : ResetCause) (levels : BitVec 16)

theorem State.clearedWith_saveMark : (s.clearedWith cause).saveMark = s.saveMark := rfl

theorem State.clearedWith_store (h : s.interrupts = false) : (s.clearedWith cause).store = s.store :=
  if_neg (Bool.eq_false_iff.mp h)

/-- The start-up work changes neither the save mark nor the store. -/
theorem State.startUp_keeps_image (u : State) :
    (u.startUp levels).saveMark = u.saveMark ∧ (u.startUp levels).store = u.store := ⟨rfl, rfl⟩

theorem State.startUp_saveMark : ((s.clearedWith cause).startUp levels).saveMark = s.saveMark :=
  (State.startUp_keeps_image levels _).left.trans (s.clearedWith_saveMark cause)

theorem State.startUp_store (h : s.interrupts = false) : ((s.clearedWith cause).startUp levels).store = s.store :=
  (State.startUp_keeps_image levels _).right.trans (s.clearedWith_store cause h)

/-- No store operation runs after a reset, no item waits, and every mailbox is EMPTY (R195). -/
theorem State.startUp_idle (p : PortId) :
    ((s.clearedWith cause).startUp levels).storeOp = .idle ∧ ((s.clearedWith cause).startUp levels).queue = []
      ∧ (((s.clearedWith cause).startUp levels).port p).mailbox = .empty :=
  ⟨rfl, rfl, by cases p <;> rfl⟩

end

/-! The start-up work by the class of the image (R196). -/

section
variable {s : State} (levels : BitVec 16)

theorem State.startUp_of_corrupt (h : classify s.saveMark s.store = .corrupt) :
    s.startUp levels =
      { s with storeFault := true, startOperate := false, lines := sampledLines levels } := by
  simp [State.startUp, h]

theorem State.startUp_of_valid (h : classify s.saveMark s.store = .valid) :
    s.startUp levels = { s with
      config := loadImage s.store
      storeFault := false
      startOperate := (loadImage s.store).autoRun && (loadImage s.store).valid
      lines := sampledLines levels } := by
  simp [State.startUp, h]

end

/-! The three cases of R195. -/

section
variable {s : State} {cause : ResetCause} {levels : BitVec 16}

theorem State.interrupts_of_load {p : PortId} (h : s.storeOp = .reading p ∨ ∃ x, s.storeOp = .ended p (.loaded x)) :
    s.interrupts = false := by
  rcases h with h | ⟨x, h⟩ <;> simp [State.interrupts, h]

theorem State.interrupts_of_ended {p : PortId} {r : StoreResult} (h : s.storeOp = .ended p r) :
    s.interrupts = false := by
  simp [State.interrupts, h]

/-- While the save mark is set the image is CORRUPT, whatever the pages hold (R191). -/
theorem State.startUp_of_mark (hmark : s.saveMark = true) :
    (s.clearedWith cause).startUp levels =
      { s.clearedWith cause with storeFault := true, startOperate := false, lines := sampledLines levels } :=
  State.startUp_of_corrupt levels (by rw [State.clearedWith_saveMark, hmark, classify_of_mark])

/-- A SAVE that succeeded left an image that the start-up work loads. -/
theorem State.startUp_of_saved (hi : s.interrupts = false) (hmark : s.saveMark = false) {c : ConfigMem}
    (hlegal : c.FieldsLegal) (hstore : s.store = savedStore c) :
    ((s.clearedWith cause).startUp levels).config = c
      ∧ ((s.clearedWith cause).startUp levels).storeFault = false := by
  have hsaved : (s.clearedWith cause).store = savedStore c := (s.clearedWith_store cause hi).trans hstore
  have hvalid : classify (s.clearedWith cause).saveMark (s.clearedWith cause).store = .valid := by
    rw [State.clearedWith_saveMark, hmark, hsaved, classify_savedStore]
  rw [State.startUp_of_valid levels hvalid]
  exact ⟨by rw [hsaved, loadImage_savedStore hlegal], rfl⟩

end

/-- Settles O6: the start-up work on the cleared state, by what the store operation had come to. -/
theorem resetEndsStoreOperation : Obligations.ResetEndsStoreOperation := by
  unfold Obligations.ResetEndsStoreOperation
  intro levels s cs hcs
  obtain ⟨cause, hrun⟩ := runAll_resets hcs s
  refine ⟨?load, ?save, ?saved⟩
  case load =>
    intro p hop
    exact ⟨_, hrun, s.startUp_store cause levels (State.interrupts_of_load hop), s.startUp_idle cause levels p⟩
  case save =>
    intro p image hmark _
    have hmarked : ((s.clearedWith cause).startUp levels).saveMark = true :=
      (s.startUp_saveMark cause levels).trans hmark
    refine ⟨_, hrun, hmarked, by rw [hmarked, classify_of_mark], ?_⟩
    have hidle := s.startUp_idle cause levels p
    rw [State.startUp_of_mark hmark] at hidle ⊢
    exact ⟨rfl, rfl, rfl, hidle⟩
  case saved =>
    intro p c hop hmark hlegal hstore
    have hi := State.interrupts_of_ended hop
    obtain ⟨hconfig, hfault⟩ := State.startUp_of_saved (cause := cause) (levels := levels) hi hmark hlegal hstore
    exact ⟨_, hrun, s.startUp_store cause levels hi, hconfig, hfault, s.startUp_idle cause levels p⟩

end Sys2Proof.Machine
end
